-- ==== Sys2Proof/Word.lean ====
section
/-! DEFINITION. The word types of the machine (00_scope.md R9, R10): a byte, a 64-bit word (a linear address, a
general register, an opmask register, one binary64 lane) and a 512-bit vector register. -/

namespace Sys2Proof

/-- One byte: the unit of memory (R50) and of an encoding (R80). -/
abbrev Byte := BitVec 8

/-- 64 bits: a linear address (R50), a general register (R31), an opmask register (R24), one lane (R133). -/
abbrev Word := BitVec 64

/-- A whole vector register `Z[i]` (R21). The storage is 512 bits; `Cpu.maxvl` says how many of them exist. -/
abbrev Vec := BitVec 512

end Sys2Proof
end

