-- ==== Sys2Proof/Syntax.lean ====
section
/-! DEFINITION. The instructions as syntax: one constructor of `Instr` per row of spec/opcode_table.json
(30_encoding.md R113), holding what the encoding says and nothing that it ignores (log 19). -/

namespace Sys2Proof

/-- The legacy prefix bytes that may precede the VEX or EVEX prefix, in any order and number (R80, R111). -/
inductive LegacyPrefix where
  /-- 26h, no effect in 64-bit mode -/
  | es
  /-- 2Eh, no effect in 64-bit mode -/
  | cs
  /-- 36h, no effect in 64-bit mode -/
  | ss
  /-- 3Eh, no effect in 64-bit mode -/
  | ds
  /-- 64h, the access adds `FS.base` -/
  | fs
  /-- 65h, the access adds `GS.base` -/
  | gs
  /-- 67h, 32-bit address size -/
  | addressSize
deriving DecidableEq, Repr

/-- The digits of the mnemonic: operand numbers of multiplicand, multiplier and addend (R100, R134). -/
inductive Kind where
  | k132
  | k213
  | k231
deriving DecidableEq, Repr

/-- The four rounding controls, in the coding order 00, 01, 10, 11 of `MXCSR.RC` and `EVEX.RC` (R27, R94). -/
inductive Rounding where
  | nearest
  | down
  | up
  | toZero
deriving DecidableEq, Repr

/-- The displacement that `ModRM.mod` announces: none (00), a signed byte (01) or a signed doubleword (10) (R103). -/
inductive Disp where
  | none
  | disp8 (d : BitVec 8)
  | disp32 (d : BitVec 32)
deriving DecidableEq, Repr

/-- An index register and its scale, the factor being `2 ^ scale` (R55, R102). -/
structure Index where
  reg : BitVec 4
  scale : BitVec 2
deriving DecidableEq, Repr

/-- Where a memory operand 3 lies: the rows of the table of R55. -/
inductive MemAddr where
  /-- no SIB byte: `[base + disp]` -/
  | base (reg : BitVec 4) (disp : Disp)
  /-- SIB byte with a base register: `[base + index * scale + disp]` -/
  | sib (base : BitVec 4) (index : Option Index) (disp : Disp)
  /-- SIB byte with `base = 101`, `mod = 00`: `[index * scale + disp32]` -/
  | sibNoBase (index : Option Index) (disp : BitVec 32)
  /-- `mod = 00`, `rm = 101`: `[RIP + ilen + disp32]` (R56) -/
  | ripRelative (disp : BitVec 32)
deriving DecidableEq, Repr

/-- Operand 3 of a VEX form: register 0..15 or memory (R13, R172). -/
inductive VexOp3 where
  | reg (r : BitVec 4)
  | mem (m : MemAddr)
deriving DecidableEq, Repr

/-- Operand 3 of an EVEX form: register 0..31, memory, or one 64-bit element broadcast to every lane (R13, R193). -/
inductive EvexOp3 where
  | reg (r : BitVec 5)
  | mem (m : MemAddr)
  | broadcast (m : MemAddr)
deriving DecidableEq, Repr

/-- Operand 3 of an EVEX.512 form: any of the above, or a register with embedded rounding, which only these rows
carry (R94, R195). -/
inductive EvexOp3Er where
  | plain (o : EvexOp3)
  | rounded (r : BitVec 5) (rc : Rounding)
deriving DecidableEq, Repr

/-- The opmask registers that `EVEX.aaa` can select as a write mask (R25, R95). -/
inductive MaskReg where
  | k1
  | k2
  | k3
  | k4
  | k5
  | k6
  | k7
deriving DecidableEq, Repr

/-- `EVEX.aaa` and `EVEX.z` together (R95, R190): no write mask, merging-masking, zeroing-masking. Zeroing without a
mask has no constructor: the encoding is illegal (R96). -/
inductive Masking where
  | unmasked
  | merging (k : MaskReg)
  | zeroing (k : MaskReg)
deriving DecidableEq, Repr

/-- The fifteen rows of the opcode table, in its order (R113). `p` is the legacy prefixes in address order, `dst`
operand 1 (ModRM:reg), `src2` operand 2 (vvvv), `op3` operand 3 (ModRM:r/m), `mask` the write mask. -/
inductive Instr where
  /-- row 1, R172: VFNMADD132PD xmm1, xmm2, xmm3/m128 -/
  | vfnmadd132pdXmmVex (p : List LegacyPrefix) (dst src2 : BitVec 4) (op3 : VexOp3)
  /-- row 2, R173: VFNMADD213PD xmm1, xmm2, xmm3/m128 -/
  | vfnmadd213pdXmmVex (p : List LegacyPrefix) (dst src2 : BitVec 4) (op3 : VexOp3)
  /-- row 3, R174: VFNMADD231PD xmm1, xmm2, xmm3/m128 -/
  | vfnmadd231pdXmmVex (p : List LegacyPrefix) (dst src2 : BitVec 4) (op3 : VexOp3)
  /-- row 4, R175: VFNMADD132PD ymm1, ymm2, ymm3/m256 -/
  | vfnmadd132pdYmmVex (p : List LegacyPrefix) (dst src2 : BitVec 4) (op3 : VexOp3)
  /-- row 5, R176: VFNMADD213PD ymm1, ymm2, ymm3/m256 -/
  | vfnmadd213pdYmmVex (p : List LegacyPrefix) (dst src2 : BitVec 4) (op3 : VexOp3)
  /-- row 6, R177: VFNMADD231PD ymm1, ymm2, ymm3/m256 -/
  | vfnmadd231pdYmmVex (p : List LegacyPrefix) (dst src2 : BitVec 4) (op3 : VexOp3)
  /-- row 7, R200: VFNMADD132PD xmm1 (k1)(z), xmm2, xmm3/m128/m64bcst -/
  | vfnmadd132pdXmmEvex (p : List LegacyPrefix) (mask : Masking) (dst src2 : BitVec 5) (op3 : EvexOp3)
  /-- row 8, R201: VFNMADD213PD xmm1 (k1)(z), xmm2, xmm3/m128/m64bcst -/
  | vfnmadd213pdXmmEvex (p : List LegacyPrefix) (mask : Masking) (dst src2 : BitVec 5) (op3 : EvexOp3)
  /-- row 9, R202: VFNMADD231PD xmm1 (k1)(z), xmm2, xmm3/m128/m64bcst -/
  | vfnmadd231pdXmmEvex (p : List LegacyPrefix) (mask : Masking) (dst src2 : BitVec 5) (op3 : EvexOp3)
  /-- row 10, R203: VFNMADD132PD ymm1 (k1)(z), ymm2, ymm3/m256/m64bcst -/
  | vfnmadd132pdYmmEvex (p : List LegacyPrefix) (mask : Masking) (dst src2 : BitVec 5) (op3 : EvexOp3)
  /-- row 11, R204: VFNMADD213PD ymm1 (k1)(z), ymm2, ymm3/m256/m64bcst -/
  | vfnmadd213pdYmmEvex (p : List LegacyPrefix) (mask : Masking) (dst src2 : BitVec 5) (op3 : EvexOp3)
  /-- row 12, R205: VFNMADD231PD ymm1 (k1)(z), ymm2, ymm3/m256/m64bcst -/
  | vfnmadd231pdYmmEvex (p : List LegacyPrefix) (mask : Masking) (dst src2 : BitVec 5) (op3 : EvexOp3)
  /-- row 13, R206: VFNMADD132PD zmm1 (k1)(z), zmm2, zmm3/m512/m64bcst(er) -/
  | vfnmadd132pdZmmEvex (p : List LegacyPrefix) (mask : Masking) (dst src2 : BitVec 5) (op3 : EvexOp3Er)
  /-- row 14, R207: VFNMADD213PD zmm1 (k1)(z), zmm2, zmm3/m512/m64bcst(er) -/
  | vfnmadd213pdZmmEvex (p : List LegacyPrefix) (mask : Masking) (dst src2 : BitVec 5) (op3 : EvexOp3Er)
  /-- row 15, R208: VFNMADD231PD zmm1 (k1)(z), zmm2, zmm3/m512/m64bcst(er) -/
  | vfnmadd231pdZmmEvex (p : List LegacyPrefix) (mask : Masking) (dst src2 : BitVec 5) (op3 : EvexOp3Er)
deriving DecidableEq, Repr

/-- The lane count `KL` of a VEX form: `MAXNUM` of R171. -/
inductive VexLength where
  | l128
  | l256
deriving DecidableEq, Repr

/-- The vector lengths of an EVEX form (R93). -/
inductive EvexLength where
  | l128
  | l256
  | l512
deriving DecidableEq, Repr

/-- The VEX row of a mnemonic and a vector length (R83, R113 rows 1-6). -/
def Instr.vex (k : Kind) (l : VexLength) (p : List LegacyPrefix) (dst src2 : BitVec 4) (op3 : VexOp3) : Instr :=
  match l, k with
  | .l128, .k132 => .vfnmadd132pdXmmVex p dst src2 op3
  | .l128, .k213 => .vfnmadd213pdXmmVex p dst src2 op3
  | .l128, .k231 => .vfnmadd231pdXmmVex p dst src2 op3
  | .l256, .k132 => .vfnmadd132pdYmmVex p dst src2 op3
  | .l256, .k213 => .vfnmadd213pdYmmVex p dst src2 op3
  | .l256, .k231 => .vfnmadd231pdYmmVex p dst src2 op3

/-- The EVEX row of a mnemonic and a vector length, without embedded rounding (R91, R93, R113 rows 7-15). -/
def Instr.evex (k : Kind) (l : EvexLength) (p : List LegacyPrefix) (mask : Masking) (dst src2 : BitVec 5)
    (op3 : EvexOp3) : Instr :=
  match l, k with
  | .l128, .k132 => .vfnmadd132pdXmmEvex p mask dst src2 op3
  | .l128, .k213 => .vfnmadd213pdXmmEvex p mask dst src2 op3
  | .l128, .k231 => .vfnmadd231pdXmmEvex p mask dst src2 op3
  | .l256, .k132 => .vfnmadd132pdYmmEvex p mask dst src2 op3
  | .l256, .k213 => .vfnmadd213pdYmmEvex p mask dst src2 op3
  | .l256, .k231 => .vfnmadd231pdYmmEvex p mask dst src2 op3
  | .l512, .k132 => .vfnmadd132pdZmmEvex p mask dst src2 (.plain op3)
  | .l512, .k213 => .vfnmadd213pdZmmEvex p mask dst src2 (.plain op3)
  | .l512, .k231 => .vfnmadd231pdZmmEvex p mask dst src2 (.plain op3)

/-- The EVEX.512 row of a mnemonic with embedded rounding (R94; the second pattern of rows 13-15 of R113). -/
def Instr.evexRounded (k : Kind) (p : List LegacyPrefix) (mask : Masking) (dst src2 : BitVec 5) (r : BitVec 5)
    (rc : Rounding) : Instr :=
  match k with
  | .k132 => .vfnmadd132pdZmmEvex p mask dst src2 (.rounded r rc)
  | .k213 => .vfnmadd213pdZmmEvex p mask dst src2 (.rounded r rc)
  | .k231 => .vfnmadd231pdZmmEvex p mask dst src2 (.rounded r rc)

/-! ## Length (R109) -/

/-- Bytes of a displacement (R103). -/
def Disp.length : Disp → Nat
  | .none => 0
  | .disp8 _ => 1
  | .disp32 _ => 4

/-- Bytes that a memory operand adds after ModRM: the SIB byte, if there is one, and the displacement (R109). -/
def MemAddr.length : MemAddr → Nat
  | .base _ d => d.length
  | .sib _ _ d => 1 + d.length
  | .sibNoBase _ _ => 5
  | .ripRelative _ => 4

/-- Bytes that operand 3 of a VEX form adds after ModRM. -/
def VexOp3.length : VexOp3 → Nat
  | .reg _ => 0
  | .mem m => m.length

/-- Bytes that operand 3 of an EVEX form adds after ModRM. -/
def EvexOp3.length : EvexOp3 → Nat
  | .reg _ => 0
  | .mem m => m.length
  | .broadcast m => m.length

/-- Bytes that operand 3 of an EVEX.512 form adds after ModRM. -/
def EvexOp3Er.length : EvexOp3Er → Nat
  | .plain o => o.length
  | .rounded _ _ => 0

/-- `ilen` of a VEX form: legacy prefixes, three prefix bytes, opcode, ModRM, and what operand 3 adds (R109). -/
def vexLength (p : List LegacyPrefix) (op3 : VexOp3) : Nat := p.length + 5 + op3.length

/-- `ilen` of an EVEX form: legacy prefixes, four prefix bytes, opcode, ModRM, and what operand 3 adds (R109). -/
def evexLength (p : List LegacyPrefix) (op3 : EvexOp3Er) : Nat := p.length + 6 + op3.length

/-- `ilen`: the length in bytes of the encoding, all prefixes included (R30, R109). -/
def Instr.length : Instr → Nat
  | .vfnmadd132pdXmmVex p _ _ op3 => vexLength p op3
  | .vfnmadd213pdXmmVex p _ _ op3 => vexLength p op3
  | .vfnmadd231pdXmmVex p _ _ op3 => vexLength p op3
  | .vfnmadd132pdYmmVex p _ _ op3 => vexLength p op3
  | .vfnmadd213pdYmmVex p _ _ op3 => vexLength p op3
  | .vfnmadd231pdYmmVex p _ _ op3 => vexLength p op3
  | .vfnmadd132pdXmmEvex p _ _ _ op3 => evexLength p (.plain op3)
  | .vfnmadd213pdXmmEvex p _ _ _ op3 => evexLength p (.plain op3)
  | .vfnmadd231pdXmmEvex p _ _ _ op3 => evexLength p (.plain op3)
  | .vfnmadd132pdYmmEvex p _ _ _ op3 => evexLength p (.plain op3)
  | .vfnmadd213pdYmmEvex p _ _ _ op3 => evexLength p (.plain op3)
  | .vfnmadd231pdYmmEvex p _ _ _ op3 => evexLength p (.plain op3)
  | .vfnmadd132pdZmmEvex p _ _ _ op3 => evexLength p op3
  | .vfnmadd213pdZmmEvex p _ _ _ op3 => evexLength p op3
  | .vfnmadd231pdZmmEvex p _ _ _ op3 => evexLength p op3

end Sys2Proof
end

