-- ==== Sys2Proof/WellFormed.lean ====
section
/-! DEFINITION. Which terms of `Instr` the encoding can express (30_encoding.md R101-R103, R110; 20_memory.md R55). -/

namespace Sys2Proof

/-- Without an SIB byte the base register's low three bits are not 100 ("`rm = 100` always means an SIB byte follows
whatever `B` is"), and not 101 when there is no displacement ("`mod = 00, rm = 101` always means RIP-relative
whatever `B` is") (R55). -/
def baseOk (reg : BitVec 4) (d : Disp) : Bool :=
  reg.extractLsb' 0 3 != 4#3 && (d != .none || reg.extractLsb' 0 3 != 5#3)

/-- With an SIB byte, a base whose low three bits are 101 needs a displacement: `SIB.base = 101` with `mod = 00` means
no base register (R55). -/
def sibBaseOk (reg : BitVec 4) (d : Disp) : Bool :=
  d != .none || reg.extractLsb' 0 3 != 5#3

/-- General register 4 (RSP) cannot be an index: the four-bit index number 0100b means no index (R55). -/
def indexOk : Option Index → Bool
  | none => true
  | some i => i.reg != 4#4

/-- The memory operand has an encoding in ModRM and SIB (R55). -/
def MemAddr.wf : MemAddr → Bool
  | .base r d => baseOk r d
  | .sib b i d => sibBaseOk b d && indexOk i
  | .sibNoBase i _ => indexOk i
  | .ripRelative _ => true

/-- Operand 3 of a VEX form has an encoding. -/
def VexOp3.wf : VexOp3 → Bool
  | .reg _ => true
  | .mem m => m.wf

/-- Operand 3 of an EVEX form has an encoding. -/
def EvexOp3.wf : EvexOp3 → Bool
  | .reg _ => true
  | .mem m => m.wf
  | .broadcast m => m.wf

/-- Operand 3 of an EVEX.512 form has an encoding. -/
def EvexOp3Er.wf : EvexOp3Er → Bool
  | .plain o => o.wf
  | .rounded _ _ => true

/-- Operand 3 of any row has an encoding. -/
def Instr.op3Wf : Instr → Bool
  | .vfnmadd132pdXmmVex _ _ _ op3 => op3.wf
  | .vfnmadd213pdXmmVex _ _ _ op3 => op3.wf
  | .vfnmadd231pdXmmVex _ _ _ op3 => op3.wf
  | .vfnmadd132pdYmmVex _ _ _ op3 => op3.wf
  | .vfnmadd213pdYmmVex _ _ _ op3 => op3.wf
  | .vfnmadd231pdYmmVex _ _ _ op3 => op3.wf
  | .vfnmadd132pdXmmEvex _ _ _ _ op3 => op3.wf
  | .vfnmadd213pdXmmEvex _ _ _ _ op3 => op3.wf
  | .vfnmadd231pdXmmEvex _ _ _ _ op3 => op3.wf
  | .vfnmadd132pdYmmEvex _ _ _ _ op3 => op3.wf
  | .vfnmadd213pdYmmEvex _ _ _ _ op3 => op3.wf
  | .vfnmadd231pdYmmEvex _ _ _ _ op3 => op3.wf
  | .vfnmadd132pdZmmEvex _ _ _ _ op3 => op3.wf
  | .vfnmadd213pdZmmEvex _ _ _ _ op3 => op3.wf
  | .vfnmadd231pdZmmEvex _ _ _ _ op3 => op3.wf

/-- The longest instruction, in bytes (R80, R110). -/
def maxInstrLength : Nat := 15

/-- Well-formed: operand 3 has an encoding and the whole is at most 15 bytes long (R110). -/
def Instr.wf (i : Instr) : Bool := i.op3Wf && decide (i.length ≤ maxInstrLength)

end Sys2Proof
end

