-- ==== Sys2Proof/Decode.lean ====
section
/-! DEFINITION. The decoder, total on any bytes and rejecting by name (30_encoding.md R80-R114), and after it the
encoder, both written from the layouts of the VEX and EVEX prefixes, ModRM and SIB. -/

namespace Sys2Proof

/-! ## Results -/

/-- Why an encoding of these instructions' neighbourhood is #UD (R114, R234(d), R235(b)-(d)). -/
inductive IllegalReason where
  /-- a 66h, F2h, F3h, F0h or REX byte before C4h or 62h (R86, R97, R111, R114) -/
  | excludedPrefix
  /-- EVEX P0[3:2] != 00 or P1[2] != 1 (R90) -/
  | reservedEvexField
  /-- EVEX.z = 1 with EVEX.aaa = 000 (R96) -/
  | zeroingWithoutMask
  /-- EVEX.L'L = 11 as a vector length (R93) -/
  | reservedLength
deriving DecidableEq, Repr

/-- Why bytes are not an instruction of this spec and not one of its #UD patterns: the model refuses (R85, R97, R114,
R256). -/
inductive OtherReason where
  /-- the byte after the legacy prefixes is neither C4h nor 62h -/
  | otherOpcode
  /-- another opcode map -/
  | otherMap
  /-- map 0F38, another opcode byte -/
  | otherOperation
  /-- W = 0: the single-precision sibling (R85, R97) -/
  | singlePrecision
  /-- another implied prefix pp -/
  | otherImplied
  /-- outside 64-bit mode the bytes are LES or BOUND, not a VEX or EVEX prefix (R123) -/
  | lesOrBound
deriving DecidableEq, Repr

/-- What decoding answers. -/
inductive DecodeResult where
  /-- an instruction of the table, and the bytes after it -/
  | instr (i : Instr) (rest : List Byte)
  /-- an illegal pattern: #UD -/
  | illegal (why : IllegalReason)
  /-- not an instruction of this spec: refused -/
  | other (why : OtherReason)
  /-- longer than 15 bytes: #GP(0) (R110) -/
  | tooLong
  /-- the bytes end before the instruction does -/
  | truncated
deriving DecidableEq, Repr

/-! ## Bytes and fields -/

/-- The byte of a legacy prefix (R111). -/
def LegacyPrefix.byte : LegacyPrefix → Byte
  | .es => 0x26#8
  | .cs => 0x2E#8
  | .ss => 0x36#8
  | .ds => 0x3E#8
  | .fs => 0x64#8
  | .gs => 0x65#8
  | .addressSize => 0x67#8

/-- A byte that may stand before C4h or 62h: one of R111's prefixes, or one that R86 and R97 exclude. -/
inductive PrefixItem where
  | legacy (p : LegacyPrefix)
  | excluded
deriving DecidableEq, Repr

/-- 66h, F2h, F3h, LOCK (F0h) and REX (40h-4Fh): what may not precede a VEX or EVEX prefix (R86, R97). -/
def isExcludedByte (b : Byte) : Bool :=
  b == 0x66#8 || b == 0xF2#8 || b == 0xF3#8 || b == 0xF0#8 || b.extractLsb' 4 4 == 4#4

/-- What a byte before C4h or 62h is, if it is a prefix at all. -/
def prefixItem (b : Byte) : Option PrefixItem :=
  if b = 0x26#8 then some (.legacy .es)
  else if b = 0x2E#8 then some (.legacy .cs)
  else if b = 0x36#8 then some (.legacy .ss)
  else if b = 0x3E#8 then some (.legacy .ds)
  else if b = 0x64#8 then some (.legacy .fs)
  else if b = 0x65#8 then some (.legacy .gs)
  else if b = 0x67#8 then some (.legacy .addressSize)
  else if isExcludedByte b then some .excluded
  else none

/-- "skip legacy prefixes" (R109): the prefix bytes at the front, and the bytes after them. -/
def splitPrefixes : List Byte → List PrefixItem × List Byte
  | [] => ([], [])
  | b :: bs =>
    match prefixItem b with
    | some item => (item :: (splitPrefixes bs).1, (splitPrefixes bs).2)
    | none => ([], b :: bs)

/-- The legacy prefixes among the prefix bytes. -/
def legacyOf : List PrefixItem → List LegacyPrefix
  | [] => []
  | .legacy p :: items => p :: legacyOf items
  | .excluded :: items => legacyOf items

/-- A register number of four bits: an extension bit and three bits of ModRM or SIB (R81, R92). -/
def num4 (ext : Bool) (low : BitVec 3) : BitVec 4 := BitVec.ofBool ext ++ low

/-- A register number of five bits (R92). -/
def num5 (ext4 ext3 : Bool) (low : BitVec 3) : BitVec 5 := BitVec.ofBool ext4 ++ (BitVec.ofBool ext3 ++ low)

/-- The three opcode bytes (R100). -/
def kindOfOpcode (op : Byte) : Option Kind :=
  if op = 0x9C#8 then some .k132
  else if op = 0xAC#8 then some .k213
  else if op = 0xBC#8 then some .k231
  else none

/-- The coding of `EVEX.RC` and `MXCSR.RC`: 00 nearest-even, 01 down, 10 up, 11 toward zero (R27, R94). -/
def Rounding.ofBits (b : BitVec 2) : Rounding :=
  if b = 0#2 then .nearest else if b = 1#2 then .down else if b = 2#2 then .up else .toZero

/-- The opmask register that `EVEX.aaa` selects; 000 selects none (R95). -/
def MaskReg.ofBits (aaa : BitVec 3) : Option MaskReg :=
  if aaa = 0#3 then none
  else if aaa = 1#3 then some .k1
  else if aaa = 2#3 then some .k2
  else if aaa = 3#3 then some .k3
  else if aaa = 4#3 then some .k4
  else if aaa = 5#3 then some .k5
  else if aaa = 6#3 then some .k6
  else some .k7

/-- `EVEX.z` and `EVEX.aaa` (R95); none for z = 1 with aaa = 000 (R96). -/
def Masking.ofBits (z : Bool) (aaa : BitVec 3) : Option Masking :=
  match z, MaskReg.ofBits aaa with
  | false, none => some .unmasked
  | true, none => none
  | false, some k => some (.merging k)
  | true, some k => some (.zeroing k)

/-- `EVEX.L'L` as a vector length; 11 is reserved (R93). -/
def EvexLength.ofBits (ll : BitVec 2) : Option EvexLength :=
  if ll = 0#2 then some .l128
  else if ll = 1#2 then some .l256
  else if ll = 2#2 then some .l512
  else none

/-! ## ModRM, SIB, displacement -/

/-- One displacement byte (R103). -/
def takeDisp8 : List Byte → Option (BitVec 8 × List Byte)
  | b :: bs => some (b, bs)
  | [] => none

/-- Four displacement bytes, little-endian (R80, R103). -/
def takeDisp32 : List Byte → Option (BitVec 32 × List Byte)
  | b0 :: b1 :: b2 :: b3 :: bs => some (b3 ++ (b2 ++ (b1 ++ b0)), bs)
  | _ => none

/-- The displacement that `mod` announces (R103). -/
def takeDisp (mod : BitVec 2) (bs : List Byte) : Option (Disp × List Byte) :=
  if mod = 0#2 then some (.none, bs)
  else if mod = 1#2 then (takeDisp8 bs).map fun d => (.disp8 d.1, d.2)
  else (takeDisp32 bs).map fun d => (.disp32 d.1, d.2)

/-- The index of an SIB byte: the four-bit number `X:SIB.index`, 0100b meaning none (R55, R102). -/
def sibIndex (x : Bool) (sib : Byte) : Option Index :=
  if num4 x (sib.extractLsb' 3 3) = 4#4 then none
  else some { reg := num4 x (sib.extractLsb' 3 3), scale := sib.extractLsb' 6 2 }

/-- A memory operand from `mod`, `rm`, the extension bits `X` and `B` (already inverted) and the bytes after ModRM
(R55, R101-R103). -/
def takeMem (x b : Bool) (mod : BitVec 2) (rm : BitVec 3) (bs : List Byte) : Option (MemAddr × List Byte) :=
  if rm = 4#3 then
    match bs with
    | [] => none
    | sib :: bs =>
      if mod = 0#2 ∧ sib.extractLsb' 0 3 = 5#3 then
        (takeDisp32 bs).map fun d => (.sibNoBase (sibIndex x sib) d.1, d.2)
      else
        (takeDisp mod bs).map fun d => (.sib (num4 b (sib.extractLsb' 0 3)) (sibIndex x sib) d.1, d.2)
  else if mod = 0#2 ∧ rm = 5#3 then
    (takeDisp32 bs).map fun d => (.ripRelative d.1, d.2)
  else
    (takeDisp mod bs).map fun d => (.base (num4 b rm) d.1, d.2)

/-- Operand 3 before the prefix's own bits are added: `ModRM.rm` of a register, or a memory operand. -/
inductive RawOp3 where
  | reg (rm : BitVec 3)
  | mem (m : MemAddr)
deriving DecidableEq, Repr

/-- ModRM and what follows it: `ModRM.reg`, operand 3, and the bytes after the instruction (R101, R109). -/
def takeModRM (x b : Bool) : List Byte → Option (BitVec 3 × RawOp3 × List Byte)
  | [] => none
  | modrm :: bs =>
    if modrm.extractLsb' 6 2 = 3#2 then some (modrm.extractLsb' 3 3, .reg (modrm.extractLsb' 0 3), bs)
    else (takeMem x b (modrm.extractLsb' 6 2) (modrm.extractLsb' 0 3) bs).map
      fun m => (modrm.extractLsb' 3 3, .mem m.1, m.2)

/-! ## The decoding procedure (R112) -/

/-- What the prefix bytes before C4h or 62h make of an instruction that is otherwise legal: an excluded byte immediately
before C4h or 62h makes it illegal (R86, R97, R112, R234(d)), and so does one that other prefix bytes separate from it
("any other prefix byte there is excluded", R111; R66, R114; U8 of 93_implementation_defined.md; DEDUCED, log 13). -/
def checkPrefixes (items : List PrefixItem) (whenClean : DecodeResult) : DecodeResult :=
  if items.contains .excluded then .illegal .excludedPrefix else whenClean

/-- The bytes after C4h: the VEX half of R112. `b1` holds R X B mmmmm, `b2` holds W vvvv L pp (R81). -/
def decodeVex (items : List PrefixItem) : List Byte → DecodeResult
  | b1 :: b2 :: op :: bs =>
    if b1.extractLsb' 0 5 ≠ 2#5 then .other .otherMap
    else match kindOfOpcode op with
      | none => .other .otherOperation
      | some k =>
        if b2.getLsbD 7 = false then .other .singlePrecision
        else if b2.extractLsb' 0 2 ≠ 1#2 then .other .otherImplied
        else match takeModRM (!b1.getLsbD 6) (!b1.getLsbD 5) bs with
          | none => .truncated
          | some (reg, raw, rest) =>
            checkPrefixes items <| .instr (rest := rest) <|
              Instr.vex k (if b2.getLsbD 2 then .l256 else .l128) (legacyOf items)
                (num4 (!b1.getLsbD 7) reg) (~~~(b2.extractLsb' 3 4))
                (match raw with
                 | .reg rm => .reg (num4 (!b1.getLsbD 5) rm)
                 | .mem m => .mem m)
  | _ => .truncated

/-- The EVEX instruction of a register or memory operand 3 once the mask is known (R93, R94, R112). -/
def evexInstr (items : List PrefixItem) (k : Kind) (mask : Masking) (dst src2 : BitVec 5) (x b : Bool) (bc : Bool)
    (ll : BitVec 2) (raw : RawOp3) (rest : List Byte) : DecodeResult :=
  match raw, bc with
  | .reg rm, true => .instr (Instr.evexRounded k (legacyOf items) mask dst src2 (num5 x b rm) (.ofBits ll)) rest
  | .reg rm, false =>
    match EvexLength.ofBits ll with
    | none => .illegal .reservedLength
    | some l => .instr (Instr.evex k l (legacyOf items) mask dst src2 (.reg (num5 x b rm))) rest
  | .mem m, bc =>
    match EvexLength.ofBits ll with
    | none => .illegal .reservedLength
    | some l => .instr (Instr.evex k l (legacyOf items) mask dst src2 (if bc then .broadcast m else .mem m)) rest

/-- The bytes after 62h: the EVEX half of R112. `p0` holds R X B R' 00 mm, `p1` holds W vvvv 1 pp, `p2` holds
z L'L b V' aaa (R90). A reserved field makes the encoding illegal once all its bytes are there (log 12). -/
def decodeEvex (items : List PrefixItem) : List Byte → DecodeResult
  | p0 :: p1 :: p2 :: op :: bs =>
    if p0.extractLsb' 2 2 ≠ 0#2 ∨ p1.getLsbD 2 = false then
      match takeModRM (!p0.getLsbD 6) (!p0.getLsbD 5) bs with
      | none => .truncated
      | some _ => .illegal .reservedEvexField
    else if p0.extractLsb' 0 2 ≠ 2#2 then .other .otherMap
    else match kindOfOpcode op with
      | none => .other .otherOperation
      | some k =>
        if p1.getLsbD 7 = false then .other .singlePrecision
        else if p1.extractLsb' 0 2 ≠ 1#2 then .other .otherImplied
        else match takeModRM (!p0.getLsbD 6) (!p0.getLsbD 5) bs with
          | none => .truncated
          | some (reg, raw, rest) =>
            checkPrefixes items <|
              match Masking.ofBits (p2.getLsbD 7) (p2.extractLsb' 0 3) with
              | none => .illegal .zeroingWithoutMask
              | some mask =>
                evexInstr items k mask (num5 (!p0.getLsbD 4) (!p0.getLsbD 7) reg)
                  (BitVec.ofBool (!p2.getLsbD 3) ++ ~~~(p1.extractLsb' 3 4))
                  (!p0.getLsbD 6) (!p0.getLsbD 5) (p2.getLsbD 4) (p2.extractLsb' 5 2) raw rest
  | _ => .truncated

/-- R112 on a window of at most 15 bytes. -/
def decodeWindow (bs : List Byte) : DecodeResult :=
  match (splitPrefixes bs).2 with
  | [] => .truncated
  | b :: rest =>
    if b = 0xC4#8 then decodeVex (splitPrefixes bs).1 rest
    else if b = 0x62#8 then decodeEvex (splitPrefixes bs).1 rest
    else .other .otherOpcode

/-- Decode the instruction at the front of a byte list. Only the first 15 bytes are looked at: an instruction that
does not end within them is longer than 15 bytes (R110). Bytes that do not even reach the opcode byte within 15, so that
they may be another instruction (R256), count as too long as well (DESIGN CHOICE, log 22). -/
def decode (bs : List Byte) : DecodeResult :=
  match decodeWindow (bs.take maxInstrLength) with
  | .instr i rest => .instr i (rest ++ bs.drop maxInstrLength)
  | .illegal why => .illegal why
  | .other why => .other why
  | .tooLong => .tooLong
  | .truncated => if maxInstrLength ≤ bs.length then .tooLong else .truncated

/-! ## The encoder -/

/-- The low three bits of a register number: what ModRM or SIB holds of it (R81, R92). -/
def low3 {n : Nat} (r : BitVec n) : BitVec 3 := r.extractLsb' 0 3

/-- A byte written bit field by bit field, ModRM or SIB: two bits, three bits, three bits (R101, R102). -/
def byte233 (a : BitVec 2) (b c : BitVec 3) : Byte := a ++ (b ++ c)

/-- The four bytes of a disp32, little-endian (R80). -/
def disp32Bytes (d : BitVec 32) : List Byte :=
  [d.extractLsb' 0 8, d.extractLsb' 8 8, d.extractLsb' 16 8, d.extractLsb' 24 8]

/-- `ModRM.mod` of a memory operand with this displacement (R103). -/
def Disp.mod : Disp → BitVec 2
  | .none => 0#2
  | .disp8 _ => 1#2
  | .disp32 _ => 2#2

/-- The displacement bytes (R103). -/
def Disp.bytes : Disp → List Byte
  | .none => []
  | .disp8 d => [d]
  | .disp32 d => disp32Bytes d

/-- The SIB byte; no index is index number 0100b, written with scale 0 (R102). -/
def sibByte (i : Option Index) (base : BitVec 3) : Byte :=
  match i with
  | none => byte233 0#2 4#3 base
  | some i => byte233 i.scale (low3 i.reg) base

/-- ModRM, SIB and displacement of a memory operand (R55, R101-R103). -/
def MemAddr.bytes (reg : BitVec 3) : MemAddr → List Byte
  | .base r d => byte233 d.mod reg (low3 r) :: d.bytes
  | .sib b i d => byte233 d.mod reg 4#3 :: sibByte i (low3 b) :: d.bytes
  | .sibNoBase i d => byte233 0#2 reg 4#3 :: sibByte i 5#3 :: disp32Bytes d
  | .ripRelative d => byte233 0#2 reg 5#3 :: disp32Bytes d

/-- Bit 3 of the index register's number (`X`, not inverted); 0 where there is no index. -/
def indexBit : Option Index → Bool
  | none => false
  | some i => i.reg.getLsbD 3

/-- `X` of a memory operand, not inverted. -/
def MemAddr.xBit : MemAddr → Bool
  | .base _ _ => false
  | .sib _ i _ => indexBit i
  | .sibNoBase i _ => indexBit i
  | .ripRelative _ => false

/-- `B` of a memory operand, not inverted: bit 3 of the base register's number. -/
def MemAddr.bBit : MemAddr → Bool
  | .base r _ => r.getLsbD 3
  | .sib b _ _ => b.getLsbD 3
  | .sibNoBase _ _ => false
  | .ripRelative _ => false

/-- The opcode byte (R100). -/
def Kind.opcode : Kind → Byte
  | .k132 => 0x9C#8
  | .k213 => 0xAC#8
  | .k231 => 0xBC#8

/-- `EVEX.RC` (R94). -/
def Rounding.bits : Rounding → BitVec 2
  | .nearest => 0#2
  | .down => 1#2
  | .up => 2#2
  | .toZero => 3#2

/-- `EVEX.aaa` of a mask register (R95). -/
def MaskReg.bits : MaskReg → BitVec 3
  | .k1 => 1#3
  | .k2 => 2#3
  | .k3 => 3#3
  | .k4 => 4#3
  | .k5 => 5#3
  | .k6 => 6#3
  | .k7 => 7#3

/-- `EVEX.z` (R95). -/
def Masking.z : Masking → Bool
  | .zeroing _ => true
  | .merging _ => false
  | .unmasked => false

/-- `EVEX.aaa` (R95). -/
def Masking.aaa : Masking → BitVec 3
  | .unmasked => 0#3
  | .merging k => k.bits
  | .zeroing k => k.bits

/-- `EVEX.L'L` as a vector length (R93). -/
def EvexLength.bits : EvexLength → BitVec 2
  | .l128 => 0#2
  | .l256 => 1#2
  | .l512 => 2#2

/-- `X` of a VEX operand 3, not inverted. -/
def VexOp3.xBit : VexOp3 → Bool
  | .reg _ => false
  | .mem m => m.xBit

/-- `B` of a VEX operand 3, not inverted (R81). -/
def VexOp3.bBit : VexOp3 → Bool
  | .reg r => r.getLsbD 3
  | .mem m => m.bBit

/-- ModRM and what follows it, for a VEX form. -/
def VexOp3.bytes (reg : BitVec 3) : VexOp3 → List Byte
  | .reg r => [byte233 3#2 reg (low3 r)]
  | .mem m => m.bytes reg

/-- VEX byte 1: inverted R, X, B, then mmmmm = 00010 (R81, R83). -/
def vexByte1 (r x b : Bool) : Byte :=
  BitVec.ofBool (!r) ++ (BitVec.ofBool (!x) ++ (BitVec.ofBool (!b) ++ 2#5))

/-- VEX byte 2: W = 1, inverted vvvv, L, pp = 01 (R81, R83, R84). -/
def vexByte2 (src2 : BitVec 4) (l : VexLength) : Byte :=
  1#1 ++ (~~~src2 ++ (BitVec.ofBool (l == .l256) ++ 1#2))

/-- The bytes of a VEX form (R80, R81, R100). -/
def encodeVex (k : Kind) (l : VexLength) (p : List LegacyPrefix) (dst src2 : BitVec 4) (op3 : VexOp3) : List Byte :=
  p.map LegacyPrefix.byte ++
    (0xC4#8 :: vexByte1 (dst.getLsbD 3) op3.xBit op3.bBit :: vexByte2 src2 l :: k.opcode :: op3.bytes (low3 dst))

/-- `X` of an EVEX operand 3, not inverted: bit 4 of a register's number, or bit 3 of the index register's (R90). -/
def EvexOp3.xBit : EvexOp3 → Bool
  | .reg r => r.getLsbD 4
  | .mem m => m.xBit
  | .broadcast m => m.xBit

/-- `B` of an EVEX operand 3, not inverted (R90). -/
def EvexOp3.bBit : EvexOp3 → Bool
  | .reg r => r.getLsbD 3
  | .mem m => m.bBit
  | .broadcast m => m.bBit

/-- `EVEX.b` of an operand 3 without embedded rounding (R94). -/
def EvexOp3.bcBit : EvexOp3 → Bool
  | .reg _ => false
  | .mem _ => false
  | .broadcast _ => true

/-- ModRM and what follows it, for an EVEX form. -/
def EvexOp3.bytes (reg : BitVec 3) : EvexOp3 → List Byte
  | .reg r => [byte233 3#2 reg (low3 r)]
  | .mem m => m.bytes reg
  | .broadcast m => m.bytes reg

/-- EVEX P0: inverted R, X, B, R', then 00, then mm = 10 (R90, R91). -/
def evexP0 (dst : BitVec 5) (x b : Bool) : Byte :=
  BitVec.ofBool (!dst.getLsbD 3) ++ (BitVec.ofBool (!x) ++ (BitVec.ofBool (!b) ++
    (BitVec.ofBool (!dst.getLsbD 4) ++ 2#4)))

/-- EVEX P1: W = 1, inverted vvvv, 1, pp = 01 (R90, R91). -/
def evexP1 (src2 : BitVec 5) : Byte := 1#1 ++ (~~~(src2.extractLsb' 0 4) ++ 5#3)

/-- EVEX P2: z, L'L, b, inverted V', aaa (R90). -/
def evexP2 (mask : Masking) (ll : BitVec 2) (bc : Bool) (src2 : BitVec 5) : Byte :=
  BitVec.ofBool mask.z ++ (ll ++ (BitVec.ofBool bc ++ (BitVec.ofBool (!src2.getLsbD 4) ++ mask.aaa)))

/-- The bytes of an EVEX form without embedded rounding (R80, R90, R100). -/
def encodeEvex (k : Kind) (l : EvexLength) (p : List LegacyPrefix) (mask : Masking) (dst src2 : BitVec 5)
    (op3 : EvexOp3) : List Byte :=
  p.map LegacyPrefix.byte ++
    (0x62#8 :: evexP0 dst op3.xBit op3.bBit :: evexP1 src2 :: evexP2 mask l.bits op3.bcBit src2 :: k.opcode ::
      op3.bytes (low3 dst))

/-- The bytes of an EVEX.512 form with embedded rounding: `b = 1`, `mod = 11`, `L'L` = RC (R94). -/
def encodeRounded (k : Kind) (p : List LegacyPrefix) (mask : Masking) (dst src2 r : BitVec 5) (rc : Rounding) :
    List Byte :=
  p.map LegacyPrefix.byte ++
    [0x62#8, evexP0 dst (r.getLsbD 4) (r.getLsbD 3), evexP1 src2, evexP2 mask rc.bits true src2, k.opcode,
      byte233 3#2 (low3 dst) (low3 r)]

/-- The bytes of an EVEX.512 form (R94). -/
def encodeEvex512 (k : Kind) (p : List LegacyPrefix) (mask : Masking) (dst src2 : BitVec 5) : EvexOp3Er → List Byte
  | .plain o => encodeEvex k .l512 p mask dst src2 o
  | .rounded r rc => encodeRounded k p mask dst src2 r rc

/-- The bytes of an instruction, lowest address first. A bit that the decoder ignores is written as no extension. -/
def encode : Instr → List Byte
  | .vfnmadd132pdXmmVex p dst src2 op3 => encodeVex .k132 .l128 p dst src2 op3
  | .vfnmadd213pdXmmVex p dst src2 op3 => encodeVex .k213 .l128 p dst src2 op3
  | .vfnmadd231pdXmmVex p dst src2 op3 => encodeVex .k231 .l128 p dst src2 op3
  | .vfnmadd132pdYmmVex p dst src2 op3 => encodeVex .k132 .l256 p dst src2 op3
  | .vfnmadd213pdYmmVex p dst src2 op3 => encodeVex .k213 .l256 p dst src2 op3
  | .vfnmadd231pdYmmVex p dst src2 op3 => encodeVex .k231 .l256 p dst src2 op3
  | .vfnmadd132pdXmmEvex p mask dst src2 op3 => encodeEvex .k132 .l128 p mask dst src2 op3
  | .vfnmadd213pdXmmEvex p mask dst src2 op3 => encodeEvex .k213 .l128 p mask dst src2 op3
  | .vfnmadd231pdXmmEvex p mask dst src2 op3 => encodeEvex .k231 .l128 p mask dst src2 op3
  | .vfnmadd132pdYmmEvex p mask dst src2 op3 => encodeEvex .k132 .l256 p mask dst src2 op3
  | .vfnmadd213pdYmmEvex p mask dst src2 op3 => encodeEvex .k213 .l256 p mask dst src2 op3
  | .vfnmadd231pdYmmEvex p mask dst src2 op3 => encodeEvex .k231 .l256 p mask dst src2 op3
  | .vfnmadd132pdZmmEvex p mask dst src2 op3 => encodeEvex512 .k132 p mask dst src2 op3
  | .vfnmadd213pdZmmEvex p mask dst src2 op3 => encodeEvex512 .k213 p mask dst src2 op3
  | .vfnmadd231pdZmmEvex p mask dst src2 op3 => encodeEvex512 .k231 p mask dst src2 op3

/-! ## The opcode table's words -/

/-- The `n` low bytes of `w`, lowest first. -/
def bytesOfNat : Nat → Nat → List Byte
  | 0, _ => []
  | n + 1, w => BitVec.ofNat 8 w :: bytesOfNat n (w / 256)

/-- The bytes of an instruction given as a table word: the `nbits` low bits of `w`, lowest byte first, then zeros up
to the longest instruction. -/
def tableBytes (nbits w : Nat) : List Byte := bytesOfNat maxInstrLength (w % 2 ^ nbits)

/-- The instruction that the decoder reads from a table word; none where it refuses. -/
def decodeTableWord (nbits w : Nat) : Option Instr :=
  match decode (tableBytes nbits w) with
  | .instr i _ => some i
  | .illegal _ => none
  | .other _ => none
  | .tooLong => none
  | .truncated => none

end Sys2Proof
end

