-- ==== Sys2Proof/Config.lean ====
section
/-! DEFINITION. What an implementation or a platform fixes (00_scope.md R8), and the free values: constants with no
body, of which Lean can evaluate nothing and prove no value. -/

namespace Sys2Proof

/-- `ADDR_BITS`: 48 or 57 implemented linear-address bits (R8, R62; 92_eei_decisions.md D14). -/
inductive LinearWidth where
  | bits48
  | bits57
deriving DecidableEq, Repr

/-- The constants of a processor (R8, R35): the three CPUID feature flags of the opcode table and `ADDR_BITS`.
They are open parameters of the spec; the model carries them in the state and no step changes them (log 5). -/
structure Cpu where
  hasFMA : Bool
  hasAVX512F : Bool
  hasAVX512VL : Bool
  linearWidth : LinearWidth
deriving DecidableEq, Repr

/-- `MAXVL`: 512 when `HAS_AVX512F`, else 256 (R8; 92_eei_decisions.md D2). -/
def Cpu.maxvl (c : Cpu) : Nat := if c.hasAVX512F then 512 else 256

/-- The default value of every parameter of R8. -/
def Cpu.default : Cpu :=
  { hasFMA := true, hasAVX512F := true, hasAVX512VL := true, linearWidth := .bits48 }

/-- One piece of the platform's predicate `Accessible(la, n, cpl)` (R8, R63, R67; 92_eei_decisions.md D6, D17): at the
privilege levels listed, and at no other, the bytes `first` to `first + size - 1` may be read (`read`) and executed
(`exec`). A byte that no region grants is not accessible (log 4). -/
structure Region where
  first : Nat
  size : Nat
  read : Bool
  exec : Bool
  levels : List (BitVec 2)
deriving DecidableEq, Repr

/-- FREE VALUE (log 2). The processor signature that RDX holds after reset (R31, R39): the spec names it and gives no
number. -/
opaque Config.processorSignature : BitVec 32

/-- FREE VALUE (log 9). The flags MXCSR[5:0] gains when an unmasked SIMD floating-point condition meets
CR4.OSXMMEXCPT = 0: "any value for MXCSR[5:0] above the old flags" (92_eei_decisions.md D13; U10). Its argument is
the state's counter of free values. -/
opaque Config.freeFlags : Nat → BitVec 6

/-- FREE VALUE (log 10). The error code of a #PF, whose "full format" is "outside the sources and this spec" (R240).
Its arguments are the state's counter of free values and the faulting linear address. -/
opaque Config.pageFaultCode : Nat → Word → BitVec 32

/-- FREE VALUE (log 11). With alignment checking on, does a misaligned operand raise #AC? "Which of the memory forms
are subject to it is not in any source" (R54); "a model wanting alignment checking must take the #AC predicate as a
parameter" (92_eei_decisions.md D7; U11). Its arguments are the operand's size in bytes, its linear address and the
addresses of the accessed bytes. -/
opaque Config.alignmentFault : Nat → Word → List Word → Bool

end Sys2Proof
end

