-- ==== Sys2Proof/Machine/State.lean ====
section
/-! DEFINITION. The machine's state as plain data (10_state.md R20, R39), the reasons a step can stop, and the state
after reset. Memory is a list of cells in one canonical form (`Memory.wf` in Ops.lean). -/

namespace Sys2Proof.Machine

/-- Memory (R50, R60): cells at strictly rising addresses, none equal to what an unlisted address reads as. -/
abbrev Memory := List Host.Cell

/-- Everything the spec gives the machine (R20), under the names of R20, R34 and R39. The widths of CR0, CR2, CR4, XCR0,
EFER and the CS base (64 bits), of the CS selector (16) and of CPL (2) are in no rule: PRESUMED (log 21). -/
structure State where
  /-- `Z[0..31]` (R21) -/
  vec : Vector Vec 32
  /-- `K[0..7]` (R24) -/
  opmask : Vector Word 8
  /-- MXCSR (R27) -/
  mxcsr : BitVec 32
  /-- RIP (R30) -/
  rip : Word
  /-- `x[0..15]`: RAX RCX RDX RBX RSP RBP RSI RDI R8 .. R15 (R31) -/
  gpr : Vector Word 16
  /-- FS.base (R32) -/
  fsBase : Word
  /-- GS.base (R32) -/
  gsBase : Word
  /-- RFLAGS (R33) -/
  rflags : Word
  /-- CR0 (R34) -/
  cr0 : Word
  /-- CR2, the faulting linear address of a #PF (R63, R240) -/
  cr2 : Word
  /-- CR4 (R34) -/
  cr4 : Word
  /-- XCR0 (R34) -/
  xcr0 : Word
  /-- EFER (R34, R39) -/
  efer : Word
  /-- the CS selector (R270) -/
  csSelector : BitVec 16
  /-- the CS base, 0 for every access in 64-bit mode (R32, R39) -/
  csBase : Word
  /-- CS.L (R34) -/
  csL : Bool
  /-- CPL (R20, R36) -/
  cpl : BitVec 2
  /-- the bytes of memory (R50) -/
  mem : Memory
  /-- the platform's predicate `Accessible` (R63, R67) -/
  access : List Region
  /-- the processor's constants (R8, R35) -/
  cpu : Cpu
  /-- the model's own: how many free values have been used (log 9) -/
  freeCount : Nat
deriving DecidableEq, Repr

/-- The exceptions these instructions can raise: the table of R230. -/
inductive Exception where
  /-- #UD, vector 6 (R234-R236, R242) -/
  | invalidOpcode
  /-- #NM, vector 7 (R237) -/
  | deviceNotAvailable
  /-- #SS, vector 12 (R238) -/
  | stackSegment
  /-- #GP, vector 13 (R110, R239) -/
  | generalProtection
  /-- #PF, vector 14 (R240) -/
  | pageFault
  /-- #AC, vector 17 (R241) -/
  | alignmentCheck
  /-- #XM, vector 19 (R242) -/
  | simdFloatingPoint
deriving DecidableEq, Repr

/-- What `raise` reports (R250): `Fault(vector, error code, faulting RIP, CR2 for #PF)`. No rule gives the error code's
width: 32 bits (PRESUMED, log 10). -/
structure Report where
  exception : Exception
  /-- the vector number of R230 -/
  vector : Nat
  /-- the error code; none for the exceptions that have none (R230) -/
  errorCode : Option (BitVec 32)
  /-- the address of the first byte of the faulting instruction (R249) -/
  rip : Word
  /-- the faulting linear address, for #PF only (R240) -/
  cr2 : Option Word
deriving DecidableEq, Repr

/-- Why a run ends in a fault. -/
inductive Fault where
  /-- An exception of R230, raised by `raise` alone, for a gate, a memory operand, a fetch, an illegal encoding or
  `signal` of a SIMD condition: "the instruction ends, the state is as rule R249 says, and the run ends" (R250;
  92_eei_decisions.md D9). `left` is that state. Safe: it is the outcome the spec defines, with all it leaves. -/
  | exception (report : Report) (left : State)
deriving DecidableEq, Repr

/-- Why the model answers nothing. -/
inductive Refusal where
  /-- An instruction whose meaning is not written. No arm of `exec` answers it in this model. Safe. -/
  | notModelled (mnemonic : String)
  /-- `Refused(RIP)` of R256: the bytes at RIP are neither one of the fifteen encodings nor a #UD pattern of the
  spec. Raised by the fetch. Safe: the machine may do anything there. -/
  | notOfThisSpec (rip : Word)
  /-- A mode that is neither 64-bit nor real-address nor virtual-8086: "a run in them is `Refused`"
  (92_eei_decisions.md D1; U5). Raised by the fetch and by the gate of every instruction. Safe. -/
  | modeNotModelled (rip : Word)
deriving DecidableEq, Repr

/-- The outcome of a step. -/
abbrev Result := Host.Outcome State Fault Refusal

/-- The general registers after RESET and INIT: 0 but for RDX, the processor signature (R31, R39; log 2). -/
def resetGpr : Vector Word 16 :=
  (Vector.replicate 16 0#64).set 2 (Config.processorSignature.setWidth 64)

/-- The machine right after power-up or RESET: the RESET column of R39, with CS of R270, the parameters of R8 at
their defaults and the whole address space accessible (logs 1-5). -/
def State.reset : State :=
  { vec := Vector.replicate 32 0#512
    opmask := Vector.replicate 8 0#64
    mxcsr := 0x1F80#32
    rip := 0xFFF0#64
    gpr := resetGpr
    fsBase := 0#64
    gsBase := 0#64
    rflags := 2#64
    cr0 := 0x60000010#64
    cr2 := 0#64
    cr4 := 0#64
    xcr0 := 1#64
    efer := 0#64
    csSelector := 0xF000#16
    csBase := 0xFFFF0000#64
    csL := false
    cpl := 0#2
    mem := []
    access := [{ first := 0, size := 2 ^ 64, read := true, exec := true, levels := [0#2, 1#2, 2#2, 3#2] }]
    cpu := Cpu.default
    freeCount := 0 }

end Sys2Proof.Machine
end

