-- ==== Sys2Proof/Machine/Ops.lean ====
section
/-! DEFINITION. The named operations: memory, registers, control bits and mode, canonical and accessible addresses,
raising an exception, the gate every instruction passes, the INIT event. -/

namespace Sys2Proof.Machine

/-! ## Memory (R50, R51) -/

/-- What an address that memory does not list reads as. The spec leaves the contents open (R39, R271) and its own
vectors start from zeros (95_test_vectors.md sections 3 and 5). DESIGN CHOICE, log 3. -/
def unlistedByte : Byte := 0#8

/-- The byte at an address. -/
def memGet : Memory → Nat → Byte
  | [], _ => unlistedByte
  | (a, v) :: m, x => if a = x then v else memGet m x

/-- Memory with one byte written, in canonical form again. No instruction stores (R68); what is placed from outside
the machine goes through here. -/
def memSet : Memory → Nat → Byte → Memory
  | [], x, v => if v = unlistedByte then [] else [(x, v)]
  | (a, w) :: m, x, v =>
    if x < a then (if v = unlistedByte then (a, w) :: m else (x, v) :: (a, w) :: m)
    else if x = a then (if v = unlistedByte then m else (x, v) :: m)
    else (a, w) :: memSet m x v

/-- Every address of a memory is at least `n`, addresses strictly rise, and no entry is what an unlisted address
reads as. -/
def memAbove : Nat → Memory → Bool
  | _, [] => true
  | n, (a, v) :: m => decide (n ≤ a) && decide (a < 2 ^ 64) && v != unlistedByte && memAbove (a + 1) m

/-- The canonical form of a memory. -/
def Memory.wf (m : Memory) : Bool := memAbove 0 m

/-- The byte at a linear address (R50). -/
def readByte (s : State) (a : Word) : Byte := memGet s.mem a.toNat

/-- `MemRead(a, 8)` without its checks: eight bytes, the least significant at `a` (R51). -/
def readWord (s : State) (a : Word) : Word :=
  readByte s (a + 7) ++ (readByte s (a + 6) ++ (readByte s (a + 5) ++ (readByte s (a + 4) ++
    (readByte s (a + 3) ++ (readByte s (a + 2) ++ (readByte s (a + 1) ++ readByte s a))))))

/-- Place bytes from outside the machine at consecutive addresses. -/
def placeBytes (m : Memory) (a : Word) : List Byte → Memory
  | [] => m
  | b :: bs => placeBytes (memSet m a.toNat b) (a + 1) bs

/-! ## Registers (R10, R22, R31) -/

/-- `Z[i]` (R10). -/
def readVec (s : State) (r : BitVec 5) : Vec := s.vec[r.toNat]'r.isLt

/-- `Z[i] <- v` (R10): all bits of the register. -/
def writeVec (s : State) (r : BitVec 5) (v : Vec) : State := { s with vec := s.vec.set r.toNat v r.isLt }

/-- `x[i]` (R31). -/
def readGpr (s : State) (r : BitVec 4) : Word := s.gpr[r.toNat]'r.isLt

/-- `K[i]` (R24). -/
def readOpmask (s : State) (k : BitVec 3) : Word := s.opmask[k.toNat]'k.isLt

/-- A VEX register number 0..15 as a number of the one file of vector registers (R21). -/
def vexReg (r : BitVec 4) : BitVec 5 := r.setWidth 5

/-! ## Lanes (R15, R51) -/

/-- Lane `j`: bits `64*j+63 : 64*j` (R15). -/
def lane (v : Vec) (j : Nat) : Word := v.extractLsb' (64 * j) 64

/-- The vector whose lanes are the list, lane 0 first, and whose bits above them are 0. -/
def packLanes : List Word → Vec
  | [] => 0#512
  | w :: ws => packLanes ws <<< 64 ||| w.setWidth 512

/-! ## Control bits (R33, R34) -/

/-- CR0.PE. -/
def cr0PE (s : State) : Bool := s.cr0.getLsbD 0

/-- CR0.TS. -/
def cr0TS (s : State) : Bool := s.cr0.getLsbD 3

/-- CR0.AM. -/
def cr0AM (s : State) : Bool := s.cr0.getLsbD 18

/-- CR4.OSXMMEXCPT. -/
def cr4OSXMMEXCPT (s : State) : Bool := s.cr4.getLsbD 10

/-- CR4.OSXSAVE. -/
def cr4OSXSAVE (s : State) : Bool := s.cr4.getLsbD 18

/-- RFLAGS.AC. -/
def rflagsAC (s : State) : Bool := s.rflags.getLsbD 18

/-- RFLAGS.VM, bit 17 (PRESUMED, log 6). -/
def rflagsVM (s : State) : Bool := s.rflags.getLsbD 17

/-- EFER.LMA, bit 10 (PRESUMED, log 6). -/
def eferLMA (s : State) : Bool := s.efer.getLsbD 10

/-- XCR0[2:1] = 11b: SSE and AVX state enabled (R34, R234(c)). -/
def xcr0Avx (s : State) : Bool := s.xcr0.getLsbD 1 && s.xcr0.getLsbD 2

/-- XCR0[7:5] = 111b: opmask, ZMM_Hi256 and Hi16_ZMM state enabled (R34, R235(a)). -/
def xcr0Avx512 (s : State) : Bool := s.xcr0.getLsbD 5 && s.xcr0.getLsbD 6 && s.xcr0.getLsbD 7

/-- The operating modes as far as the spec tells them apart (R8, R34, R123). -/
inductive Mode where
  | realAddress
  | virtual8086
  | long64
  /-- protected 16/32-bit and compatibility mode: not modelled (92_eei_decisions.md D1) -/
  | otherProtected
deriving DecidableEq, Repr

/-- The mode of a state: CR0.PE = 0 is real-address mode, EFER.LMA = CS.L = 1 is 64-bit mode (R34); virtual-8086 mode
is RFLAGS.VM = 1 outside long mode (PRESUMED, log 6). -/
def modeOf (s : State) : Mode :=
  if cr0PE s = false then .realAddress
  else if eferLMA s && s.csL then .long64
  else if rflagsVM s && !eferLMA s then .virtual8086
  else .otherProtected

/-- `ALIGN_CHECK`: CR0.AM = 1, RFLAGS.AC = 1 and CPL = 3 (R8, R34, R54). The launch premise has it false. -/
def alignCheckOn (s : State) : Bool := cr0AM s && rflagsAC s && s.cpl == 3#2

/-! ## Addresses (R62, R63) -/

/-- `ADDR_BITS` (R8). -/
def addrBits : LinearWidth → Nat
  | .bits48 => 48
  | .bits57 => 57

/-- Canonical: bits 63 : `ADDR_BITS`-1 are all equal (R62). -/
def canonical (w : LinearWidth) (a : Word) : Bool :=
  a.sshiftRight (addrBits w - 1) == 0#64 || a.sshiftRight (addrBits w - 1) == BitVec.allOnes 64

/-- The region holds the address and is open to the privilege level. -/
def regionCovers (r : Region) (cpl : BitVec 2) (a : Word) : Bool :=
  decide (r.first ≤ a.toNat) && decide (a.toNat < r.first + r.size) && r.levels.contains cpl

/-- `Accessible(a, 1, CPL)` for a data read (R63). -/
def readable (s : State) (a : Word) : Bool := s.access.any fun r => r.read && regionCovers r s.cpl a

/-- `Accessible(a, 1, CPL)` for an instruction fetch: execute permission (R67; 92_eei_decisions.md D17). -/
def executable (s : State) (a : Word) : Bool := s.access.any fun r => r.exec && regionCovers r s.cpl a

/-! ## Raising an exception (R230, R249, R250) -/

/-- The vector number (R230). -/
def vectorOf : Exception → Nat
  | .invalidOpcode => 6
  | .deviceNotAvailable => 7
  | .stackSegment => 12
  | .generalProtection => 13
  | .pageFault => 14
  | .alignmentCheck => 17
  | .simdFloatingPoint => 19

/-- `raise <Exception>(info)` (R250): the run ends with the report, RIP still at the instruction's first byte, and
the state `left` of R249. Delivery through the IDT, the handler and the return from it are outside the spec's scope
(00_scope.md R7(b); R251, R252; log 8). -/
def raise (e : Exception) (errorCode : Option (BitVec 32)) (cr2 : Option Word) (left : State) : Result :=
  .fault (.exception
    { exception := e, vector := vectorOf e, errorCode := errorCode, rip := left.rip, cr2 := cr2 } left)

/-- #UD, no error code, nothing changed (R230, R234-R236). -/
def raiseUD (s : State) : Result := raise .invalidOpcode none none s

/-- #NM, no error code, nothing changed (R230, R237). -/
def raiseNM (s : State) : Result := raise .deviceNotAvailable none none s

/-- #SS(0), nothing changed (R230, R238). -/
def raiseSS (s : State) : Result := raise .stackSegment (some 0#32) none s

/-- #GP(0), nothing changed (R230, R239). -/
def raiseGP (s : State) : Result := raise .generalProtection (some 0#32) none s

/-- #AC(0), nothing changed (R230, R241). -/
def raiseAC (s : State) : Result := raise .alignmentCheck (some 0#32) none s

/-- The error code of a #PF: a free value, but that the access is no write (W/R, bit 1, is 0) and that U/S, bit 2,
tells whether CPL is 3 (R240; the bit places PRESUMED, log 10). -/
def pageFaultCode (s : State) (a : Word) : BitVec 32 :=
  Config.pageFaultCode s.freeCount a &&& ~~~6#32 ||| (if s.cpl = 3#2 then 4#32 else 0#32)

/-- #PF(fault-code): CR2 receives the faulting linear address (R240). -/
def raisePF (s : State) (a : Word) : Result :=
  raise .pageFault (some (pageFaultCode s a)) (some a) { s with cr2 := a, freeCount := s.freeCount + 1 }

/-! ## The gate every instruction passes (R234-R237, R243) -/

/-- The conditions on the machine that come before any memory access: the mode (R34, R123, 92_eei_decisions.md D1),
CR4.OSXSAVE, XCR0, the row's feature flags (`feature`, R236), and for EVEX forms XCR0[7:5] give #UD (R234, R235);
then CR0.TS gives #NM (R237). `none`: the instruction goes on. -/
def gate (s : State) (evex feature : Bool) : Option Result :=
  match modeOf s with
  | .otherProtected => some (.refused (.modeNotModelled s.rip))
  | .realAddress => some (raiseUD s)
  | .virtual8086 => some (raiseUD s)
  | .long64 =>
    if cr4OSXSAVE s && xcr0Avx s && (!evex || xcr0Avx512 s) && feature then
      (if cr0TS s then some (raiseNM s) else none)
    else some (raiseUD s)

/-! ## The INIT event (R39) -/

/-- What INIT leaves: the INIT column of R39. No step of the model takes it (92_eei_decisions.md D5; log 18). CR0 is
as after RESET but that CD and NW keep their values; their places, bits 30 and 29, are PRESUMED (log 6). CR2, the CS
selector, CS.L and CPL, of which R39's INIT column says nothing, are as after RESET: 0, F000h, 0 and 0 (PRESUMED,
log 1). -/
def State.afterInit (s : State) : State :=
  { s with
    rip := 0xFFF0#64
    gpr := resetGpr
    fsBase := 0#64
    gsBase := 0#64
    rflags := 2#64
    cr0 := 0x10#64 ||| (s.cr0 &&& 0x60000000#64)
    cr2 := 0#64
    cr4 := 0#64
    efer := 0#64
    csSelector := 0xF000#16
    csBase := 0xFFFF0000#64
    csL := false
    cpl := 0#2 }

/-! ## The launch state (R273) -/

/-- The state brought to the launch premise of R273: 64-bit mode, CR0.PE = 1, TS = AM = 0, CR4.OSXSAVE = OSXMMEXCPT =
1, XCR0 = E7h at least, the three feature flags. Everything else is an input and stays (log 16). -/
def State.launch (s : State) : State :=
  { s with
    cr0 := (s.cr0 ||| 1#64) &&& ~~~0x40008#64
    cr4 := s.cr4 ||| 0x40400#64
    xcr0 := s.xcr0 ||| 0xE7#64
    efer := s.efer ||| 0x400#64
    csL := true
    cpu := { s.cpu with hasFMA := true, hasAVX512F := true, hasAVX512VL := true } }

end Sys2Proof.Machine
end

