-- ==== Sys2Proof/Machine/Flags.lean ====
section
/-! DEFINITION. MXCSR and its fields (10_state.md R27), the flag set of a lane, and the reporting of SIMD
floating-point conditions, `SignalFP` (60_exceptions.md R242-R247). -/

namespace Sys2Proof.Machine

/-! ## MXCSR (R27) -/

/-- DAZ, bit 6. -/
def mxDAZ (m : BitVec 32) : Bool := m.getLsbD 6
/-- IM, bit 7. -/
def mxIM (m : BitVec 32) : Bool := m.getLsbD 7
/-- DM, bit 8. -/
def mxDM (m : BitVec 32) : Bool := m.getLsbD 8
/-- OM, bit 10. -/
def mxOM (m : BitVec 32) : Bool := m.getLsbD 10
/-- UM, bit 11. -/
def mxUM (m : BitVec 32) : Bool := m.getLsbD 11
/-- PM, bit 12. -/
def mxPM (m : BitVec 32) : Bool := m.getLsbD 12
/-- FTZ, bit 15. -/
def mxFTZ (m : BitVec 32) : Bool := m.getLsbD 15
/-- RC, bits 14:13; the sources' `MXCSR.RM` (90_conflicts.md C6). -/
def mxRC (m : BitVec 32) : Rounding := .ofBits (m.extractLsb' 13 2)

/-! ## Flag sets -/

/-- A subset of {IE, DE, OE, UE, PE}, the conditions a lane can report (R130, R231); divide-by-zero cannot occur. -/
structure FpFlags where
  ie : Bool
  de : Bool
  oe : Bool
  ue : Bool
  pe : Bool
deriving DecidableEq, Repr

/-- No flag. -/
def FpFlags.none : FpFlags := { ie := false, de := false, oe := false, ue := false, pe := false }

/-- Union of two flag sets. -/
def FpFlags.union (f g : FpFlags) : FpFlags :=
  { ie := f.ie || g.ie, de := f.de || g.de, oe := f.oe || g.oe, ue := f.ue || g.ue, pe := f.pe || g.pe }

/-- Union of the flag sets of all lanes (R244). -/
def unionFlags (l : List FpFlags) : FpFlags := l.foldr FpFlags.union .none

/-- The pre-computation conditions of a flag set: IE and DE (R148, R244). -/
def FpFlags.pre (f : FpFlags) : FpFlags := { FpFlags.none with ie := f.ie, de := f.de }

/-- The post-computation conditions of a flag set: OE, UE and PE (R148, R244). -/
def FpFlags.post (f : FpFlags) : FpFlags := { FpFlags.none with oe := f.oe, ue := f.ue, pe := f.pe }

/-- One bit of a 32-bit register. -/
def flagBit (b : Bool) (n : Nat) : BitVec 32 := if b then 1#32 <<< n else 0#32

/-- `bits(f)`: a flag set at the places of MXCSR[5:0], IE 0, DE 1, OE 3, UE 4, PE 5 (R27, R244). -/
def FpFlags.bits (f : FpFlags) : BitVec 32 :=
  flagBit f.ie 0 ||| flagBit f.de 1 ||| flagBit f.oe 3 ||| flagBit f.ue 4 ||| flagBit f.pe 5

/-- Some flag of the set has mask bit 0 in MXCSR (R244). -/
def unmasked (m : BitVec 32) (f : FpFlags) : Bool :=
  (f.ie && !mxIM m) || (f.de && !mxDM m) || (f.oe && !mxOM m) || (f.ue && !mxUM m) || (f.pe && !mxPM m)

/-! ## SignalFP (R244) -/

/-- `SignalFP` on MXCSR: the new MXCSR, and whether a condition is unmasked. The pre-computation conditions of all
lanes come first; if one is unmasked the post-computation flags are not set (R244). -/
def signalFP (m : BitVec 32) (lanes : List FpFlags) : BitVec 32 × Bool :=
  if unmasked m (unionFlags lanes).pre then (m ||| (unionFlags lanes).pre.bits, true)
  else (m ||| (unionFlags lanes).pre.bits ||| (unionFlags lanes).post.bits, unmasked m (unionFlags lanes).post)

/-- The exception of an unmasked condition (R242): #XM with the flags of R244 left in MXCSR, or, with
CR4.OSXMMEXCPT = 0, #UD with MXCSR[5:0] any value above the old flags (92_eei_decisions.md D13; U10; log 9). -/
def raiseXM (s : State) (mxcsr : BitVec 32) : Result :=
  if cr4OSXMMEXCPT s then raise .simdFloatingPoint none none { s with mxcsr := mxcsr }
  else raiseUD { s with
    mxcsr := s.mxcsr ||| (Config.freeFlags s.freeCount).setWidth 32
    freeCount := s.freeCount + 1 }

end Sys2Proof.Machine
end

