-- ==== Sys2Proof/Machine/Lane.lean ====
section
/-! DEFINITION. The lane arithmetic, `fnmadd64` (40_lane_arithmetic.md R130-R149): -(x*y)+z on one binary64 element
with one rounding. Exact values are integers counted in units of 2^-2148, the smallest exponent that a product of two
binary64 values can have; powers of two below are powers of that unit's multiples. -/

namespace Sys2Proof.Machine

/-! ## The format (R133) -/

/-- The sign, bit 63. -/
def signBit (x : Word) : Bool := x.getLsbD 63

/-- The biased exponent, bits 62:52. -/
def expField (x : Word) : Nat := (x.extractLsb' 52 11).toNat

/-- The fraction, bits 51:0. -/
def fracField (x : Word) : Nat := (x.extractLsb' 0 52).toNat

/-- A zero of either sign. -/
def isZero (x : Word) : Bool := expField x == 0 && fracField x == 0

/-- A denormal. -/
def isDenormal (x : Word) : Bool := expField x == 0 && fracField x != 0

/-- An infinity. -/
def isInf (x : Word) : Bool := expField x == 2047 && fracField x == 0

/-- A NaN, quiet or signalling. -/
def isNaN (x : Word) : Bool := expField x == 2047 && fracField x != 0

/-- A signalling NaN: bit 51 is 0. -/
def isSNaN (x : Word) : Bool := isNaN x && !x.getLsbD 51

/-- The QNaN floating-point indefinite. -/
def indefinite : Word := 0xFFF8000000000000#64

/-- A value of 63 bits under a sign. -/
def withSign (s : Bool) (magnitude : Word) : Word :=
  if s then magnitude ||| 0x8000000000000000#64 else magnitude &&& 0x7FFFFFFFFFFFFFFF#64

/-- The magnitude of infinity. -/
def infMagnitude : Word := 0x7FF0000000000000#64

/-- The magnitude of the largest finite number. -/
def maxMagnitude : Word := 0x7FEFFFFFFFFFFFFF#64

/-- The significand of a finite value: fraction, with the implied 2^52 for a normal number. -/
def significand (x : Word) : Nat := if expField x = 0 then fracField x else 2 ^ 52 + fracField x

/-- The exponent of a finite value above the smallest: its value is `significand * 2 ^ (scaleExp - 1074)`. -/
def scaleExp (x : Word) : Nat := expField x - 1

/-- A magnitude under a sign, as an integer. -/
def signed (s : Bool) (m : Nat) : Int := if s then -(m : Int) else m

/-! ## NaN and DAZ -/

/-- DAZ: a denormal becomes the zero of its sign (R136). -/
def dazReplace (daz : Bool) (x : Word) : Word :=
  if daz && isDenormal x then x &&& 0x8000000000000000#64 else x

/-- A NaN made quiet: bit 51 set, all else kept (R137). -/
def quiet (x : Word) : Word := x ||| 0x0008000000000000#64

/-- The first NaN in the order x, y, z (R137). -/
def firstNaN (x y z : Word) : Word := if isNaN x then x else if isNaN y then y else z

/-! ## Rounding (R142) -/

/-- Does the magnitude of sign `s` round up from `lo = n * q` to `hi = (n + 1) * q`, `rem` being what it exceeds `lo`
by, not 0, and `q` the quantum (R142)? -/
def roundsUp (rc : Rounding) (s : Bool) (n rem q : Nat) : Bool :=
  match rc with
  | .nearest => decide (q < 2 * rem) || (decide (2 * rem = q) && n % 2 == 1)
  | .down => s
  | .up => !s
  | .toZero => false

/-- `round(m, 2^k, rc, s)`: the magnitude `m` of sign `s` rounded to a multiple of `2^k`, and whether it is inexact
(R142, R149). -/
def roundMag (m k : Nat) (rc : Rounding) (s : Bool) : Nat × Bool :=
  if m % 2 ^ k = 0 then (m, false)
  else ((m / 2 ^ k + if roundsUp rc s (m / 2 ^ k) (m % 2 ^ k) (2 ^ k) then 1 else 0) * 2 ^ k, true)

/-! ## Encoding (R149) -/

/-- 2^-1022, the smallest normal magnitude, in units of 2^-2148. -/
def minNormal : Nat := 2 ^ 1126

/-- 2^1024, the first magnitude beyond the format, in units of 2^-2148. -/
def overflowBound : Nat := 2 ^ 3172

/-- `enc(s, r)`: the binary64 value of sign `s` and representable magnitude `r`, in units of 2^-2148 (R149). A
magnitude up to 2^-1022 is its count of 2^-1074; a larger one has exponent field `log2 r - 1125`. -/
def enc (s : Bool) (r : Nat) : Word :=
  withSign s <| BitVec.ofNat 64 <|
    if r < minNormal then r / 2 ^ 1074
    else (r.log2 - 1125) * 2 ^ 52 + (r / 2 ^ (r.log2 - 52) - 2 ^ 52)

/-! ## The lane function (R149) -/

/-- What a lane delivers: a result, or none on an unmasked underflow or overflow, and its flags (R130). -/
structure LaneResult where
  result : Option Word
  flags : FpFlags
deriving DecidableEq, Repr

/-- The exact product `val(x) * val(y)`, negated, in units of 2^-2148 (R140). -/
def exactNegProduct (x y : Word) : Int :=
  signed (!(signBit x ^^ signBit y)) (significand x * significand y * 2 ^ (scaleExp x + scaleExp y))

/-- `val(z)` in units of 2^-2148 (R140). -/
def exactAddend (z : Word) : Int := signed (signBit z) (significand z * 2 ^ (scaleExp z + 1074))

/-- Does an overflow of sign `s` deliver the infinity (R145)? -/
def overflowsToInf (rc : Rounding) (s : Bool) : Bool :=
  match rc with
  | .nearest => true
  | .down => s
  | .up => !s
  | .toZero => false

/-- A nonzero exact value of sign `s` and magnitude `m`, in units of 2^-2148, rounded and delivered: rules R142
(53 bits, exponent unbounded), R143 (tiny), R144 (FTZ), R145 (overflow), R146. The quantum 2^(E-52) is `2^(log2 m -
52)` units; a magnitude of fewer than 53 bits is exact, which truncated subtraction gives. -/
def deliver (s : Bool) (m : Nat) (rc : Rounding) (ftz um om : Bool) (pre : FpFlags) : LaneResult :=
  let r := roundMag m (m.log2 - 52) rc s
  if r.1 < minNormal then
    if um = false then { result := none, flags := { pre with ue := true } }
    else if ftz then { result := some (withSign s 0#64), flags := { pre with ue := true, pe := true } }
    else
      let rd := roundMag m 1074 rc s
      { result := some (enc s rd.1), flags := if rd.2 then { pre with ue := true, pe := true } else pre }
  else if overflowBound ≤ r.1 then
    if om = false then { result := none, flags := { pre with oe := true } }
    else
      { result := some (withSign s (if overflowsToInf rc s then infMagnitude else maxMagnitude))
        flags := { pre with oe := true, pe := true } }
  else { result := some (enc s r.1), flags := if r.2 then { pre with pe := true } else pre }

/-- `t = P + Z` with all operands finite: an exact zero (R141), or `deliver`. `sp` is the sign attached to `P`. -/
def finiteSum (sp : Bool) (P Z : Int) (signZ : Bool) (rc : Rounding) (ftz um om : Bool) (pre : FpFlags) :
    LaneResult :=
  if P + Z = 0 then
    { result := some (withSign (if P = 0 ∧ Z = 0 ∧ sp = signZ then sp else rc == .down) 0#64), flags := pre }
  else deliver (decide (P + Z < 0)) (P + Z).natAbs rc ftz um om pre

/-- The lane function once DAZ has been applied (R149 from its second line on). -/
def fnmaddCore (x y z : Word) (rc : Rounding) (ftz um om : Bool) : LaneResult :=
  let sp := !(signBit x ^^ signBit y)
  let pre : FpFlags := { FpFlags.none with de := isDenormal x || isDenormal y || isDenormal z }
  if isNaN x || isNaN y || isNaN z then
    { result := some (quiet (firstNaN x y z))
      flags := { FpFlags.none with ie := isSNaN x || isSNaN y || isSNaN z } }
  else if (isInf x && isZero y) || (isZero x && isInf y) then
    { result := some indefinite, flags := { FpFlags.none with ie := true } }
  else if (isInf x || isInf y) && isInf z && signBit z != sp then
    { result := some indefinite, flags := { FpFlags.none with ie := true } }
  else if isInf x || isInf y then { result := some (withSign sp infMagnitude), flags := pre }
  else if isInf z then { result := some z, flags := pre }
  else finiteSum sp (exactNegProduct x y) (exactAddend z) (signBit z) rc ftz um om pre

/-- `fnmadd64(x, y, z, rc, daz, ftz, um, om)`: -(x*y)+z with one rounding (R149). -/
def fnmadd64 (x y z : Word) (rc : Rounding) (daz ftz um om : Bool) : LaneResult :=
  fnmaddCore (dazReplace daz x) (dazReplace daz y) (dazReplace daz z) rc ftz um om

end Sys2Proof.Machine
end

