-- ==== Sys2Proof/Machine/Operands.lean ====
section
/-! DEFINITION. Operand 3 and the write mask: effective and linear addresses (20_memory.md R55-R59), the elements an
instruction accesses (R61, R193), the checks of `MemRead` (R62-R64), and the active lanes (42_evex_forms.md R190). -/

namespace Sys2Proof.Machine

/-! ## Effective address (R55-R58) -/

/-- A displacement sign-extended to 64 bits, a disp8 multiplied by `n` (R55, R103, R108). -/
def dispValue (n : Nat) : Disp → Word
  | .none => 0#64
  | .disp8 d => d.signExtend 64 * BitVec.ofNat 64 n
  | .disp32 d => d.signExtend 64

/-- `index * scale`; 0 where there is no index (R55). -/
def indexValue (s : State) : Option Index → Word
  | none => 0#64
  | some i => readGpr s i.reg <<< i.scale.toNat

/-- `base + index * scale + disp` modulo 2^64 (R55); RIP-relative addressing counts from the next instruction (R56).
`n` is the factor of a disp8. -/
def rawAddress (s : State) (n ilen : Nat) : MemAddr → Word
  | .base r d => readGpr s r + dispValue n d
  | .sib b i d => readGpr s b + indexValue s i + dispValue n d
  | .sibNoBase i d => indexValue s i + d.signExtend 64
  | .ripRelative d => s.rip + BitVec.ofNat 64 ilen + d.signExtend 64

/-- EA: under a 67h prefix the sum modulo 2^32, zero-extended (R58). -/
def effectiveAddress (s : State) (p : List LegacyPrefix) (n ilen : Nat) (m : MemAddr) : Word :=
  if p.contains .addressSize then ((rawAddress s n ilen m).setWidth 32).setWidth 64 else rawAddress s n ilen m

/-! ## Segment and linear address (R57) -/

/-- The segment of an access, as far as it matters in 64-bit mode (R57). -/
inductive Segment where
  | fs
  | gs
  | ss
  | ds
deriving DecidableEq, Repr

/-- FS or GS by the later of the 64h and 65h prefixes, if there is one; the other segment prefixes are null (R57). -/
def segmentOverride : List LegacyPrefix → Option Segment
  | [] => none
  | q :: qs =>
    match segmentOverride qs with
    | some seg => some seg
    | none => if q = .fs then some .fs else if q = .gs then some .gs else none

/-- Is the base register general register 4 (RSP) or 5 (RBP)? R12 and R13 are not (R57). -/
def stackBase : MemAddr → Bool
  | .base r _ => r == 4#4 || r == 5#4
  | .sib b _ _ => b == 4#4 || b == 5#4
  | .sibNoBase _ _ => false
  | .ripRelative _ => false

/-- The segment of the access (R57). -/
def segmentOf (p : List LegacyPrefix) (m : MemAddr) : Segment :=
  match segmentOverride p with
  | some seg => seg
  | none => if stackBase m then .ss else .ds

/-- The base that the segment contributes: FS.base, GS.base, or 0 (R32, R57). -/
def segmentBase (s : State) : Segment → Word
  | .fs => s.fsBase
  | .gs => s.gsBase
  | .ss => 0#64
  | .ds => 0#64

/-- `LA = EA + segbase` modulo 2^64 (R57). -/
def linearAddress (s : State) (p : List LegacyPrefix) (n ilen : Nat) (m : MemAddr) : Word :=
  effectiveAddress s p n ilen m + segmentBase s (segmentOf p m)

/-! ## The checks of `MemRead` (R62-R64) -/

/-- The addresses of `n` consecutive bytes, modulo 2^64 (R59). -/
def byteAddresses (a : Word) (n : Nat) : List Word := (List.range n).map fun t => a + BitVec.ofNat 64 t

/-- The bytes of the accessed elements, each given by the address of its first byte (R51, R52). -/
def elementBytes (elements : List Word) : List Word := elements.flatMap fun e => byteAddresses e 8

/-- The lowest address of a list. -/
def lowest : List Word → Option Word
  | [] => none
  | a :: as =>
    match lowest as with
    | none => some a
    | some b => if a.toNat ≤ b.toNat then some a else some b

/-- The bytes of an element that are not accessible (R63). -/
def inaccessibleBytes (s : State) (e : Word) : List Word := (byteAddresses e 8).filter fun a => !readable s a

/-- The address that a #PF of the operand reports, if a byte is not accessible: of the lowest-addressed element with
such a byte, the lowest such byte (R64; 92_eei_decisions.md D8; an element is a lane also in the VEX forms, log 20). -/
def pageFaultAddress (s : State) (elements : List Word) : Option Word :=
  match lowest (elements.filter fun e => !(inaccessibleBytes s e).isEmpty) with
  | none => none
  | some e => lowest (inaccessibleBytes s e)

/-- The checks on the elements that one instruction accesses: a non-canonical byte gives #SS(0) or #GP(0) by the segment
(R62, R238, R239); then an inaccessible byte gives #PF (R63, R64, R240); then, with alignment checking on, a misaligned
operand of `size` bytes at `la` may give #AC (R54; log 11). `none`: all bytes can be read. -/
def memFault (s : State) (seg : Segment) (la : Word) (size : Nat) (elements : List Word) : Option Result :=
  if (elementBytes elements).any fun a => !canonical s.cpu.linearWidth a then
    some (if seg = .ss then raiseSS s else raiseGP s)
  else
    match pageFaultAddress s elements with
    | some a => some (raisePF s a)
    | none =>
      if alignCheckOn s && !elements.isEmpty && la.toNat % size != 0 &&
          Config.alignmentFault size la (elementBytes elements) then
        some (raiseAC s)
      else none

/-! ## The write mask (R24, R25, R190) -/

/-- The opmask register that a masking selects, as a lane predicate: a lane is active when there is no write mask or
the mask register's bit is 1 (R190). -/
def laneActive (s : State) : Masking → Nat → Bool
  | .unmasked, _ => true
  | .merging k, j => (readOpmask s k.bits).getLsbD j
  | .zeroing k, j => (readOpmask s k.bits).getLsbD j

/-- `*zeroing-masking*` (R190). -/
def isZeroing : Masking → Bool
  | .zeroing _ => true
  | .merging _ => false
  | .unmasked => false

/-- The accessed elements of a full-vector operand: lane `j`'s for every active `j` (R61, R193). -/
def vectorElements (la : Word) (kl : Nat) (active : Nat → Bool) : List Word :=
  ((List.range kl).filter active).map fun j => la + BitVec.ofNat 64 (8 * j)

/-- The accessed element of a broadcast operand: the one element, unless every lane is masked off (R61, R193). -/
def broadcastElements (la : Word) (kl : Nat) (active : Nat → Bool) : List Word :=
  if (List.range kl).any active then [la] else []

/-- Lane `j` of a full-vector memory operand (R51, R193). -/
def vectorElement (s : State) (la : Word) (j : Nat) : Word := readWord s (la + BitVec.ofNat 64 (8 * j))

end Sys2Proof.Machine
end

