-- ==== Sys2Proof/Machine/Packed.lean ====
section
/-! DEFINITION. The procedure every form executes through, `ExecPacked` (41_vex_forms.md R170), and the VEX and EVEX
forms over it (R171, R191-R197). -/

namespace Sys2Proof.Machine

/-- One lane: operands 1, 2, 3 take the roles of R134, and MXCSR.DAZ and FTZ apply (R170). -/
def laneResult (k : Kind) (m : BitVec 32) (rc : Rounding) (um om : Bool) (op1 op2 op3 : Word) : LaneResult :=
  match k with
  | .k132 => fnmadd64 op1 op3 op2 rc (mxDAZ m) (mxFTZ m) um om
  | .k213 => fnmadd64 op2 op1 op3 rc (mxDAZ m) (mxFTZ m) um om
  | .k231 => fnmadd64 op2 op3 op1 rc (mxDAZ m) (mxFTZ m) um om

/-- What `ExecPacked` takes besides the state (R170): `kind`, `KL`, `dst`, `s2`, operand 3 lane by lane, the active
lanes, `zmask`, the effective rounding control, `sae`, and `ilen`. -/
structure PackedOp where
  kind : Kind
  lanes : Nat
  dst : BitVec 5
  src2 : BitVec 5
  op3 : Nat → Word
  active : Nat → Bool
  zmask : Bool
  rc : Rounding
  sae : Bool
  ilen : Nat

/-- `(res_j, fl_j)` of lane `j`. Under SAE the lane is computed as if underflow and overflow were masked (R170,
R196). -/
def PackedOp.lane (o : PackedOp) (s : State) (j : Nat) : LaneResult :=
  laneResult o.kind s.mxcsr o.rc (o.sae || mxUM s.mxcsr) (o.sae || mxOM s.mxcsr)
    (Machine.lane (readVec s o.dst) j) (Machine.lane (readVec s o.src2) j) (o.op3 j)

/-- The flag sets of the active lanes (R170, R248). -/
def PackedOp.flags (o : PackedOp) (s : State) : List FpFlags :=
  ((List.range o.lanes).filter o.active).map fun j => (o.lane s j).flags

/-- `new_j`: the result of an active lane, 0 or the old lane of an inactive one (R170). A lane without a result makes
`SignalFP` raise, so the value written for it here reaches no register (log 15). -/
def PackedOp.newLane (o : PackedOp) (s : State) (j : Nat) : Word :=
  if o.active j then (o.lane s j).result.getD 0#64
  else if o.zmask then 0#64
  else Machine.lane (readVec s o.dst) j

/-- The value written to the destination: the new lanes, 0 above them (R170, R178, R197). -/
def PackedOp.newVec (o : PackedOp) (s : State) : Vec := packLanes ((List.range o.lanes).map (o.newLane s))

/-- Completion: the destination, MXCSR and RIP written, nothing else (R22, R28, R30, R170). -/
def PackedOp.complete (o : PackedOp) (s : State) (mxcsr : BitVec 32) : State :=
  { writeVec s o.dst (o.newVec s) with mxcsr := mxcsr, rip := s.rip + BitVec.ofNat 64 o.ilen }

/-- `ExecPacked` (R170). Under SAE `SignalFP` is not called (R247). -/
def execPacked (o : PackedOp) (s : State) : Result :=
  if o.sae then .next (o.complete s s.mxcsr)
  else if (signalFP s.mxcsr (o.flags s)).2 then raiseXM s (signalFP s.mxcsr (o.flags s)).1
  else .next (o.complete s (signalFP s.mxcsr (o.flags s)).1)

/-! ## VEX forms (R171, R180) -/

/-- `MAXNUM` (R171). -/
def vexLanes : VexLength → Nat
  | .l128 => 2
  | .l256 => 4

/-- The `ExecPacked` of a VEX form with operand 3 given lane by lane: every lane active, MXCSR.RC, no SAE (R171,
R180). -/
def vexOp (k : Kind) (l : VexLength) (dst src2 : BitVec 4) (op3 : Nat → Word) (ilen : Nat) (s : State) : PackedOp :=
  { kind := k, lanes := vexLanes l, dst := vexReg dst, src2 := vexReg src2, op3 := op3, active := fun _ => true
    zmask := false, rc := mxRC s.mxcsr, sae := false, ilen := ilen }

/-- A VEX form: the gate, then operand 3 from a register or from memory (R64), then `ExecPacked` (R171, R181). A disp8
is not scaled (R108). -/
def execVex (k : Kind) (l : VexLength) (p : List LegacyPrefix) (dst src2 : BitVec 4) (op3 : VexOp3) (s : State) :
    Result :=
  match gate s false s.cpu.hasFMA with
  | some stop => stop
  | none =>
    match op3 with
    | .reg r => execPacked (vexOp k l dst src2 (lane (readVec s (vexReg r))) (vexLength p op3) s) s
    | .mem m =>
      let la := linearAddress s p 1 (vexLength p op3) m
      match memFault s (segmentOf p m) la (8 * vexLanes l) (vectorElements la (vexLanes l) fun _ => true) with
      | some stop => stop
      | none => execPacked (vexOp k l dst src2 (vectorElement s la) (vexLength p op3) s) s

/-! ## EVEX forms (R191-R197) -/

/-- `KL` (R93). -/
def evexLanes : EvexLength → Nat
  | .l128 => 2
  | .l256 => 4
  | .l512 => 8

/-- The feature flags of a row: AVX512F, and AVX512VL below 512 bits (R2, R236). -/
def evexFeature (s : State) : EvexLength → Bool
  | .l128 => s.cpu.hasAVX512VL && s.cpu.hasAVX512F
  | .l256 => s.cpu.hasAVX512VL && s.cpu.hasAVX512F
  | .l512 => s.cpu.hasAVX512F

/-- The `ExecPacked` of an EVEX form without embedded rounding (R191, R192). -/
def evexOp (k : Kind) (l : EvexLength) (mask : Masking) (dst src2 : BitVec 5) (op3 : Nat → Word) (ilen : Nat)
    (s : State) : PackedOp :=
  { kind := k, lanes := evexLanes l, dst := dst, src2 := src2, op3 := op3, active := laneActive s mask
    zmask := isZeroing mask, rc := mxRC s.mxcsr, sae := false, ilen := ilen }

/-- An EVEX form without embedded rounding: the gate, operand 3 from a register (R191), from memory for the active
lanes, or broadcast (R192, R193), then `ExecPacked`. A disp8 is scaled by the operand's size, or by 8 for a broadcast
(R108). -/
def execEvex (k : Kind) (l : EvexLength) (p : List LegacyPrefix) (mask : Masking) (dst src2 : BitVec 5)
    (op3 : EvexOp3) (s : State) : Result :=
  match gate s true (evexFeature s l) with
  | some stop => stop
  | none =>
    let ilen := evexLength p (.plain op3)
    match op3 with
    | .reg r => execPacked (evexOp k l mask dst src2 (lane (readVec s r)) ilen s) s
    | .mem m =>
      let la := linearAddress s p (8 * evexLanes l) ilen m
      match memFault s (segmentOf p m) la (8 * evexLanes l) (vectorElements la (evexLanes l) (laneActive s mask)) with
      | some stop => stop
      | none => execPacked (evexOp k l mask dst src2 (vectorElement s la) ilen s) s
    | .broadcast m =>
      let la := linearAddress s p 8 ilen m
      match memFault s (segmentOf p m) la 8 (broadcastElements la (evexLanes l) (laneActive s mask)) with
      | some stop => stop
      | none => execPacked (evexOp k l mask dst src2 (fun _ => readWord s la) ilen s) s

/-- The `ExecPacked` of embedded rounding: eight lanes, `EVEX.RC`, SAE (R94, R195, R196). -/
def roundedOp (k : Kind) (p : List LegacyPrefix) (mask : Masking) (dst src2 r : BitVec 5) (rc : Rounding)
    (s : State) : PackedOp :=
  { kind := k, lanes := 8, dst := dst, src2 := src2, op3 := lane (readVec s r), active := laneActive s mask
    zmask := isZeroing mask, rc := rc, sae := true, ilen := evexLength p (.rounded r rc) }

/-- An EVEX.512 form: as `execEvex`, or with embedded rounding (R195, R196). -/
def execEvex512 (k : Kind) (p : List LegacyPrefix) (mask : Masking) (dst src2 : BitVec 5) (op3 : EvexOp3Er)
    (s : State) : Result :=
  match op3 with
  | .plain o => execEvex k .l512 p mask dst src2 o s
  | .rounded r rc =>
    match gate s true s.cpu.hasAVX512F with
    | some stop => stop
    | none => execPacked (roundedOp k p mask dst src2 r rc s) s

end Sys2Proof.Machine
end

