-- ==== Sys2Proof/Machine/Evex.lean ====
section
/-! DEFINITION. The nine EVEX-encoded instructions, rows 7-15 of the opcode table (42_evex_forms.md R200-R208). -/

namespace Sys2Proof.Machine

/-- VFNMADD132PD xmm1 (k1)(z), xmm2, xmm3/m128/m64bcst (EVEX.128), R200: for each active j of 2 lanes, DEST_j <-
Round(-(op1_j * op3_j) + op2_j); inactive lanes merged or zeroed; bits MAXVL-1:128 <- 0. -/
def execVfnmadd132pdXmmEvex (p : List LegacyPrefix) (mask : Masking) (dst src2 : BitVec 5) (op3 : EvexOp3)
    (s : State) : Result :=
  execEvex .k132 .l128 p mask dst src2 op3 s

/-- VFNMADD213PD xmm1 (k1)(z), xmm2, xmm3/m128/m64bcst (EVEX.128), R201: for each active j of 2 lanes, DEST_j <-
Round(-(op2_j * op1_j) + op3_j); inactive lanes merged or zeroed; bits MAXVL-1:128 <- 0. -/
def execVfnmadd213pdXmmEvex (p : List LegacyPrefix) (mask : Masking) (dst src2 : BitVec 5) (op3 : EvexOp3)
    (s : State) : Result :=
  execEvex .k213 .l128 p mask dst src2 op3 s

/-- VFNMADD231PD xmm1 (k1)(z), xmm2, xmm3/m128/m64bcst (EVEX.128), R202: for each active j of 2 lanes, DEST_j <-
Round(-(op2_j * op3_j) + op1_j); inactive lanes merged or zeroed; bits MAXVL-1:128 <- 0. -/
def execVfnmadd231pdXmmEvex (p : List LegacyPrefix) (mask : Masking) (dst src2 : BitVec 5) (op3 : EvexOp3)
    (s : State) : Result :=
  execEvex .k231 .l128 p mask dst src2 op3 s

/-- VFNMADD132PD ymm1 (k1)(z), ymm2, ymm3/m256/m64bcst (EVEX.256), R203: for each active j of 4 lanes, DEST_j <-
Round(-(op1_j * op3_j) + op2_j); inactive lanes merged or zeroed; bits MAXVL-1:256 <- 0. -/
def execVfnmadd132pdYmmEvex (p : List LegacyPrefix) (mask : Masking) (dst src2 : BitVec 5) (op3 : EvexOp3)
    (s : State) : Result :=
  execEvex .k132 .l256 p mask dst src2 op3 s

/-- VFNMADD213PD ymm1 (k1)(z), ymm2, ymm3/m256/m64bcst (EVEX.256), R204: for each active j of 4 lanes, DEST_j <-
Round(-(op2_j * op1_j) + op3_j); inactive lanes merged or zeroed; bits MAXVL-1:256 <- 0. -/
def execVfnmadd213pdYmmEvex (p : List LegacyPrefix) (mask : Masking) (dst src2 : BitVec 5) (op3 : EvexOp3)
    (s : State) : Result :=
  execEvex .k213 .l256 p mask dst src2 op3 s

/-- VFNMADD231PD ymm1 (k1)(z), ymm2, ymm3/m256/m64bcst (EVEX.256), R205: for each active j of 4 lanes, DEST_j <-
Round(-(op2_j * op3_j) + op1_j); inactive lanes merged or zeroed; bits MAXVL-1:256 <- 0. -/
def execVfnmadd231pdYmmEvex (p : List LegacyPrefix) (mask : Masking) (dst src2 : BitVec 5) (op3 : EvexOp3)
    (s : State) : Result :=
  execEvex .k231 .l256 p mask dst src2 op3 s

/-- VFNMADD132PD zmm1 (k1)(z), zmm2, zmm3/m512/m64bcst(er) (EVEX.512), R206: for each active j of 8 lanes, DEST_j <-
Round(-(op1_j * op3_j) + op2_j) with rounding EVEX.RC and SAE if (er), else MXCSR.RC; inactive lanes merged or zeroed; bits MAXVL-1:512 <- 0. -/
def execVfnmadd132pdZmmEvex (p : List LegacyPrefix) (mask : Masking) (dst src2 : BitVec 5) (op3 : EvexOp3Er)
    (s : State) : Result :=
  execEvex512 .k132 p mask dst src2 op3 s

/-- VFNMADD213PD zmm1 (k1)(z), zmm2, zmm3/m512/m64bcst(er) (EVEX.512), R207: for each active j of 8 lanes, DEST_j <-
Round(-(op2_j * op1_j) + op3_j) with rounding EVEX.RC and SAE if (er), else MXCSR.RC; inactive lanes merged or zeroed; bits MAXVL-1:512 <- 0. -/
def execVfnmadd213pdZmmEvex (p : List LegacyPrefix) (mask : Masking) (dst src2 : BitVec 5) (op3 : EvexOp3Er)
    (s : State) : Result :=
  execEvex512 .k213 p mask dst src2 op3 s

/-- VFNMADD231PD zmm1 (k1)(z), zmm2, zmm3/m512/m64bcst(er) (EVEX.512), R208: for each active j of 8 lanes, DEST_j <-
Round(-(op2_j * op3_j) + op1_j) with rounding EVEX.RC and SAE if (er), else MXCSR.RC; inactive lanes merged or zeroed; bits MAXVL-1:512 <- 0. -/
def execVfnmadd231pdZmmEvex (p : List LegacyPrefix) (mask : Masking) (dst src2 : BitVec 5) (op3 : EvexOp3Er)
    (s : State) : Result :=
  execEvex512 .k231 p mask dst src2 op3 s

end Sys2Proof.Machine
end

