-- ==== Sys2Proof/Machine/Vex.lean ====
section
/-! DEFINITION. The six VEX-encoded instructions, rows 1-6 of the opcode table (41_vex_forms.md R172-R177). -/

namespace Sys2Proof.Machine

/-- VFNMADD132PD xmm1, xmm2, xmm3/m128 (VEX.128), R172: for j in 0, 1, DEST_j <- Round(-(op1_j * op3_j) + op2_j); bits
MAXVL-1:128 <- 0. -/
def execVfnmadd132pdXmmVex (p : List LegacyPrefix) (dst src2 : BitVec 4) (op3 : VexOp3) (s : State) : Result :=
  execVex .k132 .l128 p dst src2 op3 s

/-- VFNMADD213PD xmm1, xmm2, xmm3/m128 (VEX.128), R173: for j in 0, 1, DEST_j <- Round(-(op2_j * op1_j) + op3_j); bits
MAXVL-1:128 <- 0. -/
def execVfnmadd213pdXmmVex (p : List LegacyPrefix) (dst src2 : BitVec 4) (op3 : VexOp3) (s : State) : Result :=
  execVex .k213 .l128 p dst src2 op3 s

/-- VFNMADD231PD xmm1, xmm2, xmm3/m128 (VEX.128), R174: for j in 0, 1, DEST_j <- Round(-(op2_j * op3_j) + op1_j); bits
MAXVL-1:128 <- 0. -/
def execVfnmadd231pdXmmVex (p : List LegacyPrefix) (dst src2 : BitVec 4) (op3 : VexOp3) (s : State) : Result :=
  execVex .k231 .l128 p dst src2 op3 s

/-- VFNMADD132PD ymm1, ymm2, ymm3/m256 (VEX.256), R175: for j in 0..3, DEST_j <- Round(-(op1_j * op3_j) + op2_j); bits
MAXVL-1:256 <- 0. -/
def execVfnmadd132pdYmmVex (p : List LegacyPrefix) (dst src2 : BitVec 4) (op3 : VexOp3) (s : State) : Result :=
  execVex .k132 .l256 p dst src2 op3 s

/-- VFNMADD213PD ymm1, ymm2, ymm3/m256 (VEX.256), R176: for j in 0..3, DEST_j <- Round(-(op2_j * op1_j) + op3_j); bits
MAXVL-1:256 <- 0. -/
def execVfnmadd213pdYmmVex (p : List LegacyPrefix) (dst src2 : BitVec 4) (op3 : VexOp3) (s : State) : Result :=
  execVex .k213 .l256 p dst src2 op3 s

/-- VFNMADD231PD ymm1, ymm2, ymm3/m256 (VEX.256), R177: for j in 0..3, DEST_j <- Round(-(op2_j * op3_j) + op1_j); bits
MAXVL-1:256 <- 0. -/
def execVfnmadd231pdYmmVex (p : List LegacyPrefix) (dst src2 : BitVec 4) (op3 : VexOp3) (s : State) : Result :=
  execVex .k231 .l256 p dst src2 op3 s

end Sys2Proof.Machine
end

