-- ==== Sys2Proof/Machine/Dispatch.lean ====
section
/-! DEFINITION. exec: one arm per row of spec/opcode_table.json, each a direct call of that row's meaning. -/

namespace Sys2Proof.Machine

/-- What an instruction does to a state. -/
def exec (i : Instr) (s : State) : Host.Outcome State Fault Refusal :=
  match i with
  | .vfnmadd132pdXmmVex p dst src2 op3 => Sys2Proof.Machine.execVfnmadd132pdXmmVex p dst src2 op3 s
  | .vfnmadd213pdXmmVex p dst src2 op3 => Sys2Proof.Machine.execVfnmadd213pdXmmVex p dst src2 op3 s
  | .vfnmadd231pdXmmVex p dst src2 op3 => Sys2Proof.Machine.execVfnmadd231pdXmmVex p dst src2 op3 s
  | .vfnmadd132pdYmmVex p dst src2 op3 => Sys2Proof.Machine.execVfnmadd132pdYmmVex p dst src2 op3 s
  | .vfnmadd213pdYmmVex p dst src2 op3 => Sys2Proof.Machine.execVfnmadd213pdYmmVex p dst src2 op3 s
  | .vfnmadd231pdYmmVex p dst src2 op3 => Sys2Proof.Machine.execVfnmadd231pdYmmVex p dst src2 op3 s
  | .vfnmadd132pdXmmEvex p mask dst src2 op3 => Sys2Proof.Machine.execVfnmadd132pdXmmEvex p mask dst src2 op3 s
  | .vfnmadd213pdXmmEvex p mask dst src2 op3 => Sys2Proof.Machine.execVfnmadd213pdXmmEvex p mask dst src2 op3 s
  | .vfnmadd231pdXmmEvex p mask dst src2 op3 => Sys2Proof.Machine.execVfnmadd231pdXmmEvex p mask dst src2 op3 s
  | .vfnmadd132pdYmmEvex p mask dst src2 op3 => Sys2Proof.Machine.execVfnmadd132pdYmmEvex p mask dst src2 op3 s
  | .vfnmadd213pdYmmEvex p mask dst src2 op3 => Sys2Proof.Machine.execVfnmadd213pdYmmEvex p mask dst src2 op3 s
  | .vfnmadd231pdYmmEvex p mask dst src2 op3 => Sys2Proof.Machine.execVfnmadd231pdYmmEvex p mask dst src2 op3 s
  | .vfnmadd132pdZmmEvex p mask dst src2 op3 => Sys2Proof.Machine.execVfnmadd132pdZmmEvex p mask dst src2 op3 s
  | .vfnmadd213pdZmmEvex p mask dst src2 op3 => Sys2Proof.Machine.execVfnmadd213pdZmmEvex p mask dst src2 op3 s
  | .vfnmadd231pdZmmEvex p mask dst src2 op3 => Sys2Proof.Machine.execVfnmadd231pdZmmEvex p mask dst src2 op3 s

end Sys2Proof.Machine
end

