-- ==== Sys2Proof/Machine/Fetch.lean ====
section
/-! DEFINITION. Fetching and recognising the instruction at RIP (20_memory.md R67; 30_encoding.md R110, R112, R123;
60_exceptions.md R239, R240, R243, R256). -/

namespace Sys2Proof.Machine

/-- The linear address of the byte `i` places after RIP: with CS base 0 in 64-bit mode (R67); outside it CS base plus
RIP modulo 2^32, as at the reset entry point (R270; PRESUMED, log 7). -/
def fetchAddress (s : State) (i : Nat) : Word :=
  if modeOf s = .long64 then s.rip + BitVec.ofNat 64 i
  else ((s.csBase + s.rip + BitVec.ofNat 64 i).setWidth 32).setWidth 64

/-- A byte that the fetch can read: canonical and executable (R67). -/
def fetchable (s : State) (a : Word) : Bool := canonical s.cpu.linearWidth a && executable s a

/-- The addresses of the longest instruction at RIP (R110). No byte after these is fetched: a longer instruction is
#GP(0) even where its 16th byte could not be fetched, an order that R243(1) leaves open (DESIGN CHOICE, log 22). -/
def fetchAddresses (s : State) : List Word := (List.range maxInstrLength).map (fetchAddress s)

/-- The bytes at RIP up to the longest instruction or the first byte that cannot be fetched: the fetch goes byte by byte
(DESIGN CHOICE, log 14). -/
def fetchWindow (s : State) : List Byte := ((fetchAddresses s).takeWhile (fetchable s)).map (readByte s)

/-- Outside 64-bit mode C4h and 62h followed by a byte whose bits 7:6 are not 11 are LES and BOUND (R123). -/
def isLesOrBound : List Byte → Bool
  | b0 :: b1 :: _ => (b0 == 0xC4#8 || b0 == 0x62#8) && b1.extractLsb' 6 2 != 3#2
  | _ => false

/-- Decoding in the state's mode: R112 in 64-bit mode, with R123's condition outside it. -/
def decodeIn (s : State) (bs : List Byte) : DecodeResult :=
  if modeOf s ≠ .long64 ∧ isLesOrBound (splitPrefixes bs).2 = true then .other .lesOrBound else decode bs

/-- What the fetch comes to: an instruction to run, or the end of the step. -/
inductive Fetched where
  | run (i : Instr)
  | stop (r : Result)

/-- The fault of the first instruction byte, in the order of the bytes, that the instruction needs and the fetch cannot
read: #GP(0) for a non-canonical address, #PF for an inaccessible one (R67, R239, R240). R67 and R243 do not say which
comes first when an earlier byte is inaccessible and a later one non-canonical: here the #PF of the earlier byte
(DESIGN CHOICE, log 14). -/
def fetchFault (s : State) (a : Word) : Result :=
  if canonical s.cpu.linearWidth a then raisePF s a else raiseGP s

/-- Fetch and decode at RIP: fetch faults and the length limit come before #UD (R243); bytes that are not an
instruction of this spec are refused (R256), and so is a mode that is not modelled (92_eei_decisions.md D1). -/
def fetch (s : State) : Fetched :=
  if modeOf s = .otherProtected then .stop (.refused (.modeNotModelled s.rip))
  else
    match decodeIn s (fetchWindow s) with
    | .instr i _ => .run i
    | .illegal _ => .stop (raiseUD s)
    | .other _ => .stop (.refused (.notOfThisSpec s.rip))
    | .tooLong => .stop (raiseGP s)
    | .truncated => .stop (fetchFault s (fetchAddress s (fetchWindow s).length))

/-- Bytes placed where the next fetch finds them. The fetch of this model is that of 64-bit mode, so a state that is
not in it is first brought to the launch state of R273, which stands for the boot software of R272 (log 16). -/
def placeInstruction (s : State) (bs : List Byte) : State :=
  let t := if modeOf s = .long64 then s else s.launch
  { t with mem := placeBytes t.mem t.rip bs }

end Sys2Proof.Machine
end

