-- ==== Sys2Proof/Machine/Step.lean ====
section
/-! DEFINITION. One step: fetch at RIP, decode, execute (20_memory.md R67; 60_exceptions.md R243). -/

namespace Sys2Proof.Machine

/-- One instruction. -/
def step (s : State) : Host.Outcome State Fault Refusal :=
  match fetch s with
  | .run i => exec i s
  | .stop r => r

/-- `s` with the instruction of a table word stored where `step` fetches its next instruction (log 16). -/
def State.withFetchWord (s : State) (nbits w : Nat) : State := placeInstruction s (tableBytes nbits w)

end Sys2Proof.Machine
end

