-- ==== Sys2Proof/Machine/Run.lean ====
section
/-! DEFINITION. A run up to a designated end address (60_exceptions.md R256; 92_eei_decisions.md D11). -/

namespace Sys2Proof.Machine

/-- How a run stands: `Completed`, `Fault(...)` and `Refused(RIP)` of R256, or not ended within the steps allowed. -/
inductive RunOutcome where
  | completed (s : State)
  | fault (f : Fault)
  | refused (r : Refusal)
  | running (s : State)
deriving DecidableEq, Repr

/-- At most `n` steps from `s`, ending with `Completed` "when RIP equals the designated end address `RIP_END` ...
before fetching" (R256). -/
def runTo (ripEnd : Word) : Nat → State → RunOutcome
  | 0, s => if s.rip = ripEnd then .completed s else .running s
  | n + 1, s =>
    if s.rip = ripEnd then .completed s
    else match step s with
      | .next t => runTo ripEnd n t
      | .fault f => .fault f
      | .refused r => .refused r

end Sys2Proof.Machine
end

