-- ==== Sys2Proof/Safety.lean ====
section
/-! DEFINITION. What counts as a good state and a safe run, and the other terms in which the statements speak: the
launch premise (70_reset_and_hazards.md R273), when an instruction is enabled (60_exceptions.md R234-R237), the
machine's invariant, the value of a binary64 element (40_lane_arithmetic.md R133). -/

namespace Sys2Proof.Machine

/-! ## An instruction's parts -/

/-- Operand 1, the destination, in the one file of vector registers (R11, R21). -/
def destination : Instr → BitVec 5
  | .vfnmadd132pdXmmVex _ dst _ _ => vexReg dst
  | .vfnmadd213pdXmmVex _ dst _ _ => vexReg dst
  | .vfnmadd231pdXmmVex _ dst _ _ => vexReg dst
  | .vfnmadd132pdYmmVex _ dst _ _ => vexReg dst
  | .vfnmadd213pdYmmVex _ dst _ _ => vexReg dst
  | .vfnmadd231pdYmmVex _ dst _ _ => vexReg dst
  | .vfnmadd132pdXmmEvex _ _ dst _ _ => dst
  | .vfnmadd213pdXmmEvex _ _ dst _ _ => dst
  | .vfnmadd231pdXmmEvex _ _ dst _ _ => dst
  | .vfnmadd132pdYmmEvex _ _ dst _ _ => dst
  | .vfnmadd213pdYmmEvex _ _ dst _ _ => dst
  | .vfnmadd231pdYmmEvex _ _ dst _ _ => dst
  | .vfnmadd132pdZmmEvex _ _ dst _ _ => dst
  | .vfnmadd213pdZmmEvex _ _ dst _ _ => dst
  | .vfnmadd231pdZmmEvex _ _ dst _ _ => dst

/-- Is it one of the nine EVEX-encoded rows? -/
def isEvex : Instr → Bool
  | .vfnmadd132pdXmmVex _ _ _ _ => false
  | .vfnmadd213pdXmmVex _ _ _ _ => false
  | .vfnmadd231pdXmmVex _ _ _ _ => false
  | .vfnmadd132pdYmmVex _ _ _ _ => false
  | .vfnmadd213pdYmmVex _ _ _ _ => false
  | .vfnmadd231pdYmmVex _ _ _ _ => false
  | .vfnmadd132pdXmmEvex _ _ _ _ _ => true
  | .vfnmadd213pdXmmEvex _ _ _ _ _ => true
  | .vfnmadd231pdXmmEvex _ _ _ _ _ => true
  | .vfnmadd132pdYmmEvex _ _ _ _ _ => true
  | .vfnmadd213pdYmmEvex _ _ _ _ _ => true
  | .vfnmadd231pdYmmEvex _ _ _ _ _ => true
  | .vfnmadd132pdZmmEvex _ _ _ _ _ => true
  | .vfnmadd213pdZmmEvex _ _ _ _ _ => true
  | .vfnmadd231pdZmmEvex _ _ _ _ _ => true

/-- The feature flags of an instruction's row are set: FMA for rows 1-6, AVX512VL and AVX512F for rows 7-12, AVX512F
for rows 13-15 (R236). -/
def featuresPresent (c : Cpu) : Instr → Bool
  | .vfnmadd132pdXmmVex _ _ _ _ => c.hasFMA
  | .vfnmadd213pdXmmVex _ _ _ _ => c.hasFMA
  | .vfnmadd231pdXmmVex _ _ _ _ => c.hasFMA
  | .vfnmadd132pdYmmVex _ _ _ _ => c.hasFMA
  | .vfnmadd213pdYmmVex _ _ _ _ => c.hasFMA
  | .vfnmadd231pdYmmVex _ _ _ _ => c.hasFMA
  | .vfnmadd132pdXmmEvex _ _ _ _ _ => c.hasAVX512VL && c.hasAVX512F
  | .vfnmadd213pdXmmEvex _ _ _ _ _ => c.hasAVX512VL && c.hasAVX512F
  | .vfnmadd231pdXmmEvex _ _ _ _ _ => c.hasAVX512VL && c.hasAVX512F
  | .vfnmadd132pdYmmEvex _ _ _ _ _ => c.hasAVX512VL && c.hasAVX512F
  | .vfnmadd213pdYmmEvex _ _ _ _ _ => c.hasAVX512VL && c.hasAVX512F
  | .vfnmadd231pdYmmEvex _ _ _ _ _ => c.hasAVX512VL && c.hasAVX512F
  | .vfnmadd132pdZmmEvex _ _ _ _ _ => c.hasAVX512F
  | .vfnmadd213pdZmmEvex _ _ _ _ _ => c.hasAVX512F
  | .vfnmadd231pdZmmEvex _ _ _ _ _ => c.hasAVX512F

/-! ## Good states -/

/-- 64-bit mode: CR0.PE = 1, EFER.LMA = 1, CS.L = 1 (R34). -/
def in64BitMode (s : State) : Bool := cr0PE s && eferLMA s && s.csL

/-- None of the #UD conditions on the machine's state holds for the instruction in 64-bit mode: CR4.OSXSAVE = 1,
XCR0[2:1] = 11b, for EVEX XCR0[7:5] = 111b, the row's feature flags (R234, R235(a), R236). -/
def executable64 (s : State) (i : Instr) : Bool :=
  in64BitMode s && cr4OSXSAVE s && xcr0Avx s && (!isEvex i || xcr0Avx512 s) && featuresPresent s.cpu i

/-- The instruction passes every check before its memory access: no #UD and no #NM (R234-R237, R243). -/
def enabled (s : State) (i : Instr) : Bool := executable64 s i && !cr0TS s

/-- The launch premise of R273. -/
def launched (s : State) : Bool :=
  in64BitMode s && !cr0TS s && !cr0AM s && cr4OSXSAVE s && cr4OSXMMEXCPT s && s.xcr0.getLsbD 0 && xcr0Avx s &&
    xcr0Avx512 s && s.cpu.hasFMA && s.cpu.hasAVX512F && s.cpu.hasAVX512VL && s.mxcsr.extractLsb' 16 16 == 0#16

/-- All five conditions these instructions can detect are masked in MXCSR (R27, R245). -/
def allMasked (m : BitVec 32) : Bool := mxIM m && mxDM m && mxOM m && mxUM m && mxPM m

/-- Every byte can be read: canonical and accessible at CPL, with alignment checking off (R62-R64, D7). -/
def operandReadable (s : State) (bytes : List Word) : Bool :=
  !alignCheckOn s && bytes.all fun a => canonical s.cpu.linearWidth a && readable s a

/-- Without AVX512F the machine has 16 vector registers of 256 bits (R20): the rest of the storage is 0. -/
def vecStorageOk (s : State) : Prop :=
  s.cpu.hasAVX512F = false →
    (∀ r : BitVec 5, 16 ≤ r.toNat → readVec s r = 0#512) ∧
    (∀ (r : BitVec 5) (j : Nat), 4 ≤ j → j < 8 → lane (readVec s r) j = 0#64)

/-- The machine's invariant: memory in canonical form, MXCSR[31:16] = 0 (R27; U9 of 93_implementation_defined.md),
no content where the processor has no storage (R20). -/
def State.inv (s : State) : Prop :=
  Memory.wf s.mem = true ∧ s.mxcsr.extractLsb' 16 16 = 0#16 ∧ vecStorageOk s

/-! ## Every row under one view

The operands and controls of the fifteen rows read through one structure, so that a statement can speak of all rows. -/

/-- What a row's encoding says, in one shape for all rows. -/
structure Parts where
  kind : Kind
  /-- `KL` (R52, R93) -/
  lanes : Nat
  evex : Bool
  p : List LegacyPrefix
  mask : Masking
  dst : BitVec 5
  src2 : BitVec 5
  op3 : EvexOp3
  /-- `EVEX.RC`, of embedded rounding only (R94) -/
  rounding : Option Rounding

/-- A VEX row: no mask, no broadcast, no embedded rounding (R180). -/
def vexParts (k : Kind) (kl : Nat) (p : List LegacyPrefix) (dst src2 : BitVec 4) (op3 : VexOp3) : Parts :=
  { kind := k, lanes := kl, evex := false, p := p, mask := .unmasked, dst := vexReg dst, src2 := vexReg src2
    op3 := match op3 with
      | .reg r => .reg (vexReg r)
      | .mem m => .mem m
    rounding := none }

/-- An EVEX row below 512 bits. -/
def evexParts (k : Kind) (kl : Nat) (p : List LegacyPrefix) (mask : Masking) (dst src2 : BitVec 5) (op3 : EvexOp3) :
    Parts :=
  { kind := k, lanes := kl, evex := true, p := p, mask := mask, dst := dst, src2 := src2, op3 := op3
    rounding := none }

/-- An EVEX.512 row, with or without embedded rounding (R94). -/
def evex512Parts (k : Kind) (p : List LegacyPrefix) (mask : Masking) (dst src2 : BitVec 5) : EvexOp3Er → Parts
  | .plain o => evexParts k 8 p mask dst src2 o
  | .rounded r rc => { evexParts k 8 p mask dst src2 (.reg r) with rounding := some rc }

/-- The parts of an instruction. -/
def parts : Instr → Parts
  | .vfnmadd132pdXmmVex p dst src2 op3 => vexParts .k132 2 p dst src2 op3
  | .vfnmadd213pdXmmVex p dst src2 op3 => vexParts .k213 2 p dst src2 op3
  | .vfnmadd231pdXmmVex p dst src2 op3 => vexParts .k231 2 p dst src2 op3
  | .vfnmadd132pdYmmVex p dst src2 op3 => vexParts .k132 4 p dst src2 op3
  | .vfnmadd213pdYmmVex p dst src2 op3 => vexParts .k213 4 p dst src2 op3
  | .vfnmadd231pdYmmVex p dst src2 op3 => vexParts .k231 4 p dst src2 op3
  | .vfnmadd132pdXmmEvex p m dst src2 op3 => evexParts .k132 2 p m dst src2 op3
  | .vfnmadd213pdXmmEvex p m dst src2 op3 => evexParts .k213 2 p m dst src2 op3
  | .vfnmadd231pdXmmEvex p m dst src2 op3 => evexParts .k231 2 p m dst src2 op3
  | .vfnmadd132pdYmmEvex p m dst src2 op3 => evexParts .k132 4 p m dst src2 op3
  | .vfnmadd213pdYmmEvex p m dst src2 op3 => evexParts .k213 4 p m dst src2 op3
  | .vfnmadd231pdYmmEvex p m dst src2 op3 => evexParts .k231 4 p m dst src2 op3
  | .vfnmadd132pdZmmEvex p m dst src2 op3 => evex512Parts .k132 p m dst src2 op3
  | .vfnmadd213pdZmmEvex p m dst src2 op3 => evex512Parts .k213 p m dst src2 op3
  | .vfnmadd231pdZmmEvex p m dst src2 op3 => evex512Parts .k231 p m dst src2 op3

/-- The factor of a disp8 (R108). -/
def dispFactor (q : Parts) : Nat :=
  match q.op3 with
  | .reg _ => 1
  | .mem _ => if q.evex then 8 * q.lanes else 1
  | .broadcast _ => 8

/-- Is lane `j` active (R190)? -/
def activeLane (s : State) (i : Instr) (j : Nat) : Bool := laneActive s (parts i).mask j

/-- The memory operand of an instruction, if it has one. -/
def memOperand (i : Instr) : Option MemAddr :=
  match (parts i).op3 with
  | .reg _ => none
  | .mem m => some m
  | .broadcast m => some m

/-- `LA` of a memory operand of the instruction (R55-R58). -/
def operandAddress (s : State) (i : Instr) (m : MemAddr) : Word :=
  linearAddress s (parts i).p (dispFactor (parts i)) i.length m

/-- The displacement as a signed number, a disp8 multiplied by its factor `n` (R55, R103, R108). -/
def dispInt (n : Nat) : Disp → Int
  | .none => 0
  | .disp8 d => d.toInt * n
  | .disp32 d => d.toInt

/-- `index * scale` before any wrapping, the scale being 1, 2, 4 or 8; 0 where there is no index (R55). -/
def indexNat (s : State) : Option Index → Nat
  | none => 0
  | some i => (readGpr s i.reg).toNat * 2 ^ i.scale.toNat

/-- Is the byte at offset `t` of the memory operand one that the instruction accesses? With a broadcast the one element
if some lane is active, else the elements of the active lanes (R52, R61, R193). -/
def accesses (s : State) (i : Instr) (t : Nat) : Prop :=
  match (parts i).op3 with
  | .reg _ => False
  | .mem _ => t < 8 * (parts i).lanes ∧ activeLane s i (t / 8) = true
  | .broadcast _ => t < 8 ∧ ∃ j, j < (parts i).lanes ∧ activeLane s i j = true

/-- Every byte that the instruction accesses is canonical and readable, and alignment checking is off (R62-R64; D7 of
92_eei_decisions.md). -/
def operandOk (s : State) (i : Instr) : Prop :=
  ∀ m, memOperand i = some m →
    alignCheckOn s = false ∧
    ∀ t, accesses s i t →
      canonical s.cpu.linearWidth (operandAddress s i m + BitVec.ofNat 64 t) = true ∧
      readable s (operandAddress s i m + BitVec.ofNat 64 t) = true

/-- Lane `j` of operand 3 (R191-R193). -/
def operand3 (s : State) (i : Instr) (j : Nat) : Word :=
  match (parts i).op3 with
  | .reg r => lane (readVec s r) j
  | .mem m => readWord s (operandAddress s i m + BitVec.ofNat 64 (8 * j))
  | .broadcast m => readWord s (operandAddress s i m)

/-- The roles x, y, z of operands 1, 2, 3 (R134). -/
def roles (k : Kind) (op1 op2 op3 : Word) : Word × Word × Word :=
  match k with
  | .k132 => (op1, op3, op2)
  | .k213 => (op2, op1, op3)
  | .k231 => (op2, op3, op1)

/-- The lane function of a mnemonic on operands 1, 2, 3 (R134, R170), underflow and overflow counting as masked under
SAE. -/
def laneOf (k : Kind) (m : BitVec 32) (rc : Rounding) (sae : Bool) (op1 op2 op3 : Word) : LaneResult :=
  fnmadd64 (roles k op1 op2 op3).1 (roles k op1 op2 op3).2.1 (roles k op1 op2 op3).2.2 rc (mxDAZ m) (mxFTZ m)
    (sae || mxUM m) (sae || mxOM m)

/-- What lane `j` of the instruction computes in state `s`. -/
def outcome (s : State) (i : Instr) (j : Nat) : LaneResult :=
  laneOf (parts i).kind s.mxcsr ((parts i).rounding.getD (mxRC s.mxcsr)) (parts i).rounding.isSome
    (lane (readVec s (parts i).dst) j) (lane (readVec s (parts i).src2) j) (operand3 s i j)

/-- The flag at a bit of MXCSR[5:0] (R27): IE 0, DE 1, OE 3, UE 4, PE 5. -/
def flagAt (f : FpFlags) : Nat → Bool
  | 0 => f.ie
  | 1 => f.de
  | 3 => f.oe
  | 4 => f.ue
  | 5 => f.pe
  | _ => false

/-- Some active lane reports the flag at bit `n` of MXCSR. -/
def reported (kl : Nat) (active : Nat → Bool) (f : Nat → LaneResult) (n : Nat) : Bool :=
  (List.range kl).any fun j => active j && flagAt (f j).flags n

/-- Nothing differs but vector registers, MXCSR and RIP; memory is compared byte by byte too (R33, R36, R37, R68). -/
def sameElsewhere (s t : State) : Prop :=
  t.opmask = s.opmask ∧ t.gpr = s.gpr ∧ t.fsBase = s.fsBase ∧ t.gsBase = s.gsBase ∧ t.rflags = s.rflags ∧
  t.cr0 = s.cr0 ∧ t.cr2 = s.cr2 ∧ t.cr4 = s.cr4 ∧ t.xcr0 = s.xcr0 ∧ t.efer = s.efer ∧
  t.csSelector = s.csSelector ∧ t.csBase = s.csBase ∧ t.csL = s.csL ∧ t.cpl = s.cpl ∧ t.mem = s.mem ∧
  t.access = s.access ∧ t.cpu = s.cpu ∧ t.freeCount = s.freeCount ∧ ∀ a, readByte t a = readByte s a

/-- `exec i s` answers a next state, and that state is the one of `ExecPacked` (R170): `f j` is delivered to every
active lane of the destination `dst`, an inactive lane is merged or zeroed, the lanes above `kl` are 0; MXCSR gains
the flags of the active lanes, or nothing where `reports` is false; RIP moves past the instruction's `ilen` bytes;
nothing else changes. -/
def completesWith (i : Instr) (s : State) (dst : BitVec 5) (kl : Nat) (active : Nat → Bool) (zeroing : Bool)
    (f : Nat → LaneResult) (reports : Bool) (ilen : Nat) : Prop :=
  ∃ t, exec i s = .next t ∧
    (∀ j, j < kl → active j = true → (f j).result = some (lane (readVec t dst) j)) ∧
    (∀ j, j < kl → active j = false →
      lane (readVec t dst) j = if zeroing then 0#64 else lane (readVec s dst) j) ∧
    (∀ j, kl ≤ j → j < 8 → lane (readVec t dst) j = 0#64) ∧
    (∀ r, r ≠ dst → readVec t r = readVec s r) ∧
    (∀ n, t.mxcsr.getLsbD n = (s.mxcsr.getLsbD n || (reports && reported kl active f n))) ∧
    t.rip = s.rip + BitVec.ofNat 64 ilen ∧
    sameElsewhere s t

/-! ## Safe runs -/

/-- A run of `n` steps that ends neither in a fault nor in a refusal. -/
def safeFor : Nat → State → Bool
  | 0, _ => true
  | n + 1, s =>
    match step s with
    | .next t => safeFor n t
    | .fault _ => false
    | .refused _ => false

/-! ## Values -/

/-- The value of a finite binary64 element, from the table of R133: zero and denormal `(-1)^s * f * 2^-1074`, normal
`(-1)^s * (2^52 + f) * 2^(e-1075)`. -/
def value (x : Word) : ℚ :=
  (if x.getLsbD 63 then -1 else 1) *
    (if (x.extractLsb' 52 11).toNat = 0 then ((x.extractLsb' 0 52).toNat : ℚ) * 2 ^ (-1074 : ℤ)
      else (2 ^ 52 + ((x.extractLsb' 0 52).toNat : ℚ)) * 2 ^ (((x.extractLsb' 52 11).toNat : ℤ) - 1075))

/-- Neither an infinity nor a NaN (R133). -/
def isFinite (x : Word) : Bool := (x.extractLsb' 52 11).toNat != 2047

/-- The exact value of `-(x*y)+z` (R132, R140). -/
def exactValue (x y z : Word) : ℚ := -(value x * value y) + value z

end Sys2Proof.Machine
end

