-- ==== Sys2Proof/Certificates/Slice0/Obligations.lean ====
section
/-! DEFINITION. The statements for the provers, from the spec's numbered rules. OBLIGATIONS.json lists them. -/

open Sys2Proof
open Sys2Proof.Machine

/-! ## Encoding (30_encoding.md) -/

/-- R80-R84, R100-R103, R109, R55: decoding the bytes of a well-formed VEX instruction, whatever follows them, gives
that instruction and leaves what follows. -/
def Obligations.DecodeEncodeVex : Prop :=
  ∀ (k : Kind) (l : VexLength) (p : List LegacyPrefix) (dst src2 : BitVec 4) (op3 : VexOp3) (rest : List Byte),
    (Instr.vex k l p dst src2 op3).wf = true →
    decode (encode (Instr.vex k l p dst src2 op3) ++ rest) = .instr (Instr.vex k l p dst src2 op3) rest

/-- R90-R95, R100-R103, R109, R55: the same for an EVEX instruction, with and without embedded rounding. -/
def Obligations.DecodeEncodeEvex : Prop :=
  (∀ (k : Kind) (l : EvexLength) (p : List LegacyPrefix) (mask : Masking) (dst src2 : BitVec 5) (op3 : EvexOp3)
      (rest : List Byte),
    (Instr.evex k l p mask dst src2 op3).wf = true →
    decode (encode (Instr.evex k l p mask dst src2 op3) ++ rest) = .instr (Instr.evex k l p mask dst src2 op3) rest) ∧
  (∀ (k : Kind) (p : List LegacyPrefix) (mask : Masking) (dst src2 r : BitVec 5) (rc : Rounding) (rest : List Byte),
    (Instr.evexRounded k p mask dst src2 r rc).wf = true →
    decode (encode (Instr.evexRounded k p mask dst src2 r rc) ++ rest) =
      .instr (Instr.evexRounded k p mask dst src2 r rc) rest)

/-- R80, R109, R110: whatever bytes decode to an instruction, it is well-formed, has between 5 and 15 bytes, and the
bytes left over are those after its length. -/
def Obligations.DecodedIsWellFormed : Prop :=
  ∀ (bs : List Byte) (i : Instr) (rest : List Byte),
    decode bs = .instr i rest →
    i.wf = true ∧ 5 ≤ i.length ∧ i.length ≤ 15 ∧ i.length ≤ bs.length ∧ rest = bs.drop i.length

/-- Words written out in the spec (R172, R174, R177, R204, R205, R208, R92) decode to the instruction it names. -/
def Obligations.SpecWordsDecode : Prop :=
  decode [0xC4#8, 0xE2#8, 0xE9#8, 0x9C#8, 0xCB#8] =
      .instr (.vfnmadd132pdXmmVex [] 1#4 2#4 (.reg 3#4)) [] ∧
  decode [0xC4#8, 0x42#8, 0xB1#8, 0xBC#8, 0xC2#8] =
      .instr (.vfnmadd231pdXmmVex [] 8#4 9#4 (.reg 10#4)) [] ∧
  decode [0xC4#8, 0x02#8, 0xED#8, 0xBC#8, 0x8C#8, 0xC8#8, 0x78#8, 0x56#8, 0x34#8, 0x12#8] =
      .instr (.vfnmadd231pdYmmVex [] 9#4 2#4
        (.mem (.sib 8#4 (some { reg := 9#4, scale := 3#2 }) (.disp32 0x12345678#32)))) [] ∧
  decode [0x62#8, 0xF2#8, 0xED#8, 0xAD#8, 0xAC#8, 0x48#8, 0x01#8] =
      .instr (.vfnmadd213pdYmmEvex [] (.zeroing .k5) 1#5 2#5 (.mem (.base 0#4 (.disp8 1#8)))) [] ∧
  decode [0x62#8, 0xA2#8, 0xED#8, 0x21#8, 0xBC#8, 0xCB#8] =
      .instr (.vfnmadd231pdYmmEvex [] (.merging .k1) 17#5 18#5 (.reg 19#5)) [] ∧
  decode [0x62#8, 0xF2#8, 0xED#8, 0xF9#8, 0xBC#8, 0xCB#8] =
      .instr (.vfnmadd231pdZmmEvex [] (.zeroing .k1) 1#5 2#5 (.rounded 3#5 .toZero)) []

/-- R112 ("illegal"), R114, R90, R93, R96: in 64-bit mode an EVEX prefix with a reserved field is #UD; with the row's
other fields right, so is zeroing without a mask, and L'L = 11 where it is a vector length. `tail` is ModRM and what
follows it. -/
def Obligations.IllegalEvexIsUndefinedOpcode : Prop :=
  ∀ (s : State) (p : List LegacyPrefix) (p0 p1 p2 op : Byte) (tail : List Byte) (m : BitVec 3 × RawOp3 × List Byte),
    in64BitMode s = true →
    fetchWindow s = p.map LegacyPrefix.byte ++ 0x62#8 :: p0 :: p1 :: p2 :: op :: tail →
    takeModRM (!p0.getLsbD 6) (!p0.getLsbD 5) tail = some m →
    (p0 &&& 0x0C#8 ≠ 0#8 ∨ p1 &&& 0x04#8 = 0#8 → step s = raiseUD s) ∧
    (p0 &&& 0x0F#8 = 0x02#8 → p1 &&& 0x87#8 = 0x85#8 → op = 0x9C#8 ∨ op = 0xAC#8 ∨ op = 0xBC#8 →
      (p2 &&& 0x87#8 = 0x80#8 → step s = raiseUD s) ∧
      (p2 &&& 0x60#8 = 0x60#8 → ¬(p2 &&& 0x10#8 = 0x10#8 ∧ ∃ rm, m.2.1 = .reg rm) → step s = raiseUD s))

/-- R86, R97, R234(d): a 66h, F2h, F3h, F0h or REX byte immediately before the C4h or 62h of a row's encoding is #UD. So it
is when other prefix bytes stand between or before: the model's reading of R111 ("any other prefix byte there is
excluded"), R66 and R114 (DEDUCED, log 13). `pre` is prefix bytes of either kind, and `i` may have prefixes too. -/
def Obligations.ExcludedPrefixIsUndefinedOpcode : Prop :=
  ∀ (s : State) (pre : List Byte) (b : Byte) (i : Instr) (rest : List Byte),
    in64BitMode s = true →
    (∀ c ∈ pre, c ∈ [0x26#8, 0x2E#8, 0x36#8, 0x3E#8, 0x64#8, 0x65#8, 0x67#8, 0x66#8, 0xF2#8, 0xF3#8, 0xF0#8] ∨
      c &&& 0xF0#8 = 0x40#8) →
    (b = 0x66#8 ∨ b = 0xF2#8 ∨ b = 0xF3#8 ∨ b = 0xF0#8 ∨ b &&& 0xF0#8 = 0x40#8) →
    i.wf = true →
    fetchWindow s = pre ++ b :: (encode i ++ rest) →
    step s = raiseUD s

/-- R85, R97 (first sentence), R112 ("other"), R114: a VEX or EVEX encoding with W = 0 (the single-precision sibling and
its neighbours), another opcode map, another opcode byte or another pp is refused, not #UD; of an EVEX prefix the
reserved fields have to be right (R112). -/
def Obligations.NeighbouringEncodingsRefused : Prop :=
  ∀ (s : State) (p : List LegacyPrefix) (tail : List Byte), in64BitMode s = true →
    (∀ b1 b2 op : Byte,
      fetchWindow s = p.map LegacyPrefix.byte ++ 0xC4#8 :: b1 :: b2 :: op :: tail →
      b2 &&& 0x80#8 = 0#8 ∨ b1 &&& 0x1F#8 ≠ 0x02#8 ∨ ¬(op = 0x9C#8 ∨ op = 0xAC#8 ∨ op = 0xBC#8) ∨
        b2 &&& 0x03#8 ≠ 0x01#8 →
      step s = .refused (.notOfThisSpec s.rip)) ∧
    ∀ p0 p1 p2 op : Byte,
      fetchWindow s = p.map LegacyPrefix.byte ++ 0x62#8 :: p0 :: p1 :: p2 :: op :: tail →
      p0 &&& 0x0C#8 = 0#8 → p1 &&& 0x04#8 ≠ 0#8 →
      p1 &&& 0x80#8 = 0#8 ∨ p0 &&& 0x03#8 ≠ 0x02#8 ∨ ¬(op = 0x9C#8 ∨ op = 0xAC#8 ∨ op = 0xBC#8) ∨
        p1 &&& 0x03#8 ≠ 0x01#8 →
      step s = .refused (.notOfThisSpec s.rip)

/-- R112 ("else: other"), R256: bytes that after the legacy prefixes start with neither C4h nor 62h nor a byte that
R86 and R97 exclude are refused. -/
def Obligations.OtherOpcodeRefused : Prop :=
  ∀ (s : State) (p : List LegacyPrefix) (b : Byte) (tail : List Byte),
    in64BitMode s = true →
    fetchWindow s = p.map LegacyPrefix.byte ++ b :: tail →
    b ≠ 0xC4#8 → b ≠ 0x62#8 → prefixItem b = none →
    step s = .refused (.notOfThisSpec s.rip)

/-- R110: an encoding longer than 15 bytes raises #GP(0); it has at least five legacy prefixes. That it does so also where
its 16th byte could not be fetched is the model's choice (DESIGN CHOICE, log 22). -/
def Obligations.LongerThanFifteenBytesIsProtectionFault : Prop :=
  ∀ (s : State) (i : Instr),
    in64BitMode s = true → i.op3Wf = true → 15 < i.length →
    fetchWindow s = (encode i).take 15 →
    step s = raiseGP s ∧ 5 ≤ (parts i).p.length

/-! ## Fetching (20_memory.md R67) -/

/-- R112, R67: when the bytes at RIP decode to an instruction, a step is that instruction's meaning; nothing is added
around it (RIP is moved by the meaning itself, R170). -/
def Obligations.StepRunsDecoded : Prop :=
  ∀ (s : State) (i : Instr) (rest : List Byte),
    in64BitMode s = true → decode (fetchWindow s) = .instr i rest → step s = exec i s

/-- R67: when a well-formed instruction's bytes stand at RIP, every one canonical and executable, a step runs it. -/
def Obligations.EncodedInstructionRuns : Prop :=
  ∀ (s : State) (i : Instr),
    in64BitMode s = true → i.wf = true →
    (∀ j, j < i.length →
      canonical s.cpu.linearWidth (s.rip + BitVec.ofNat 64 j) = true ∧
      executable s (s.rip + BitVec.ofNat 64 j) = true ∧
      some (readByte s (s.rip + BitVec.ofNat 64 j)) = (encode i)[j]?) →
    step s = exec i s

/-- R67, R239, R240: the first byte of a well-formed instruction that cannot be fetched gives #GP(0) if its address is
not canonical, else #PF at that address. That the first bad byte decides, an earlier #PF before a later #GP, is the
model's choice (DESIGN CHOICE, log 14). -/
def Obligations.FetchFaultAtFirstUnreadableByte : Prop :=
  ∀ (s : State) (i : Instr) (n : Nat),
    in64BitMode s = true → i.wf = true → n < i.length →
    (∀ j, j < n →
      canonical s.cpu.linearWidth (s.rip + BitVec.ofNat 64 j) = true ∧
      executable s (s.rip + BitVec.ofNat 64 j) = true ∧
      some (readByte s (s.rip + BitVec.ofNat 64 j)) = (encode i)[j]?) →
    (canonical s.cpu.linearWidth (s.rip + BitVec.ofNat 64 n) = false → step s = raiseGP s) ∧
    (canonical s.cpu.linearWidth (s.rip + BitVec.ofNat 64 n) = true →
      executable s (s.rip + BitVec.ofNat 64 n) = false →
      step s = raisePF s (s.rip + BitVec.ofNat 64 n))

/-! ## Reset and launch (10_state.md R39; 70_reset_and_hazards.md R273) -/

/-- R39: the table of reset values in both columns, and its consequence that straight out of reset every encoding
raises #UD. RDX holds the processor signature, of which the spec gives no number; memory is unspecified. The model's
choices in it: the signature is 32 bits wide and zero-extended (log 2), CD and NW are bits 30 and 29 of CR0 (log 6), and
INIT is a function of the state that no step applies (log 18). -/
def Obligations.ResetAndInitValues : Prop :=
  (∀ r, readVec State.reset r = 0#512) ∧ (∀ k, readOpmask State.reset k = 0#64) ∧
  State.reset.mxcsr = 0x1F80#32 ∧
  (∀ r, r ≠ 2#4 → readGpr State.reset r = 0#64) ∧
  readGpr State.reset 2#4 = Config.processorSignature.setWidth 64 ∧
  State.reset.rip = 0xFFF0#64 ∧ State.reset.csBase = 0xFFFF0000#64 ∧ State.reset.rflags = 2#64 ∧
  State.reset.cr0 = 0x60000010#64 ∧ State.reset.cr4 = 0#64 ∧ State.reset.xcr0 = 1#64 ∧ State.reset.efer = 0#64 ∧
  State.reset.fsBase = 0#64 ∧ State.reset.gsBase = 0#64 ∧
  (∀ i, exec i State.reset = raiseUD State.reset) ∧
  ∀ s : State,
    (∀ r, readVec s.afterInit r = readVec s r) ∧ (∀ k, readOpmask s.afterInit k = readOpmask s k) ∧
    s.afterInit.mxcsr = s.mxcsr ∧ (∀ r, readGpr s.afterInit r = readGpr State.reset r) ∧
    s.afterInit.rip = 0xFFF0#64 ∧ s.afterInit.csBase = 0xFFFF0000#64 ∧ s.afterInit.rflags = 2#64 ∧
    (∀ n, s.afterInit.cr0.getLsbD n =
      if n = 29 ∨ n = 30 then s.cr0.getLsbD n else (0x60000010#64).getLsbD n) ∧
    s.afterInit.cr4 = 0#64 ∧ s.afterInit.xcr0 = s.xcr0 ∧ s.afterInit.efer = 0#64 ∧
    s.afterInit.fsBase = 0#64 ∧ s.afterInit.gsBase = 0#64 ∧ ∀ a, readByte s.afterInit a = readByte s a

/-- R273, R234-R237: in a state that meets the launch premise every instruction passes the gate, at any privilege level;
it is not refused, and it raises no #UD, no #NM and no #AC: what it can raise is #SS, #GP, #PF or #XM. -/
def Obligations.LaunchedStateEnablesAll : Prop :=
  ∀ (s : State) (i : Instr), launched s = true →
    gate s (isEvex i) (featuresPresent s.cpu i) = none ∧
    (∀ r, exec i s ≠ .refused r) ∧
    ∀ q left, exec i s = .fault (.exception q left) →
      q.exception = .stackSegment ∨ q.exception = .generalProtection ∨ q.exception = .pageFault ∨
        q.exception = .simdFloatingPoint

/-! ## The gate (60_exceptions.md R234-R237) -/

/-- R234(a)-(c), R235(a), R123: in real-address and virtual-8086 mode every instruction is #UD, and so it is in 64-bit
mode when CR4.OSXSAVE = 0, XCR0[2:1] is not 11b, or, for the EVEX rows, XCR0[7:5] is not 111b. In the modes that are not
modelled (D1 of 92_eei_decisions.md, log 7) it is refused. -/
def Obligations.UndefinedOpcodeConditions : Prop :=
  ∀ (s : State) (i : Instr),
    (modeOf s = .otherProtected →
      exec i s = .refused (.modeNotModelled s.rip) ∧ step s = .refused (.modeNotModelled s.rip)) ∧
    (modeOf s = .realAddress ∨ modeOf s = .virtual8086 → exec i s = raiseUD s) ∧
    (in64BitMode s = true →
      s.cr4.getLsbD 18 = false ∨ ¬(s.xcr0.getLsbD 1 = true ∧ s.xcr0.getLsbD 2 = true) ∨
        (isEvex i = true ∧
          ¬(s.xcr0.getLsbD 5 = true ∧ s.xcr0.getLsbD 6 = true ∧ s.xcr0.getLsbD 7 = true)) →
      exec i s = raiseUD s)

/-- R236: a row executes only if its feature flags are set, otherwise #UD: FMA for the VEX rows, AVX512VL and AVX512F
for the EVEX rows of 128 and 256 bits, AVX512F for those of 512 bits, with embedded rounding too. -/
def Obligations.MissingFeatureIsUndefinedOpcode : Prop :=
  ∀ s : State, modeOf s ≠ .otherProtected →
    (∀ k l p dst src2 op3, s.cpu.hasFMA = false → exec (Instr.vex k l p dst src2 op3) s = raiseUD s) ∧
    (∀ k l p mask dst src2 op3, l = .l128 ∨ l = .l256 →
      ¬(s.cpu.hasAVX512VL = true ∧ s.cpu.hasAVX512F = true) →
      exec (Instr.evex k l p mask dst src2 op3) s = raiseUD s) ∧
    (∀ k p mask dst src2 op3, s.cpu.hasAVX512F = false →
      exec (Instr.evex k .l512 p mask dst src2 op3) s = raiseUD s) ∧
    (∀ k p mask dst src2 r rc, s.cpu.hasAVX512F = false →
      exec (Instr.evexRounded k p mask dst src2 r rc) s = raiseUD s)

/-- R237: #NM if CR0.TS = 1, after the #UD checks and before any memory access: whatever the memory operand is. -/
def Obligations.TaskSwitchedIsDeviceNotAvailable : Prop :=
  ∀ (s : State) (i : Instr), executable64 s i = true → s.cr0.getLsbD 3 = true → exec i s = raiseNM s

/-! ## Memory operands (20_memory.md) -/

/-- R51: an operand of `n` lanes read from memory is the little-endian value of its bytes, lane `j` being the eight
bytes from `a + 8j`, least significant first, lane 0 at the lowest address. -/
def Obligations.MemoryOperandIsLittleEndian : Prop :=
  ∀ (s : State) (a : Word) (n : Nat), n ≤ 8 →
    (packLanes ((List.range n).map (vectorElement s a))).toNat =
      ((List.range (8 * n)).map fun t => (readByte s (a + BitVec.ofNat 64 t)).toNat * 2 ^ (8 * t)).sum ∧
    ∀ j, j < n → (vectorElement s a j).toNat =
      ((List.range 8).map fun t => (readByte s (a + BitVec.ofNat 64 (8 * j + t))).toNat * 2 ^ (8 * t)).sum

/-- R57: the later of 64h and 65h selects FS or GS, null prefixes after it cancel nothing; without them the segment is
SS for a base register RSP or RBP, else DS; the linear address adds FS.base, GS.base or 0. -/
def Obligations.SegmentOfAccess : Prop :=
  ∀ (s : State) (m : MemAddr) (n ilen : Nat) (p q : List LegacyPrefix), .fs ∉ q → .gs ∉ q →
    segmentOf (p ++ .fs :: q) m = .fs ∧ segmentOf (p ++ .gs :: q) m = .gs ∧
    (segmentOf q m = .ss ↔
      ∃ d i, m = .base 4#4 d ∨ m = .base 5#4 d ∨ m = .sib 4#4 i d ∨ m = .sib 5#4 i d) ∧
    (segmentOf q m ≠ .ss → segmentOf q m = .ds) ∧
    linearAddress s (p ++ .fs :: q) n ilen m = effectiveAddress s (p ++ .fs :: q) n ilen m + s.fsBase ∧
    linearAddress s (p ++ .gs :: q) n ilen m = effectiveAddress s (p ++ .gs :: q) n ilen m + s.gsBase ∧
    linearAddress s q n ilen m = effectiveAddress s q n ilen m

/-- R55, R56, R59, R108: the effective address with 64-bit address size, term by term and modulo 2^64, in every form:
base, index times 1, 2, 4 or 8 or no index, and the displacement, none, a disp8 multiplied by its factor, or a disp32;
without a base; RIP-relative. -/
def Obligations.EffectiveAddressTerms : Prop :=
  ∀ (s : State) (p : List LegacyPrefix) (n ilen : Nat), .addressSize ∉ p →
    (∀ r d, effectiveAddress s p n ilen (.base r d) = BitVec.ofInt 64 ((readGpr s r).toNat + dispInt n d)) ∧
    (∀ b x d, effectiveAddress s p n ilen (.sib b x d) =
      BitVec.ofInt 64 ((readGpr s b).toNat + indexNat s x + dispInt n d)) ∧
    (∀ x d, effectiveAddress s p n ilen (.sibNoBase x d) = BitVec.ofInt 64 (indexNat s x + d.toInt)) ∧
    (∀ d, effectiveAddress s p n ilen (.ripRelative d) = BitVec.ofInt 64 (s.rip.toNat + ilen + d.toInt))

/-- R58: under a 67h prefix the address is formed modulo 2^32 from the low 32 bits of the same registers, and is
zero-extended. -/
def Obligations.AddressSizeOverride : Prop :=
  ∀ (s : State) (p : List LegacyPrefix) (n ilen : Nat), .addressSize ∈ p →
    (∀ b r sc d, effectiveAddress s p n ilen (.sib b (some { reg := r, scale := sc }) d) =
      (((readGpr s b).setWidth 32 + ((readGpr s r).setWidth 32 <<< sc.toNat) + (dispValue n d).setWidth 32 :
        BitVec 32)).setWidth 64) ∧
    (∀ b d, effectiveAddress s p n ilen (.sib b none d) =
      ((readGpr s b).setWidth 32 + (dispValue n d).setWidth 32 : BitVec 32).setWidth 64) ∧
    (∀ r sc d, effectiveAddress s p n ilen (.sibNoBase (some { reg := r, scale := sc }) d) =
      (((readGpr s r).setWidth 32 <<< sc.toNat) + d : BitVec 32).setWidth 64) ∧
    (∀ d, effectiveAddress s p n ilen (.sibNoBase none d) = d.setWidth 64) ∧
    (∀ b d, effectiveAddress s p n ilen (.base b d) =
      ((readGpr s b).setWidth 32 + (dispValue n d).setWidth 32 : BitVec 32).setWidth 64) ∧
    (∀ d, effectiveAddress s p n ilen (.ripRelative d) =
      ((s.rip + BitVec.ofNat 64 ilen).setWidth 32 + d : BitVec 32).setWidth 64)

/-- R62: an address is canonical when bits 63 : ADDR_BITS-1 are equal, ADDR_BITS being 48 or 57; a non-canonical byte of
an accessed element raises #SS(0) when the base is RSP or RBP and no 64h or 65h prefix stands there, whatever null
prefixes do, else #GP(0). -/
def Obligations.NonCanonicalOperandFaults : Prop :=
  (∀ a : Word,
    (canonical .bits48 a = true ↔ ∀ n, 47 ≤ n → n < 64 → a.getLsbD n = a.getLsbD 63) ∧
    (canonical .bits57 a = true ↔ ∀ n, 56 ≤ n → n < 64 → a.getLsbD n = a.getLsbD 63)) ∧
  ∀ (s : State) (i : Instr) (m : MemAddr) (t : Nat),
    enabled s i = true → memOperand i = some m → accesses s i t →
    canonical s.cpu.linearWidth (operandAddress s i m + BitVec.ofNat 64 t) = false →
    ((∃ d x, m = .base 4#4 d ∨ m = .base 5#4 d ∨ m = .sib 4#4 x d ∨ m = .sib 5#4 x d) →
      .fs ∉ (parts i).p → .gs ∉ (parts i).p → exec i s = raiseSS s) ∧
    ((¬∃ d x, m = .base 4#4 d ∨ m = .base 5#4 d ∨ m = .sib 4#4 x d ∨ m = .sib 5#4 x d) ∨
      .fs ∈ (parts i).p ∨ .gs ∈ (parts i).p → exec i s = raiseGP s)

/-- R63, R64, R240: with every accessed byte canonical and some not accessible, #PF is raised. CR2 is, of the
lowest-addressed accessed element with an inaccessible byte, the lowest inaccessible byte's address (D8 of
92_eei_decisions.md), also where the operand wraps at 2^64. An element is a lane of 8 bytes, in VEX forms too (log 20). -/
def Obligations.InaccessibleOperandPageFaults : Prop :=
  ∀ (s : State) (i : Instr) (m : MemAddr) (la a : Word) (t : Nat),
    enabled s i = true → memOperand i = some m → la = operandAddress s i m → accesses s i t →
    (∀ u, accesses s i u → canonical s.cpu.linearWidth (la + BitVec.ofNat 64 u) = true) →
    a = la + BitVec.ofNat 64 t → readable s a = false →
    (∀ u, accesses s i u → readable s (la + BitVec.ofNat 64 u) = false →
      (la + BitVec.ofNat 64 (8 * (t / 8))).toNat ≤ (la + BitVec.ofNat 64 (8 * (u / 8))).toNat ∧
      (u / 8 = t / 8 → a.toNat ≤ (la + BitVec.ofNat 64 u).toNat)) →
    ∃ r left, exec i s = .fault (.exception r left) ∧ r.exception = .pageFault ∧ r.vector = 14 ∧
      r.rip = s.rip ∧ r.cr2 = some a ∧ left = { s with cr2 := a, freeCount := s.freeCount + 1 }

/-! ## What each form computes (41_vex_forms.md, 42_evex_forms.md) -/

/-- R170-R178, R180: each of the six VEX rows with a register operand 3 completes when enabled and no lane has an
unmasked condition: every lane by MXCSR.RC, zeros above, flags reported. -/
def Obligations.VexRegisterFormsComplete : Prop :=
  ∀ (k : Kind) (l : VexLength) (p : List LegacyPrefix) (dst src2 r : BitVec 4) (s : State) (kl : Nat)
    (f : Nat → LaneResult),
    kl = (match l with | .l128 => 2 | .l256 => 4) →
    (∀ j, f j = laneOf k s.mxcsr (mxRC s.mxcsr) false (lane (readVec s (vexReg dst)) j)
      (lane (readVec s (vexReg src2)) j) (lane (readVec s (vexReg r)) j)) →
    enabled s (Instr.vex k l p dst src2 (.reg r)) = true →
    (∀ j, j < kl → unmasked s.mxcsr (f j).flags = false) →
    completesWith (Instr.vex k l p dst src2 (.reg r)) s (vexReg dst) kl (fun _ => true) false f true (p.length + 5)

/-- R170-R178, R52, R53, R64: the same with operand 3 in memory, at any alignment. -/
def Obligations.VexMemoryFormsComplete : Prop :=
  ∀ (k : Kind) (l : VexLength) (p : List LegacyPrefix) (dst src2 : BitVec 4) (m : MemAddr) (s : State) (kl : Nat)
    (la : Word) (f : Nat → LaneResult),
    kl = (match l with | .l128 => 2 | .l256 => 4) →
    la = linearAddress s p 1 (p.length + 5 + m.length) m →
    (∀ j, f j = laneOf k s.mxcsr (mxRC s.mxcsr) false (lane (readVec s (vexReg dst)) j)
      (lane (readVec s (vexReg src2)) j) (readWord s (la + BitVec.ofNat 64 (8 * j)))) →
    enabled s (Instr.vex k l p dst src2 (.mem m)) = true →
    alignCheckOn s = false →
    (∀ t, t < 8 * kl → canonical s.cpu.linearWidth (la + BitVec.ofNat 64 t) = true ∧
      readable s (la + BitVec.ofNat 64 t) = true) →
    (∀ j, j < kl → unmasked s.mxcsr (f j).flags = false) →
    completesWith (Instr.vex k l p dst src2 (.mem m)) s (vexReg dst) kl (fun _ => true) false f true
      (p.length + 5 + m.length)

/-- R190, R191, R194, R197, R200-R208: each of the nine EVEX rows with a register operand 3 and no embedded rounding
completes when enabled and no active lane has an unmasked condition. -/
def Obligations.EvexRegisterFormsComplete : Prop :=
  ∀ (k : Kind) (l : EvexLength) (p : List LegacyPrefix) (mask : Masking) (dst src2 r : BitVec 5) (s : State) (kl : Nat)
    (active : Nat → Bool) (f : Nat → LaneResult),
    kl = (match l with | .l128 => 2 | .l256 => 4 | .l512 => 8) →
    (∀ j, active j = match mask with
      | .unmasked => true
      | .merging q => (readOpmask s q.bits).getLsbD j
      | .zeroing q => (readOpmask s q.bits).getLsbD j) →
    (∀ j, f j = laneOf k s.mxcsr (mxRC s.mxcsr) false (lane (readVec s dst) j) (lane (readVec s src2) j)
      (lane (readVec s r) j)) →
    enabled s (Instr.evex k l p mask dst src2 (.reg r)) = true →
    (∀ j, j < kl → active j = true → unmasked s.mxcsr (f j).flags = false) →
    completesWith (Instr.evex k l p mask dst src2 (.reg r)) s dst kl active (isZeroing mask) f true (p.length + 6)

/-- R192, R193, R61, R108: the same with operand 3 in memory; only the elements of active lanes have to be readable,
and a disp8 is scaled by the operand's size. -/
def Obligations.EvexMemoryFormsComplete : Prop :=
  ∀ (k : Kind) (l : EvexLength) (p : List LegacyPrefix) (mask : Masking) (dst src2 : BitVec 5) (m : MemAddr) (s : State)
    (kl : Nat) (active : Nat → Bool) (la : Word) (f : Nat → LaneResult),
    kl = (match l with | .l128 => 2 | .l256 => 4 | .l512 => 8) →
    (∀ j, active j = match mask with
      | .unmasked => true
      | .merging q => (readOpmask s q.bits).getLsbD j
      | .zeroing q => (readOpmask s q.bits).getLsbD j) →
    la = linearAddress s p (8 * kl) (p.length + 6 + m.length) m →
    (∀ j, f j = laneOf k s.mxcsr (mxRC s.mxcsr) false (lane (readVec s dst) j) (lane (readVec s src2) j)
      (readWord s (la + BitVec.ofNat 64 (8 * j)))) →
    enabled s (Instr.evex k l p mask dst src2 (.mem m)) = true →
    alignCheckOn s = false →
    (∀ j t, j < kl → active j = true → t < 8 →
      canonical s.cpu.linearWidth (la + BitVec.ofNat 64 (8 * j + t)) = true ∧
      readable s (la + BitVec.ofNat 64 (8 * j + t)) = true) →
    (∀ j, j < kl → active j = true → unmasked s.mxcsr (f j).flags = false) →
    completesWith (Instr.evex k l p mask dst src2 (.mem m)) s dst kl active (isZeroing mask) f true
      (p.length + 6 + m.length)

/-- R192, R193, R61, R108: the same with one broadcast element, read only if some lane is active; a disp8 is scaled by
8. -/
def Obligations.EvexBroadcastFormsComplete : Prop :=
  ∀ (k : Kind) (l : EvexLength) (p : List LegacyPrefix) (mask : Masking) (dst src2 : BitVec 5) (m : MemAddr) (s : State)
    (kl : Nat) (active : Nat → Bool) (la : Word) (f : Nat → LaneResult),
    kl = (match l with | .l128 => 2 | .l256 => 4 | .l512 => 8) →
    (∀ j, active j = match mask with
      | .unmasked => true
      | .merging q => (readOpmask s q.bits).getLsbD j
      | .zeroing q => (readOpmask s q.bits).getLsbD j) →
    la = linearAddress s p 8 (p.length + 6 + m.length) m →
    (∀ j, f j = laneOf k s.mxcsr (mxRC s.mxcsr) false (lane (readVec s dst) j) (lane (readVec s src2) j)
      (readWord s la)) →
    enabled s (Instr.evex k l p mask dst src2 (.broadcast m)) = true →
    alignCheckOn s = false →
    (∀ j t, j < kl → active j = true → t < 8 →
      canonical s.cpu.linearWidth (la + BitVec.ofNat 64 t) = true ∧ readable s (la + BitVec.ofNat 64 t) = true) →
    (∀ j, j < kl → active j = true → unmasked s.mxcsr (f j).flags = false) →
    completesWith (Instr.evex k l p mask dst src2 (.broadcast m)) s dst kl active (isZeroing mask) f true
      (p.length + 6 + m.length)

/-- R195, R196: each of the three EVEX.512 rows with embedded rounding completes when enabled, whatever the operands
and the mask bits of MXCSR are: every active lane rounded by EVEX.RC as if all conditions were masked, MXCSR
unchanged. -/
def Obligations.EmbeddedRoundingFormsComplete : Prop :=
  ∀ (k : Kind) (p : List LegacyPrefix) (mask : Masking) (dst src2 r : BitVec 5) (rc : Rounding) (s : State)
    (active : Nat → Bool) (f : Nat → LaneResult),
    (∀ j, active j = match mask with
      | .unmasked => true
      | .merging q => (readOpmask s q.bits).getLsbD j
      | .zeroing q => (readOpmask s q.bits).getLsbD j) →
    (∀ j, f j = laneOf k s.mxcsr rc true (lane (readVec s dst) j) (lane (readVec s src2) j) (lane (readVec s r) j)) →
    enabled s (Instr.evexRounded k p mask dst src2 r rc) = true →
    completesWith (Instr.evexRounded k p mask dst src2 r rc) s dst 8 active (isZeroing mask) f false (p.length + 6)

/-- R245: with all conditions masked, any of the fifteen rows in any form raises nothing: it completes, each active lane
delivers the lane function's result, and MXCSR gains the OR over the active lanes of their flags (none under embedded
rounding, R196). -/
def Obligations.AllMaskedCompletes : Prop :=
  allMasked State.reset.mxcsr = true ∧
  ∀ (s : State) (i : Instr),
    enabled s i = true → allMasked s.mxcsr = true → operandOk s i →
    completesWith i s (parts i).dst (parts i).lanes (activeLane s i) (isZeroing (parts i).mask) (outcome s i)
      (parts i).rounding.isNone i.length

/-- R211, R61: with an all-zero mask an EVEX form whose gate passes reads no memory and sets no flag, wherever its
operand points: merging leaves the lanes below KL and zeroes the bits above, zeroing makes the destination 0. -/
def Obligations.AllZeroMaskReadsNothing : Prop :=
  ∀ (s : State) (i : Instr),
    enabled s i = true → (∀ j, j < (parts i).lanes → activeLane s i j = false) →
    ∃ t, exec i s = .next t ∧ t.mxcsr = s.mxcsr ∧ t.rip = s.rip + BitVec.ofNat 64 i.length ∧ sameElsewhere s t ∧
      (∀ r, r ≠ (parts i).dst → readVec t r = readVec s r) ∧
      (isZeroing (parts i).mask = true → readVec t (parts i).dst = 0#512) ∧
      (isZeroing (parts i).mask = false → ∀ j, j < 8 →
        lane (readVec t (parts i).dst) j =
          if j < (parts i).lanes then lane (readVec s (parts i).dst) j else 0#64)

/-- R178: whenever a VEX form completes, the bits of the destination above its vector length are 0. -/
def Obligations.VexZeroesUpperBits : Prop :=
  ∀ (k : Kind) (p : List LegacyPrefix) (dst src2 : BitVec 4) (op3 : VexOp3) (s t : State),
    (exec (Instr.vex k .l128 p dst src2 op3) s = .next t →
      ∀ n, 128 ≤ n → (readVec t (vexReg dst)).getLsbD n = false) ∧
    (exec (Instr.vex k .l256 p dst src2 op3) s = .next t →
      ∀ n, 256 ≤ n → (readVec t (vexReg dst)).getLsbD n = false)

/-- R197: the same for every EVEX form, masked or not, merging or zeroing; with an all-zero mask and merging the low
lanes are unchanged; at 512 bits there are no bits above. -/
def Obligations.EvexZeroesUpperBits : Prop :=
  (∀ (k : Kind) (l : EvexLength) (p : List LegacyPrefix) (mask : Masking) (dst src2 : BitVec 5) (op3 : EvexOp3)
      (s t : State) (kl : Nat),
    kl = (match l with | .l128 => 2 | .l256 => 4 | .l512 => 8) →
    exec (Instr.evex k l p mask dst src2 op3) s = .next t →
    (∀ n, 64 * kl ≤ n → (readVec t dst).getLsbD n = false) ∧
    (isZeroing mask = false → (∀ j, j < kl → laneActive s mask j = false) →
      ∀ j, j < kl → lane (readVec t dst) j = lane (readVec s dst) j)) ∧
  ∀ (k : Kind) (p : List LegacyPrefix) (mask : Masking) (dst src2 r : BitVec 5) (rc : Rounding) (s t : State),
    exec (Instr.evexRounded k p mask dst src2 r rc) s = .next t →
    isZeroing mask = false → (∀ j, j < 8 → laneActive s mask j = false) → readVec t dst = readVec s dst

/-- R210: an EVEX.128 or EVEX.256 form without mask, with register numbers below 16, gives the same destination and
MXCSR as the VEX form with the same opcode and operands, and the same RIP but for the lengths; in memory form, when
both operands lie at the same linear address. -/
def Obligations.EvexAgreesWithVex : Prop :=
  ∀ (k : Kind) (p : List LegacyPrefix) (dst src2 r : BitVec 4) (m m' : MemAddr) (s t : State) (l : VexLength)
    (l' : EvexLength),
    (l = .l128 ∧ l' = .l128) ∨ (l = .l256 ∧ l' = .l256) →
    enabled s (Instr.evex k l' p .unmasked (vexReg dst) (vexReg src2) (.reg (vexReg r))) = true →
    (exec (Instr.vex k l p dst src2 (.reg r)) s = .next t →
      exec (Instr.evex k l' p .unmasked (vexReg dst) (vexReg src2) (.reg (vexReg r))) s =
        .next { t with rip := s.rip + BitVec.ofNat 64 (p.length + 6) }) ∧
    (linearAddress s p 1 (p.length + 5 + m.length) m =
        linearAddress s p (match l with | .l128 => 16 | .l256 => 32) (p.length + 6 + m'.length) m' →
      alignCheckOn s = false →
      exec (Instr.vex k l p dst src2 (.mem m)) s = .next t →
      exec (Instr.evex k l' p .unmasked (vexReg dst) (vexReg src2) (.mem m')) s =
        .next { t with rip := s.rip + BitVec.ofNat 64 (p.length + 6 + m'.length) })

/-! ## Floating-point exceptions (60_exceptions.md R242-R248) -/

/-- R244, R242: outside embedded rounding, an unmasked Invalid or Denormal condition in an active lane raises #XM with
exactly the pre-computation flags of all active lanes added to MXCSR, and nothing else changed. -/
def Obligations.UnmaskedPreComputationRaises : Prop :=
  ∀ (s : State) (i : Instr) (j : Nat),
    enabled s i = true → operandOk s i → (parts i).rounding = none → s.cr4.getLsbD 10 = true →
    j < (parts i).lanes → activeLane s i j = true →
    ((outcome s i j).flags.ie = true ∧ s.mxcsr.getLsbD 7 = false) ∨
      ((outcome s i j).flags.de = true ∧ s.mxcsr.getLsbD 8 = false) →
    ∃ mx : BitVec 32,
      exec i s = raise .simdFloatingPoint none none { s with mxcsr := mx } ∧
      ∀ n, mx.getLsbD n = (s.mxcsr.getLsbD n ||
        (decide (n ≤ 1) && reported (parts i).lanes (activeLane s i) (outcome s i) n))

/-- R244, R242: with no unmasked pre-computation condition, an unmasked Overflow, Underflow or Precision condition in an
active lane raises #XM with the flags of all active lanes added to MXCSR, and nothing else changed. -/
def Obligations.UnmaskedPostComputationRaises : Prop :=
  ∀ (s : State) (i : Instr) (j : Nat),
    enabled s i = true → operandOk s i → (parts i).rounding = none → s.cr4.getLsbD 10 = true →
    (∀ u, u < (parts i).lanes → activeLane s i u = true →
      ¬((outcome s i u).flags.ie = true ∧ s.mxcsr.getLsbD 7 = false) ∧
      ¬((outcome s i u).flags.de = true ∧ s.mxcsr.getLsbD 8 = false)) →
    j < (parts i).lanes → activeLane s i j = true →
    ((outcome s i j).flags.oe = true ∧ s.mxcsr.getLsbD 10 = false) ∨
      ((outcome s i j).flags.ue = true ∧ s.mxcsr.getLsbD 11 = false) ∨
      ((outcome s i j).flags.pe = true ∧ s.mxcsr.getLsbD 12 = false) →
    ∃ mx : BitVec 32,
      exec i s = raise .simdFloatingPoint none none { s with mxcsr := mx } ∧
      ∀ n, mx.getLsbD n = (s.mxcsr.getLsbD n || reported (parts i).lanes (activeLane s i) (outcome s i) n)

/-- R242 (second sentence), D13 of 92_eei_decisions.md, log 9: with CR4.OSXMMEXCPT = 0 an unmasked condition raises #UD
instead; MXCSR keeps its old flags and may gain any others, and bits 31:6 do not change. -/
def Obligations.UnmaskedWithoutOsSupportIsUndefinedOpcode : Prop :=
  ∀ (s : State) (i : Instr) (j : Nat),
    enabled s i = true → operandOk s i → (parts i).rounding = none → s.cr4.getLsbD 10 = false →
    j < (parts i).lanes → activeLane s i j = true → unmasked s.mxcsr (outcome s i j).flags = true →
    ∃ mx : BitVec 32,
      exec i s = raise .invalidOpcode none none { s with mxcsr := mx, freeCount := s.freeCount + 1 } ∧
      ∀ n, (s.mxcsr.getLsbD n = true → mx.getLsbD n = true) ∧ (6 ≤ n → mx.getLsbD n = s.mxcsr.getLsbD n)

/-- R247: under embedded rounding MXCSR is unchanged and no #XM can occur. -/
def Obligations.SuppressedExceptionsLeaveMxcsr : Prop :=
  ∀ (k : Kind) (p : List LegacyPrefix) (mask : Masking) (dst src2 r : BitVec 5) (rc : Rounding) (s : State),
    (∀ t, exec (Instr.evexRounded k p mask dst src2 r rc) s = .next t → t.mxcsr = s.mxcsr) ∧
    ∀ q left, exec (Instr.evexRounded k p mask dst src2 r rc) s = .fault (.exception q left) →
      left.mxcsr = s.mxcsr ∧ q.exception ≠ .simdFloatingPoint

/-- R248, R170: what stands in the inactive lanes of the operands of an EVEX register form changes neither MXCSR nor
any active lane, nor whether the instruction completes. -/
def Obligations.InactiveLanesDoNotMatter : Prop :=
  ∀ (k : Kind) (l : EvexLength) (p : List LegacyPrefix) (mask : Masking) (dst src2 r : BitVec 5) (s t : State)
    (v : Vector Vec 32),
    (∀ j, laneActive s mask j = true → ∀ q, q = dst ∨ q = src2 ∨ q = r →
      lane (readVec { s with vec := v } q) j = lane (readVec s q) j) →
    exec (Instr.evex k l p mask dst src2 (.reg r)) s = .next t →
    ∃ t', exec (Instr.evex k l p mask dst src2 (.reg r)) { s with vec := v } = .next t' ∧
      t'.mxcsr = t.mxcsr ∧ t'.rip = t.rip ∧
      ∀ j, j < 8 → laneActive s mask j = true → lane (readVec t' dst) j = lane (readVec t dst) j

/-- R198, R24: opmask bits at positions KL and above, and all opmask registers but the selected one, are ignored; no
opmask register is modified. -/
def Obligations.OtherMaskBitsAreIgnored : Prop :=
  ∀ (s t : State) (i : Instr) (ks : Vector Word 8),
    (∀ j, j < (parts i).lanes → activeLane { s with opmask := ks } i j = activeLane s i j) →
    exec i s = .next t →
    t.opmask = s.opmask ∧ exec i { s with opmask := ks } = .next { t with opmask := ks }

/-- R254, R36: the instructions execute identically at every privilege level; only access permissions and alignment
checking depend on it. -/
def Obligations.PrivilegeLevelDoesNotMatter : Prop :=
  ∀ (s t : State) (i : Instr) (c : BitVec 2),
    exec i s = .next t → operandOk { s with cpl := c } i →
    exec i { s with cpl := c } = .next { t with cpl := c }

/-! ## Whole-machine rules -/

/-- R33, R36, R37, R68, R28, R30, R22: the frame of all fifteen rows in every form. When an instruction completes,
every register but the destination is unchanged, bits 31:6 and bit 2 of MXCSR are unchanged and its other flags
sticky, RIP has moved by the length, and every other register and every byte of memory is unchanged. -/
def Obligations.CompletionFrame : Prop :=
  ∀ (i : Instr) (s t : State), exec i s = .next t →
    (∀ r, r ≠ destination i → readVec t r = readVec s r) ∧
    (∀ n, n = 2 ∨ 6 ≤ n → t.mxcsr.getLsbD n = s.mxcsr.getLsbD n) ∧
    (∀ n, s.mxcsr.getLsbD n = true → t.mxcsr.getLsbD n = true) ∧
    t.rip = s.rip + BitVec.ofNat 64 i.length ∧
    sameElsewhere s t

/-- R249, R281: every fault of a step is precise. The report names the instruction's first byte; all registers and
memory are as before, but CR2 and the model's counter of free values for #PF, and the sticky flags of MXCSR for #XM
(and, log 9, they and the counter for a #UD with CR4.OSXMMEXCPT = 0, which an #XM may have turned into). -/
def Obligations.FaultsArePrecise : Prop :=
  ∀ (s : State) (q : Report) (left : State), step s = .fault (.exception q left) →
    q.rip = s.rip ∧ left.rip = s.rip ∧ left.vec = s.vec ∧ left.opmask = s.opmask ∧ left.gpr = s.gpr ∧
    left.mem = s.mem ∧ (∀ a, readByte left a = readByte s a) ∧
    left = { s with mxcsr := left.mxcsr, cr2 := left.cr2, freeCount := left.freeCount } ∧
    (q.exception ≠ .pageFault → left.cr2 = s.cr2) ∧
    (q.exception = .pageFault → q.cr2 = some left.cr2) ∧
    (∀ n, s.mxcsr.getLsbD n = true → left.mxcsr.getLsbD n = true) ∧
    (∀ n, 6 ≤ n → left.mxcsr.getLsbD n = s.mxcsr.getLsbD n) ∧
    (q.exception ≠ .simdFloatingPoint → (q.exception = .invalidOpcode → s.cr4.getLsbD 10 = true) →
      left.mxcsr = s.mxcsr) ∧
    (q.exception ≠ .pageFault → (q.exception = .invalidOpcode → s.cr4.getLsbD 10 = true) →
      left.freeCount = s.freeCount)

/-- R230: every exception that a step reports has the vector and the error code of the table, and CR2 exactly for #PF;
a #PF is reported as a read (bit 1 of its code, W/R, is 0 by R240). That bit's place and the code's width of 32 bits are
PRESUMED (log 10). -/
def Obligations.ReportsFollowExceptionTable : Prop :=
  ∀ (s : State) (q : Report) (left : State), step s = .fault (.exception q left) →
    (q.exception = .invalidOpcode ∧ q.vector = 6 ∧ q.errorCode = none ∧ q.cr2 = none) ∨
    (q.exception = .deviceNotAvailable ∧ q.vector = 7 ∧ q.errorCode = none ∧ q.cr2 = none) ∨
    (q.exception = .stackSegment ∧ q.vector = 12 ∧ q.errorCode = some 0#32 ∧ q.cr2 = none) ∨
    (q.exception = .generalProtection ∧ q.vector = 13 ∧ q.errorCode = some 0#32 ∧ q.cr2 = none) ∨
    (q.exception = .pageFault ∧ q.vector = 14 ∧
      (∃ c : BitVec 32, q.errorCode = some c ∧ c.getLsbD 1 = false) ∧ q.cr2.isSome = true) ∨
    (q.exception = .alignmentCheck ∧ q.vector = 17 ∧ q.errorCode = some 0#32 ∧ q.cr2 = none ∧
      alignCheckOn s = true) ∨
    (q.exception = .simdFloatingPoint ∧ q.vector = 19 ∧ q.errorCode = none ∧ q.cr2 = none ∧
      s.cr4.getLsbD 10 = true)

/-- The invariant `State.inv` (canonical memory; MXCSR[31:16] = 0, R27; no content where a processor without AVX512F
has no storage, R20) is kept by every step, in the next state and in the state that a fault leaves. -/
def Obligations.InvariantKeptByEveryStep : Prop :=
  ∀ s : State, s.inv →
    (∀ t, step s = .next t → t.inv) ∧
    ∀ q left, step s = .fault (.exception q left) → left.inv

/-- `State.inv` holds after reset. -/
def Obligations.ResetMeetsInvariant : Prop := State.reset.inv

/-- R256, R68, R28: a run that ends `Completed` ends with RIP at the end address, with the memory, general registers,
opmask registers and control registers it started with, and with every flag of MXCSR that was set still set. -/
def Obligations.CompletedRunFrame : Prop :=
  ∀ (e : Word) (n : Nat) (s t : State), runTo e n s = .completed t →
    t.rip = e ∧ sameElsewhere s t ∧ (∀ b, s.mxcsr.getLsbD b = true → t.mxcsr.getLsbD b = true) ∧
    (∀ b, 6 ≤ b → t.mxcsr.getLsbD b = s.mxcsr.getLsbD b)

/-! ## The lane arithmetic (40_lane_arithmetic.md) -/

/-- R136: with DAZ each denormal operand is replaced, before anything else, by a zero of its sign, and raises no DE. -/
def Obligations.DenormalsAreZeros : Prop :=
  ∀ (x y z : Word) (rc : Rounding) (ftz um om : Bool) (g : Word → Word),
    (∀ v, g v = if expField v = 0 ∧ fracField v ≠ 0 then (if v.getLsbD 63 then 0x8000000000000000#64 else 0#64) else v) →
    fnmadd64 x y z rc true ftz um om = fnmadd64 (g x) (g y) (g z) rc false ftz um om ∧
    (fnmadd64 x y z rc true ftz um om).flags.de = false ∧
    (isInf x = true → isDenormal y = true → isNaN z = false →
      fnmadd64 x y z rc true ftz um om =
        { result := some 0xFFF8000000000000#64, flags := { FpFlags.none with ie := true } })

/-- R137: with a NaN operand the result is the first NaN in the order x, y, z with bit 51 set, the only flag is IE,
set when some operand is an SNaN; per mnemonic the order is op1 op3 op2, op2 op1 op3, op2 op3 op1. -/
def Obligations.NanSelection : Prop :=
  (∀ (x y z : Word) (rc : Rounding) (daz ftz um om : Bool), isNaN x = true ∨ isNaN y = true ∨ isNaN z = true →
    fnmadd64 x y z rc daz ftz um om =
      { result := some ((if isNaN x then x else if isNaN y then y else z) ||| 0x0008000000000000#64)
        flags := { FpFlags.none with ie := isSNaN x || isSNaN y || isSNaN z } }) ∧
  (∀ (m : BitVec 32) (rc : Rounding) (sae : Bool) (a b c : Word),
    (isNaN a = true → (laneOf .k132 m rc sae a b c).result = some (a ||| 0x0008000000000000#64)) ∧
    (isNaN a = false → isNaN c = true →
      (laneOf .k132 m rc sae a b c).result = some (c ||| 0x0008000000000000#64)) ∧
    (isNaN a = false → isNaN c = false → isNaN b = true →
      (laneOf .k132 m rc sae a b c).result = some (b ||| 0x0008000000000000#64)) ∧
    (isNaN b = true →
      (laneOf .k213 m rc sae a b c).result = some (b ||| 0x0008000000000000#64) ∧
      (laneOf .k231 m rc sae a b c).result = some (b ||| 0x0008000000000000#64)) ∧
    (isNaN b = false → isNaN a = true →
      (laneOf .k213 m rc sae a b c).result = some (a ||| 0x0008000000000000#64)) ∧
    (isNaN b = false → isNaN a = false → isNaN c = true →
      (laneOf .k213 m rc sae a b c).result = some (c ||| 0x0008000000000000#64)) ∧
    (isNaN b = false → isNaN c = true →
      (laneOf .k231 m rc sae a b c).result = some (c ||| 0x0008000000000000#64)) ∧
    (isNaN b = false → isNaN c = false → isNaN a = true →
      (laneOf .k231 m rc sae a b c).result = some (a ||| 0x0008000000000000#64)))

/-- R138: infinity times zero, and an infinite negated product with an infinity of the opposite sign, give the
indefinite QNaN and the flag IE alone. -/
def Obligations.InvalidOperations : Prop :=
  ∀ (x y z : Word) (rc : Rounding) (daz ftz um om : Bool) (x' y' : Word),
    x' = dazReplace daz x → y' = dazReplace daz y →
    isNaN x = false → isNaN y = false → isNaN z = false →
    (isInf x = true ∧ isZero y' = true) ∨ (isZero x' = true ∧ isInf y = true) ∨
      (((isInf x = true ∧ isZero y' = false) ∨ (isInf y = true ∧ isZero x' = false)) ∧ isInf z = true ∧
        z.getLsbD 63 ≠ !(x.getLsbD 63 ^^ y.getLsbD 63)) →
    fnmadd64 x y z rc daz ftz um om =
      { result := some 0xFFF8000000000000#64, flags := { FpFlags.none with ie := true } }

/-- R139: with an infinity, no NaN and no invalid operation, the result is the infinity of the negated product's sign,
else z, with no flag but DE for a denormal operand. -/
def Obligations.InfiniteResults : Prop :=
  ∀ (x y z : Word) (rc : Rounding) (daz ftz um om : Bool) (sp : Bool),
    sp = !(x.getLsbD 63 ^^ y.getLsbD 63) →
    isNaN x = false → isNaN y = false → isNaN z = false →
    (isInf x = true → isZero (dazReplace daz y) = false) → (isInf y = true → isZero (dazReplace daz x) = false) →
    (isInf x = true ∨ isInf y = true → (isInf z = true → z.getLsbD 63 = sp) →
      fnmadd64 x y z rc daz ftz um om =
        { result := some (if sp then 0xFFF0000000000000#64 else 0x7FF0000000000000#64)
          flags := { FpFlags.none with de := !daz && (isDenormal x || isDenormal y || isDenormal z) } }) ∧
    (isInf x = false → isInf y = false → isInf z = true →
      fnmadd64 x y z rc daz ftz um om =
        { result := some z
          flags := { FpFlags.none with de := !daz && (isDenormal x || isDenormal y || isDenormal z) } })

/-- R141: an exact zero has the sign of both when a zero product and a zero addend agree in sign, else it is -0 when
rounding down and +0 otherwise; no flag but DE. The operands are those after DAZ (R136). -/
def Obligations.ExactZeroResults : Prop :=
  ∀ (x y z : Word) (rc : Rounding) (daz ftz um om : Bool) (x' y' z' : Word) (sp : Bool),
    x' = dazReplace daz x → y' = dazReplace daz y → z' = dazReplace daz z →
    sp = !(x.getLsbD 63 ^^ y.getLsbD 63) →
    isFinite x = true → isFinite y = true → isFinite z = true → exactValue x' y' z' = 0 →
    fnmadd64 x y z rc daz ftz um om =
      { result := some (
          if value x' * value y' = 0 ∧ value z' = 0 ∧ sp = z.getLsbD 63 then
            (if sp then 0x8000000000000000#64 else 0#64)
          else if rc = .down then 0x8000000000000000#64 else 0#64)
        flags := { FpFlags.none with de := isDenormal x' || isDenormal y' || isDenormal z' } }

/-- R142, directed modes, R143(c), R146: with finite operands, a nonzero exact value, no overflow and no flush, rounding
down gives the greatest finite number not above the exact value, rounding up the least not below it, rounding toward
zero the nearest to zero of the two. -/
def Obligations.DirectedRoundingIsCorrect : Prop :=
  ∀ (x y z w : Word) (rc : Rounding) (ftz um om : Bool),
    isFinite x = true → isFinite y = true → isFinite z = true → exactValue x y z ≠ 0 →
    (fnmadd64 x y z rc false ftz um om).result = some w →
    (fnmadd64 x y z rc false ftz um om).flags.oe = false →
    ftz = false ∨ (fnmadd64 x y z rc false ftz um om).flags.ue = false →
    isFinite w = true ∧
    (rc = .down ∨ (rc = .toZero ∧ 0 < exactValue x y z) →
      value w ≤ exactValue x y z ∧ ∀ v, isFinite v = true → value v ≤ exactValue x y z → value v ≤ value w) ∧
    (rc = .up ∨ (rc = .toZero ∧ exactValue x y z < 0) →
      exactValue x y z ≤ value w ∧ ∀ v, isFinite v = true → exactValue x y z ≤ value v → value w ≤ value v)

/-- R142, rc = 00, R143(c), R146: under the same conditions rounding to nearest gives a finite number at the least
distance, and when another is as near the one with an even significand. -/
def Obligations.NearestRoundingIsCorrect : Prop :=
  ∀ (x y z w : Word) (ftz um om : Bool),
    isFinite x = true → isFinite y = true → isFinite z = true → exactValue x y z ≠ 0 →
    (fnmadd64 x y z .nearest false ftz um om).result = some w →
    (fnmadd64 x y z .nearest false ftz um om).flags.oe = false →
    ftz = false ∨ (fnmadd64 x y z .nearest false ftz um om).flags.ue = false →
    isFinite w = true ∧
    (∀ v, isFinite v = true → |value w - exactValue x y z| ≤ |value v - exactValue x y z|) ∧
    ∀ v, isFinite v = true → value v ≠ value w →
      |value v - exactValue x y z| = |value w - exactValue x y z| → w.getLsbD 0 = false

/-- R142, R143, R145, R146: with finite operands and a finite result, PE is set exactly when the result is not the
exact value. -/
def Obligations.PrecisionFlagIffInexact : Prop :=
  ∀ (x y z w : Word) (rc : Rounding) (ftz um om : Bool),
    isFinite x = true → isFinite y = true → isFinite z = true →
    (fnmadd64 x y z rc false ftz um om).result = some w → isFinite w = true →
    ((fnmadd64 x y z rc false ftz um om).flags.pe = true ↔ value w ≠ exactValue x y z)

/-- R145: an exact value of magnitude 2^1024 or more overflows, and so does one above the largest finite number
2^1024 - 2^971 that the 53-bit rounding takes to 2^1024: to nearest from 2^1024 - 2^970 on, down when negative, up when
positive, toward zero never. Unmasked: no result and no PE; masked: OE and PE, with the infinity or the largest finite
number as the rounding control and the sign say. Any other magnitude does not overflow; between the largest finite number
and 2^1024 the result is then the largest finite number of its sign, with PE. -/
def Obligations.OverflowResults : Prop :=
  ∀ (x y z : Word) (rc : Rounding) (ftz um om : Bool) (t : ℚ) (up : Prop),
    isFinite x = true → isFinite y = true → isFinite z = true → t = exactValue x y z →
    (up ↔ (rc = .nearest ∧ 2 ^ 1024 - 2 ^ 970 ≤ |t|) ∨ (rc = .down ∧ t < 0) ∨ (rc = .up ∧ 0 < t)) →
    (2 ^ 1024 ≤ |t| ∨ (2 ^ 1024 - 2 ^ 971 < |t| ∧ up) →
      (fnmadd64 x y z rc false ftz um om).flags.oe = true ∧
      (fnmadd64 x y z rc false ftz um om).flags.ue = false ∧
      (fnmadd64 x y z rc false ftz um om).flags.pe = om ∧
      (fnmadd64 x y z rc false ftz um om).result =
        if om then
          some (if t < 0
            then (if rc = .nearest ∨ rc = .down then 0xFFF0000000000000#64 else 0xFFEFFFFFFFFFFFFF#64)
            else (if rc = .nearest ∨ rc = .up then 0x7FF0000000000000#64 else 0x7FEFFFFFFFFFFFFF#64))
        else none) ∧
    (|t| ≤ value 0x7FEFFFFFFFFFFFFF#64 → (fnmadd64 x y z rc false ftz um om).flags.oe = false) ∧
    (2 ^ 1024 - 2 ^ 971 < |t| → |t| < 2 ^ 1024 → ¬up →
      (fnmadd64 x y z rc false ftz um om).flags.oe = false ∧
      (fnmadd64 x y z rc false ftz um om).flags.ue = false ∧
      (fnmadd64 x y z rc false ftz um om).flags.pe = true ∧
      (fnmadd64 x y z rc false ftz um om).result =
        some (if t < 0 then 0xFFEFFFFFFFFFFFFF#64 else 0x7FEFFFFFFFFFFFFF#64))

/-- R143, R144: tininess is detected after rounding to 53 bits. A nonzero exact value of magnitude below 2^-1022 is tiny
unless it lies above 2^-1022 - 2^-1075 and that rounding takes it to 2^-1022: to nearest from 2^-1022 - 2^-1076 on, down
when negative, up when positive, toward zero never. Tiny and unmasked: nothing is delivered, UE without PE; masked with
FTZ: a zero of its sign, UE and PE; masked without FTZ: UE and PE together, exactly when inexact. Rounded to 2^-1022 it
is not tiny: that number of its sign, PE without UE, whatever FTZ and the masks are. A magnitude of 2^-1022 or more is not
tiny. -/
def Obligations.UnderflowResults : Prop :=
  ∀ (x y z : Word) (rc : Rounding) (ftz um om : Bool) (t : ℚ) (up : Prop),
    isFinite x = true → isFinite y = true → isFinite z = true → t = exactValue x y z →
    (up ↔ (2 : ℚ) ^ (-1022 : ℤ) - (2 : ℚ) ^ (-1075 : ℤ) < |t| ∧
      ((rc = .nearest ∧ (2 : ℚ) ^ (-1022 : ℤ) - (2 : ℚ) ^ (-1076 : ℤ) ≤ |t|) ∨ (rc = .down ∧ t < 0) ∨
        (rc = .up ∧ 0 < t))) →
    (t ≠ 0 → |t| < (2 : ℚ) ^ (-1022 : ℤ) → ¬up →
      (fnmadd64 x y z rc false ftz um om).flags.oe = false ∧
      (um = false → (fnmadd64 x y z rc false ftz um om).result = none ∧
        (fnmadd64 x y z rc false ftz um om).flags.ue = true ∧
        (fnmadd64 x y z rc false ftz um om).flags.pe = false) ∧
      (um = true → ftz = true →
        (fnmadd64 x y z rc false ftz um om).result = some (if t < 0 then 0x8000000000000000#64 else 0#64) ∧
        (fnmadd64 x y z rc false ftz um om).flags.ue = true ∧
        (fnmadd64 x y z rc false ftz um om).flags.pe = true) ∧
      (um = true → ftz = false → ∃ w, (fnmadd64 x y z rc false ftz um om).result = some w ∧
        ((fnmadd64 x y z rc false ftz um om).flags.ue = true ↔ value w ≠ t) ∧
        ((fnmadd64 x y z rc false ftz um om).flags.pe = true ↔ value w ≠ t))) ∧
    (|t| < (2 : ℚ) ^ (-1022 : ℤ) → up →
      (fnmadd64 x y z rc false ftz um om).flags.oe = false ∧
      (fnmadd64 x y z rc false ftz um om).flags.ue = false ∧
      (fnmadd64 x y z rc false ftz um om).flags.pe = true ∧
      (fnmadd64 x y z rc false ftz um om).result =
        some (if t < 0 then 0x8010000000000000#64 else 0x0010000000000000#64)) ∧
    ((2 : ℚ) ^ (-1022 : ℤ) ≤ |t| → (fnmadd64 x y z rc false ftz um om).flags.ue = false)

/-- R147: DE is set exactly when DAZ is 0, an operand is a denormal, no operand is a NaN and the operation is not
invalid. -/
def Obligations.DenormalFlagIff : Prop :=
  ∀ (x y z : Word) (rc : Rounding) (daz ftz um om : Bool),
    (fnmadd64 x y z rc daz ftz um om).flags.de = true ↔
      daz = false ∧ (isDenormal x = true ∨ isDenormal y = true ∨ isDenormal z = true) ∧
      ¬(isNaN x = true ∨ isNaN y = true ∨ isNaN z = true) ∧
      ¬((isInf x = true ∧ isZero y = true) ∨ (isZero x = true ∧ isInf y = true) ∨
        ((isInf x = true ∨ isInf y = true) ∧ isInf z = true ∧
          z.getLsbD 63 ≠ !(x.getLsbD 63 ^^ y.getLsbD 63)))

/-- R131(d)-(f): a delivered result is a NaN exactly when an operand is one or the operation is invalid; IE exactly when
an operand is an SNaN or the operation is invalid; exchanging the factors changes nothing unless both are NaNs, and then
it can. -/
def Obligations.NanInvalidAndSymmetry : Prop :=
  (∀ (x y z w : Word) (rc : Rounding) (daz ftz um om : Bool) (x' y' : Word) (bad : Prop),
    x' = dazReplace daz x → y' = dazReplace daz y →
    (bad ↔ ¬(isNaN x = true ∨ isNaN y = true ∨ isNaN z = true) ∧
      ((isInf x = true ∧ isZero y' = true) ∨ (isZero x' = true ∧ isInf y = true) ∨
        ((isInf x = true ∨ isInf y = true) ∧ isInf z = true ∧
          z.getLsbD 63 ≠ !(x.getLsbD 63 ^^ y.getLsbD 63)))) →
    ((fnmadd64 x y z rc daz ftz um om).flags.ie = true ↔
      (isSNaN x = true ∨ isSNaN y = true ∨ isSNaN z = true) ∨ bad) ∧
    ((fnmadd64 x y z rc daz ftz um om).result = some w →
      (isNaN w = true ↔ (isNaN x = true ∨ isNaN y = true ∨ isNaN z = true) ∨ bad))) ∧
  (∀ (x y z : Word) (rc : Rounding) (daz ftz um om : Bool), ¬(isNaN x = true ∧ isNaN y = true) →
    fnmadd64 x y z rc daz ftz um om = fnmadd64 y x z rc daz ftz um om) ∧
  ∃ (x y z : Word) (rc : Rounding) (daz ftz um om : Bool),
    fnmadd64 x y z rc daz ftz um om ≠ fnmadd64 y x z rc daz ftz um om

/-- R151, R132, R142: worked values of the spec: 2, 3, 5 under the three mnemonics, the fused witness, and the rounding
witness 1 - 2^-60. -/
def Obligations.WorkedLaneValues : Prop :=
  laneOf .k132 0x1F80#32 .nearest false 0x4000000000000000#64 0x4008000000000000#64 0x4014000000000000#64 =
      { result := some 0xC01C000000000000#64, flags := .none } ∧
  laneOf .k213 0x1F80#32 .nearest false 0x4000000000000000#64 0x4008000000000000#64 0x4014000000000000#64 =
      { result := some 0xBFF0000000000000#64, flags := .none } ∧
  laneOf .k231 0x1F80#32 .nearest false 0x4000000000000000#64 0x4008000000000000#64 0x4014000000000000#64 =
      { result := some 0xC02A000000000000#64, flags := .none } ∧
  fnmadd64 0x3FF0000000000001#64 0x3FF0000000000001#64 0x3FF0000000000002#64 .nearest false false true true =
      { result := some 0xB970000000000000#64, flags := .none } ∧
  fnmadd64 0x3C30000000000000#64 0x3FF0000000000000#64 0x3FF0000000000000#64 .nearest false false true true =
      { result := some 0x3FF0000000000000#64, flags := { FpFlags.none with pe := true } } ∧
  fnmadd64 0x3C30000000000000#64 0x3FF0000000000000#64 0x3FF0000000000000#64 .toZero false false true true =
      { result := some 0x3FEFFFFFFFFFFFFF#64, flags := { FpFlags.none with pe := true } }
end

