-- ==== Sys2Proof/Laws/Flags.lean ====
section
/-! SUPPORT. Flag sets and `SignalFP`: what the flags of a union are, that bits 31:6 and ZE of MXCSR never change, and
the three ways `SignalFP` ends. -/

namespace Sys2Proof.Machine

/-! ## Unions -/

@[simp] theorem unionFlags_nil : unionFlags [] = FpFlags.none := rfl

@[simp] theorem unionFlags_cons (f : FpFlags) (l : List FpFlags) : unionFlags (f :: l) = f.union (unionFlags l) := rfl

theorem unionFlags_ie (l : List FpFlags) : (unionFlags l).ie = l.any FpFlags.ie := by
  induction l with
  | nil => rfl
  | cons f l ih => simp [FpFlags.union, ih]

theorem unionFlags_de (l : List FpFlags) : (unionFlags l).de = l.any FpFlags.de := by
  induction l with
  | nil => rfl
  | cons f l ih => simp [FpFlags.union, ih]

theorem unionFlags_oe (l : List FpFlags) : (unionFlags l).oe = l.any FpFlags.oe := by
  induction l with
  | nil => rfl
  | cons f l ih => simp [FpFlags.union, ih]

theorem unionFlags_ue (l : List FpFlags) : (unionFlags l).ue = l.any FpFlags.ue := by
  induction l with
  | nil => rfl
  | cons f l ih => simp [FpFlags.union, ih]

theorem unionFlags_pe (l : List FpFlags) : (unionFlags l).pe = l.any FpFlags.pe := by
  induction l with
  | nil => rfl
  | cons f l ih => simp [FpFlags.union, ih]

/-- The flags of a set are its pre-computation and its post-computation flags. -/
theorem bits_eq_pre_or_post (f : FpFlags) : f.bits = f.pre.bits ||| f.post.bits := by
  obtain ⟨a, b, c, d, e⟩ := f
  revert a b c d e
  decide

/-- A condition of a union is unmasked when that of a member is. -/
theorem unmasked_union (m : BitVec 32) (f g : FpFlags) : unmasked m (f.union g) = (unmasked m f || unmasked m g) := by
  obtain ⟨a, b, c, d, e⟩ := f
  obtain ⟨a', b', c', d', e'⟩ := g
  simp only [unmasked, FpFlags.union]
  cases mxIM m <;> cases mxDM m <;> cases mxOM m <;> cases mxUM m <;> cases mxPM m <;> simp <;> ac_rfl

theorem unmasked_unionFlags (m : BitVec 32) (l : List FpFlags) : unmasked m (unionFlags l) = l.any (unmasked m) := by
  induction l with
  | nil => simp [unmasked, FpFlags.none]
  | cons f l ih => simp [unmasked_union, ih]

/-- A set has an unmasked condition when its pre-computation or its post-computation part has. -/
theorem unmasked_eq_pre_or_post (m : BitVec 32) (f : FpFlags) :
    unmasked m f = (unmasked m f.pre || unmasked m f.post) := by
  obtain ⟨a, b, c, d, e⟩ := f
  simp only [unmasked, FpFlags.pre, FpFlags.post, FpFlags.none]
  simp [Bool.or_assoc]

/-! ## Bits of MXCSR -/

/-- Flag bits lie in MXCSR[5:0], and ZE (bit 2) is none of them (R27, R131(g)). -/
theorem bits_getLsbD_of_not_flag (f : FpFlags) (i : Nat) (h : i = 2 ∨ 6 ≤ i) : f.bits.getLsbD i = false := by
  by_cases hi : i < 32
  · obtain ⟨a, b, c, d, e⟩ := f
    have : ∀ i : Fin 32, (i.val = 2 ∨ 6 ≤ i.val) → ∀ a b c d e : Bool,
        (FpFlags.bits { ie := a, de := b, oe := c, ue := d, pe := e }).getLsbD i = false := by decide
    exact this ⟨i, hi⟩ h a b c d e
  · exact BitVec.getLsbD_of_ge _ _ (by omega)

/-! ## The three ways `SignalFP` ends (R244) -/

/-- What `SignalFP` leaves in MXCSR is the old value with flag bits of R27 added. -/
theorem signalFP_fst (m : BitVec 32) (l : List FpFlags) : ∃ f : FpFlags, (signalFP m l).1 = m ||| f.bits := by
  by_cases h : unmasked m (unionFlags l).pre = true
  · exact ⟨_, by rw [signalFP, if_pos h]⟩
  · exact ⟨unionFlags l, by
      rw [signalFP, if_neg h, bits_eq_pre_or_post (unionFlags l), BitVec.or_assoc]⟩

theorem signalFP_of_pre {m : BitVec 32} {l : List FpFlags} (h : unmasked m (unionFlags l).pre = true) :
    signalFP m l = (m ||| (unionFlags l).pre.bits, true) := by
  rw [signalFP, if_pos h]

theorem signalFP_of_not_pre {m : BitVec 32} {l : List FpFlags} (h : unmasked m (unionFlags l).pre = false) :
    signalFP m l = (m ||| (unionFlags l).bits, unmasked m (unionFlags l).post) := by
  rw [signalFP, h, bits_eq_pre_or_post (unionFlags l), BitVec.or_assoc]
  simp

/-- No lane has an unmasked condition: all flags are set and nothing is raised (R245). -/
theorem signalFP_of_masked {m : BitVec 32} {l : List FpFlags} (h : ∀ f ∈ l, unmasked m f = false) :
    signalFP m l = (m ||| (unionFlags l).bits, false) := by
  have hu : unmasked m (unionFlags l) = false := by
    rw [unmasked_unionFlags]
    simpa using h
  rw [unmasked_eq_pre_or_post, Bool.or_eq_false_iff] at hu
  rw [signalFP_of_not_pre hu.1, hu.2]

/-- Nothing is raised exactly when no lane has an unmasked condition. -/
theorem signalFP_snd_eq_false (m : BitVec 32) (l : List FpFlags) :
    (signalFP m l).2 = false ↔ ∀ f ∈ l, unmasked m f = false := by
  have key : (signalFP m l).2 = unmasked m (unionFlags l) := by
    rw [unmasked_eq_pre_or_post]
    by_cases h : unmasked m (unionFlags l).pre = true
    · rw [signalFP_of_pre h, h, Bool.true_or]
    · rw [Bool.not_eq_true] at h
      rw [signalFP_of_not_pre h, h, Bool.false_or]
  rw [key, unmasked_unionFlags]
  simp

end Sys2Proof.Machine
end

