-- ==== Sys2Proof/Laws/State.lean ====
section
/-! SUPPORT. One lemma per field of State per named update, so that no proof unfolds a record update. -/

namespace Sys2Proof.Machine

/-! ## `writeVec` -/

@[simp] theorem writeVec_vec (s : State) (r : BitVec 5) (v : Vec) : (writeVec s r v).vec = s.vec.set r.toNat v r.isLt := rfl
@[simp] theorem writeVec_opmask (s : State) (r : BitVec 5) (v : Vec) : (writeVec s r v).opmask = s.opmask := rfl
@[simp] theorem writeVec_mxcsr (s : State) (r : BitVec 5) (v : Vec) : (writeVec s r v).mxcsr = s.mxcsr := rfl
@[simp] theorem writeVec_rip (s : State) (r : BitVec 5) (v : Vec) : (writeVec s r v).rip = s.rip := rfl
@[simp] theorem writeVec_gpr (s : State) (r : BitVec 5) (v : Vec) : (writeVec s r v).gpr = s.gpr := rfl
@[simp] theorem writeVec_fsBase (s : State) (r : BitVec 5) (v : Vec) : (writeVec s r v).fsBase = s.fsBase := rfl
@[simp] theorem writeVec_gsBase (s : State) (r : BitVec 5) (v : Vec) : (writeVec s r v).gsBase = s.gsBase := rfl
@[simp] theorem writeVec_rflags (s : State) (r : BitVec 5) (v : Vec) : (writeVec s r v).rflags = s.rflags := rfl
@[simp] theorem writeVec_cr0 (s : State) (r : BitVec 5) (v : Vec) : (writeVec s r v).cr0 = s.cr0 := rfl
@[simp] theorem writeVec_cr2 (s : State) (r : BitVec 5) (v : Vec) : (writeVec s r v).cr2 = s.cr2 := rfl
@[simp] theorem writeVec_cr4 (s : State) (r : BitVec 5) (v : Vec) : (writeVec s r v).cr4 = s.cr4 := rfl
@[simp] theorem writeVec_xcr0 (s : State) (r : BitVec 5) (v : Vec) : (writeVec s r v).xcr0 = s.xcr0 := rfl
@[simp] theorem writeVec_efer (s : State) (r : BitVec 5) (v : Vec) : (writeVec s r v).efer = s.efer := rfl
@[simp] theorem writeVec_csSelector (s : State) (r : BitVec 5) (v : Vec) : (writeVec s r v).csSelector = s.csSelector := rfl
@[simp] theorem writeVec_csBase (s : State) (r : BitVec 5) (v : Vec) : (writeVec s r v).csBase = s.csBase := rfl
@[simp] theorem writeVec_csL (s : State) (r : BitVec 5) (v : Vec) : (writeVec s r v).csL = s.csL := rfl
@[simp] theorem writeVec_cpl (s : State) (r : BitVec 5) (v : Vec) : (writeVec s r v).cpl = s.cpl := rfl
@[simp] theorem writeVec_mem (s : State) (r : BitVec 5) (v : Vec) : (writeVec s r v).mem = s.mem := rfl
@[simp] theorem writeVec_access (s : State) (r : BitVec 5) (v : Vec) : (writeVec s r v).access = s.access := rfl
@[simp] theorem writeVec_cpu (s : State) (r : BitVec 5) (v : Vec) : (writeVec s r v).cpu = s.cpu := rfl
@[simp] theorem writeVec_freeCount (s : State) (r : BitVec 5) (v : Vec) : (writeVec s r v).freeCount = s.freeCount := rfl

/-! ## `PackedOp.complete` -/

@[simp] theorem complete_vec (o : PackedOp) (s : State) (m : BitVec 32) : (o.complete s m).vec = s.vec.set o.dst.toNat (o.newVec s) o.dst.isLt := rfl
@[simp] theorem complete_opmask (o : PackedOp) (s : State) (m : BitVec 32) : (o.complete s m).opmask = s.opmask := rfl
@[simp] theorem complete_mxcsr (o : PackedOp) (s : State) (m : BitVec 32) : (o.complete s m).mxcsr = m := rfl
@[simp] theorem complete_rip (o : PackedOp) (s : State) (m : BitVec 32) : (o.complete s m).rip = s.rip + BitVec.ofNat 64 o.ilen := rfl
@[simp] theorem complete_gpr (o : PackedOp) (s : State) (m : BitVec 32) : (o.complete s m).gpr = s.gpr := rfl
@[simp] theorem complete_fsBase (o : PackedOp) (s : State) (m : BitVec 32) : (o.complete s m).fsBase = s.fsBase := rfl
@[simp] theorem complete_gsBase (o : PackedOp) (s : State) (m : BitVec 32) : (o.complete s m).gsBase = s.gsBase := rfl
@[simp] theorem complete_rflags (o : PackedOp) (s : State) (m : BitVec 32) : (o.complete s m).rflags = s.rflags := rfl
@[simp] theorem complete_cr0 (o : PackedOp) (s : State) (m : BitVec 32) : (o.complete s m).cr0 = s.cr0 := rfl
@[simp] theorem complete_cr2 (o : PackedOp) (s : State) (m : BitVec 32) : (o.complete s m).cr2 = s.cr2 := rfl
@[simp] theorem complete_cr4 (o : PackedOp) (s : State) (m : BitVec 32) : (o.complete s m).cr4 = s.cr4 := rfl
@[simp] theorem complete_xcr0 (o : PackedOp) (s : State) (m : BitVec 32) : (o.complete s m).xcr0 = s.xcr0 := rfl
@[simp] theorem complete_efer (o : PackedOp) (s : State) (m : BitVec 32) : (o.complete s m).efer = s.efer := rfl
@[simp] theorem complete_csSelector (o : PackedOp) (s : State) (m : BitVec 32) : (o.complete s m).csSelector = s.csSelector := rfl
@[simp] theorem complete_csBase (o : PackedOp) (s : State) (m : BitVec 32) : (o.complete s m).csBase = s.csBase := rfl
@[simp] theorem complete_csL (o : PackedOp) (s : State) (m : BitVec 32) : (o.complete s m).csL = s.csL := rfl
@[simp] theorem complete_cpl (o : PackedOp) (s : State) (m : BitVec 32) : (o.complete s m).cpl = s.cpl := rfl
@[simp] theorem complete_mem (o : PackedOp) (s : State) (m : BitVec 32) : (o.complete s m).mem = s.mem := rfl
@[simp] theorem complete_access (o : PackedOp) (s : State) (m : BitVec 32) : (o.complete s m).access = s.access := rfl
@[simp] theorem complete_cpu (o : PackedOp) (s : State) (m : BitVec 32) : (o.complete s m).cpu = s.cpu := rfl
@[simp] theorem complete_freeCount (o : PackedOp) (s : State) (m : BitVec 32) : (o.complete s m).freeCount = s.freeCount := rfl

/-! ## `State.launch` -/

@[simp] theorem launch_vec (s : State) : (s.launch).vec = s.vec := rfl
@[simp] theorem launch_opmask (s : State) : (s.launch).opmask = s.opmask := rfl
@[simp] theorem launch_mxcsr (s : State) : (s.launch).mxcsr = s.mxcsr := rfl
@[simp] theorem launch_rip (s : State) : (s.launch).rip = s.rip := rfl
@[simp] theorem launch_gpr (s : State) : (s.launch).gpr = s.gpr := rfl
@[simp] theorem launch_fsBase (s : State) : (s.launch).fsBase = s.fsBase := rfl
@[simp] theorem launch_gsBase (s : State) : (s.launch).gsBase = s.gsBase := rfl
@[simp] theorem launch_rflags (s : State) : (s.launch).rflags = s.rflags := rfl
@[simp] theorem launch_cr0 (s : State) : (s.launch).cr0 = (s.cr0 ||| 1#64) &&& ~~~0x40008#64 := rfl
@[simp] theorem launch_cr2 (s : State) : (s.launch).cr2 = s.cr2 := rfl
@[simp] theorem launch_cr4 (s : State) : (s.launch).cr4 = s.cr4 ||| 0x40400#64 := rfl
@[simp] theorem launch_xcr0 (s : State) : (s.launch).xcr0 = s.xcr0 ||| 0xE7#64 := rfl
@[simp] theorem launch_efer (s : State) : (s.launch).efer = s.efer ||| 0x400#64 := rfl
@[simp] theorem launch_csSelector (s : State) : (s.launch).csSelector = s.csSelector := rfl
@[simp] theorem launch_csBase (s : State) : (s.launch).csBase = s.csBase := rfl
@[simp] theorem launch_csL (s : State) : (s.launch).csL = true := rfl
@[simp] theorem launch_cpl (s : State) : (s.launch).cpl = s.cpl := rfl
@[simp] theorem launch_mem (s : State) : (s.launch).mem = s.mem := rfl
@[simp] theorem launch_access (s : State) : (s.launch).access = s.access := rfl
@[simp] theorem launch_cpu (s : State) : (s.launch).cpu = { s.cpu with hasFMA := true, hasAVX512F := true, hasAVX512VL := true } := rfl
@[simp] theorem launch_freeCount (s : State) : (s.launch).freeCount = s.freeCount := rfl

/-! ## Registers read after a write (R22) -/

@[simp] theorem readVec_writeVec_same (s : State) (r : BitVec 5) (v : Vec) : readVec (writeVec s r v) r = v := by
  simp [readVec]

theorem readVec_writeVec_other (s : State) {r q : BitVec 5} (v : Vec) (h : q ≠ r) :
    readVec (writeVec s r v) q = readVec s q := by
  have h' : r.toNat ≠ q.toNat := fun e => h (BitVec.eq_of_toNat_eq e.symm)
  simp [readVec, h']

@[simp] theorem readGpr_writeVec (s : State) (r : BitVec 5) (v : Vec) (q : BitVec 4) :
    readGpr (writeVec s r v) q = readGpr s q := rfl

@[simp] theorem readOpmask_writeVec (s : State) (r : BitVec 5) (v : Vec) (k : BitVec 3) :
    readOpmask (writeVec s r v) k = readOpmask s k := rfl

theorem readVec_complete_same (o : PackedOp) (s : State) (m : BitVec 32) :
    readVec (o.complete s m) o.dst = o.newVec s := by
  simp [readVec]

theorem readVec_complete_other (o : PackedOp) (s : State) (m : BitVec 32) {q : BitVec 5} (h : q ≠ o.dst) :
    readVec (o.complete s m) q = readVec s q := by
  have h' : o.dst.toNat ≠ q.toNat := fun e => h (BitVec.eq_of_toNat_eq e.symm)
  simp [readVec, h']

@[simp] theorem readByte_complete (o : PackedOp) (s : State) (m : BitVec 32) (a : Word) :
    readByte (o.complete s m) a = readByte s a := rfl

end Sys2Proof.Machine
end

