-- ==== Sys2Proof/Laws/Exec.lean ====
section
/-! SUPPORT. What each shared operation can do, said once: the gate, the memory checks, `ExecPacked`, and `exec` as a
whole. Proofs cite these lemmas instead of unfolding. -/

namespace Sys2Proof.Machine

/-! ## The fifteen rows as three shapes -/

/-- Every instruction is a VEX form, an EVEX form, or an EVEX.512 form with embedded rounding. -/
theorem instr_shape (i : Instr) :
    (∃ k l p dst src2 op3, i = Instr.vex k l p dst src2 op3) ∨
    (∃ k l p mask dst src2 op3, i = Instr.evex k l p mask dst src2 op3) ∨
    (∃ k p mask dst src2 r rc, i = Instr.evexRounded k p mask dst src2 r rc) := by
  cases i with
  | vfnmadd132pdXmmVex p dst src2 op3 => exact .inl ⟨.k132, .l128, p, dst, src2, op3, rfl⟩
  | vfnmadd213pdXmmVex p dst src2 op3 => exact .inl ⟨.k213, .l128, p, dst, src2, op3, rfl⟩
  | vfnmadd231pdXmmVex p dst src2 op3 => exact .inl ⟨.k231, .l128, p, dst, src2, op3, rfl⟩
  | vfnmadd132pdYmmVex p dst src2 op3 => exact .inl ⟨.k132, .l256, p, dst, src2, op3, rfl⟩
  | vfnmadd213pdYmmVex p dst src2 op3 => exact .inl ⟨.k213, .l256, p, dst, src2, op3, rfl⟩
  | vfnmadd231pdYmmVex p dst src2 op3 => exact .inl ⟨.k231, .l256, p, dst, src2, op3, rfl⟩
  | vfnmadd132pdXmmEvex p m dst src2 op3 => exact .inr (.inl ⟨.k132, .l128, p, m, dst, src2, op3, rfl⟩)
  | vfnmadd213pdXmmEvex p m dst src2 op3 => exact .inr (.inl ⟨.k213, .l128, p, m, dst, src2, op3, rfl⟩)
  | vfnmadd231pdXmmEvex p m dst src2 op3 => exact .inr (.inl ⟨.k231, .l128, p, m, dst, src2, op3, rfl⟩)
  | vfnmadd132pdYmmEvex p m dst src2 op3 => exact .inr (.inl ⟨.k132, .l256, p, m, dst, src2, op3, rfl⟩)
  | vfnmadd213pdYmmEvex p m dst src2 op3 => exact .inr (.inl ⟨.k213, .l256, p, m, dst, src2, op3, rfl⟩)
  | vfnmadd231pdYmmEvex p m dst src2 op3 => exact .inr (.inl ⟨.k231, .l256, p, m, dst, src2, op3, rfl⟩)
  | vfnmadd132pdZmmEvex p m dst src2 op3 =>
    cases op3 with
    | plain o => exact .inr (.inl ⟨.k132, .l512, p, m, dst, src2, o, rfl⟩)
    | rounded r rc => exact .inr (.inr ⟨.k132, p, m, dst, src2, r, rc, rfl⟩)
  | vfnmadd213pdZmmEvex p m dst src2 op3 =>
    cases op3 with
    | plain o => exact .inr (.inl ⟨.k213, .l512, p, m, dst, src2, o, rfl⟩)
    | rounded r rc => exact .inr (.inr ⟨.k213, p, m, dst, src2, r, rc, rfl⟩)
  | vfnmadd231pdZmmEvex p m dst src2 op3 =>
    cases op3 with
    | plain o => exact .inr (.inl ⟨.k231, .l512, p, m, dst, src2, o, rfl⟩)
    | rounded r rc => exact .inr (.inr ⟨.k231, p, m, dst, src2, r, rc, rfl⟩)

theorem exec_vex (k : Kind) (l : VexLength) (p : List LegacyPrefix) (dst src2 : BitVec 4) (op3 : VexOp3) (s : State) :
    exec (Instr.vex k l p dst src2 op3) s = execVex k l p dst src2 op3 s := by
  cases l <;> cases k <;> rfl

theorem exec_evex (k : Kind) (l : EvexLength) (p : List LegacyPrefix) (mask : Masking) (dst src2 : BitVec 5)
    (op3 : EvexOp3) (s : State) :
    exec (Instr.evex k l p mask dst src2 op3) s = execEvex k l p mask dst src2 op3 s := by
  cases l <;> cases k <;> rfl

theorem exec_evexRounded (k : Kind) (p : List LegacyPrefix) (mask : Masking) (dst src2 r : BitVec 5) (rc : Rounding)
    (s : State) :
    exec (Instr.evexRounded k p mask dst src2 r rc) s = execEvex512 k p mask dst src2 (.rounded r rc) s := by
  cases k <;> rfl

@[simp] theorem length_vex (k : Kind) (l : VexLength) (p : List LegacyPrefix) (dst src2 : BitVec 4) (op3 : VexOp3) :
    (Instr.vex k l p dst src2 op3).length = vexLength p op3 := by
  cases l <;> cases k <;> rfl

@[simp] theorem length_evex (k : Kind) (l : EvexLength) (p : List LegacyPrefix) (mask : Masking) (dst src2 : BitVec 5)
    (op3 : EvexOp3) : (Instr.evex k l p mask dst src2 op3).length = evexLength p (.plain op3) := by
  cases l <;> cases k <;> rfl

@[simp] theorem length_evexRounded (k : Kind) (p : List LegacyPrefix) (mask : Masking) (dst src2 r : BitVec 5)
    (rc : Rounding) : (Instr.evexRounded k p mask dst src2 r rc).length = evexLength p (.rounded r rc) := by
  cases k <;> rfl

@[simp] theorem destination_vex (k : Kind) (l : VexLength) (p : List LegacyPrefix) (dst src2 : BitVec 4)
    (op3 : VexOp3) : destination (Instr.vex k l p dst src2 op3) = vexReg dst := by
  cases l <;> cases k <;> rfl

@[simp] theorem destination_evex (k : Kind) (l : EvexLength) (p : List LegacyPrefix) (mask : Masking)
    (dst src2 : BitVec 5) (op3 : EvexOp3) : destination (Instr.evex k l p mask dst src2 op3) = dst := by
  cases l <;> cases k <;> rfl

@[simp] theorem destination_evexRounded (k : Kind) (p : List LegacyPrefix) (mask : Masking) (dst src2 r : BitVec 5)
    (rc : Rounding) : destination (Instr.evexRounded k p mask dst src2 r rc) = dst := by
  cases k <;> rfl

/-- The gate of an instruction: what `exec` asks before anything else. -/
def gateOf (s : State) (i : Instr) : Option Result := gate s (isEvex i) (featuresPresent s.cpu i)

theorem gateOf_vex (s : State) (k : Kind) (l : VexLength) (p : List LegacyPrefix) (dst src2 : BitVec 4)
    (op3 : VexOp3) : gateOf s (Instr.vex k l p dst src2 op3) = gate s false s.cpu.hasFMA := by
  cases l <;> cases k <;> rfl

theorem gateOf_evex (s : State) (k : Kind) (l : EvexLength) (p : List LegacyPrefix) (mask : Masking)
    (dst src2 : BitVec 5) (op3 : EvexOp3) :
    gateOf s (Instr.evex k l p mask dst src2 op3) = gate s true (evexFeature s l) := by
  cases l <;> cases k <;> rfl

theorem gateOf_evexRounded (s : State) (k : Kind) (p : List LegacyPrefix) (mask : Masking) (dst src2 r : BitVec 5)
    (rc : Rounding) : gateOf s (Instr.evexRounded k p mask dst src2 r rc) = gate s true s.cpu.hasAVX512F := by
  cases k <;> rfl

/-! ## The gate -/

theorem modeOf_eq_long64 (s : State) : modeOf s = .long64 ↔ in64BitMode s = true := by
  unfold modeOf in64BitMode
  cases cr0PE s <;> cases eferLMA s <;> cases s.csL <;> cases rflagsVM s <;> simp

/-- All the gate can answer: a refusal in a mode that is not modelled, #UD, #NM. -/
theorem gate_eq_some {s : State} {e f : Bool} {stop : Result} (h : gate s e f = some stop) :
    stop = .refused (.modeNotModelled s.rip) ∨ stop = raiseUD s ∨ stop = raiseNM s := by
  unfold gate at h
  split at h
  · exact .inl (Option.some.inj h).symm
  · exact .inr (.inl (Option.some.inj h).symm)
  · exact .inr (.inl (Option.some.inj h).symm)
  · split at h
    · split at h
      · exact .inr (.inr (Option.some.inj h).symm)
      · cases h
    · exact .inr (.inl (Option.some.inj h).symm)

theorem gate_long64 {s : State} (e f : Bool) (h : modeOf s = .long64) :
    gate s e f = if cr4OSXSAVE s && xcr0Avx s && (!e || xcr0Avx512 s) && f then
      (if cr0TS s then some (raiseNM s) else none) else some (raiseUD s) := by
  unfold gate
  rw [h]

/-- An enabled instruction passes the gate. -/
theorem gateOf_enabled {s : State} {i : Instr} (h : enabled s i = true) : gateOf s i = none := by
  simp only [enabled, executable64, Bool.and_eq_true, Bool.not_eq_true'] at h
  obtain ⟨⟨⟨⟨⟨hm, hx⟩, ha⟩, he⟩, hf⟩, ht⟩ := h
  rw [gateOf, gate_long64 _ _ ((modeOf_eq_long64 s).2 hm)]
  simp [hx, ha, he, hf, ht]

/-! ## Memory checks -/

/-- What `lowest` finds: a member that no other is below. -/
theorem lowest_eq_some {l : List Word} {a : Word} (h : lowest l = some a) : a ∈ l ∧ ∀ b ∈ l, a.toNat ≤ b.toNat := by
  induction l generalizing a with
  | nil => cases h
  | cons c l ih =>
    unfold lowest at h
    cases hl : lowest l with
    | none =>
      rw [hl] at h
      cases l with
      | nil => cases h; simp
      | cons d l => unfold lowest at hl; split at hl <;> [cases hl; (split at hl <;> cases hl)]
    | some d =>
      rw [hl] at h
      obtain ⟨hd, hle⟩ := ih hl
      dsimp only at h
      split at h <;> cases h
      · rename_i hcd
        exact ⟨by simp, fun b hb => by
          rcases List.mem_cons.1 hb with rfl | hb
          · exact Nat.le_refl _
          · exact Nat.le_trans hcd (hle b hb)⟩
      · rename_i hcd
        exact ⟨List.mem_cons_of_mem _ hd, fun b hb => by
          rcases List.mem_cons.1 hb with rfl | hb
          · omega
          · exact hle b hb⟩

@[simp] theorem lowest_eq_none {l : List Word} : lowest l = none ↔ l = [] := by
  cases l with
  | nil => simp [lowest]
  | cons a l =>
    unfold lowest
    split
    · simp
    · split <;> simp

@[simp] theorem mem_inaccessibleBytes {s : State} {e a : Word} :
    a ∈ inaccessibleBytes s e ↔ a ∈ byteAddresses e 8 ∧ readable s a = false := by
  simp [inaccessibleBytes]

/-- Which address a #PF of an operand reports: the lowest inaccessible byte of the lowest-addressed accessed element that
has one (R64; 92_eei_decisions.md D8). -/
theorem pageFaultAddress_eq_some {s : State} {elements : List Word} {a : Word}
    (h : pageFaultAddress s elements = some a) :
    ∃ e ∈ elements, a ∈ byteAddresses e 8 ∧ readable s a = false ∧
      (∀ b ∈ byteAddresses e 8, readable s b = false → a.toNat ≤ b.toNat) ∧
      ∀ e' ∈ elements, (∃ b ∈ byteAddresses e' 8, readable s b = false) → e.toNat ≤ e'.toNat := by
  unfold pageFaultAddress at h
  split at h
  · cases h
  · rename_i e he
    obtain ⟨he, hmin⟩ := lowest_eq_some he
    obtain ⟨ha, hle⟩ := lowest_eq_some h
    obtain ⟨ha, hr⟩ := mem_inaccessibleBytes.1 ha
    refine ⟨e, (List.mem_filter.1 he).1, ha, hr, fun b hb hb' => hle b (mem_inaccessibleBytes.2 ⟨hb, hb'⟩),
      fun e' he' hb => hmin e' (List.mem_filter.2 ⟨he', ?_⟩)⟩
    obtain ⟨b, hb, hb'⟩ := hb
    have := List.ne_nil_of_mem (mem_inaccessibleBytes.2 ⟨hb, hb'⟩)
    simpa using this

/-- No #PF of an operand: every byte of every accessed element is accessible (R63). -/
theorem pageFaultAddress_eq_none {s : State} {elements : List Word} :
    pageFaultAddress s elements = none ↔ ∀ a ∈ elementBytes elements, readable s a = true := by
  have key : pageFaultAddress s elements = none ↔ ∀ e ∈ elements, inaccessibleBytes s e = [] := by
    unfold pageFaultAddress
    split
    · rename_i h
      simpa [List.filter_eq_nil_iff] using h
    · rename_i e h
      have := List.mem_filter.1 (lowest_eq_some h).1
      constructor
      · intro hl
        simp [lowest_eq_none.1 hl] at this
      · intro hall
        simp [hall e this.1] at this
  rw [key]
  simp only [elementBytes, List.mem_flatMap, inaccessibleBytes, List.filter_eq_nil_iff, Bool.not_eq_true',
    Bool.not_eq_false]
  exact ⟨fun h a ⟨e, he, ha⟩ => h e he a ha, fun h e he a ha => h a ⟨e, he, ha⟩⟩

/-- All the memory checks can answer: #SS(0), #GP(0), #PF, and with alignment checking on #AC(0). -/
theorem memFault_eq_some {s : State} {seg : Segment} {la : Word} {size : Nat} {elements : List Word} {stop : Result}
    (h : memFault s seg la size elements = some stop) :
    stop = raiseSS s ∨ stop = raiseGP s ∨ (∃ a, pageFaultAddress s elements = some a ∧ stop = raisePF s a) ∨
      (alignCheckOn s = true ∧ stop = raiseAC s) := by
  unfold memFault at h
  split at h
  · split at h
    · exact .inl (Option.some.inj h).symm
    · exact .inr (.inl (Option.some.inj h).symm)
  · split at h
    · rename_i a ha
      exact .inr (.inr (.inl ⟨a, ha, (Option.some.inj h).symm⟩))
    · split at h
      · rename_i hal
        simp only [Bool.and_eq_true] at hal
        exact .inr (.inr (.inr ⟨hal.1.1.1, (Option.some.inj h).symm⟩))
      · cases h

/-- Readable bytes pass the memory checks. -/
theorem memFault_of_readable {s : State} (seg : Segment) (la : Word) (size : Nat) {elements : List Word}
    (h : operandReadable s (elementBytes elements) = true) : memFault s seg la size elements = none := by
  simp only [operandReadable, Bool.and_eq_true, Bool.not_eq_true', List.all_eq_true] at h
  obtain ⟨hal, hb⟩ := h
  have h1 : (elementBytes elements).any (fun a => !canonical s.cpu.linearWidth a) = false := by
    rw [List.any_eq_false]
    intro a ha
    simp [(hb a ha).1]
  have h2 : pageFaultAddress s elements = none := pageFaultAddress_eq_none.2 fun a ha => (hb a ha).2
  simp [memFault, h1, h2, hal]

/-- With nothing accessed the memory checks pass (R61). -/
@[simp] theorem memFault_nil (s : State) (seg : Segment) (la : Word) (size : Nat) :
    memFault s seg la size [] = none := by
  simp [memFault, elementBytes, pageFaultAddress, lowest]

/-! ## `ExecPacked` -/

/-- All `ExecPacked` can do: complete with flag bits added to MXCSR (none under SAE), or raise for an unmasked
condition. -/
theorem execPacked_cases (o : PackedOp) (s : State) :
    (o.sae = true ∧ execPacked o s = .next (o.complete s s.mxcsr)) ∨
    (o.sae = false ∧ (∀ f ∈ o.flags s, unmasked s.mxcsr f = false) ∧
      execPacked o s = .next (o.complete s (s.mxcsr ||| (unionFlags (o.flags s)).bits))) ∨
    (o.sae = false ∧ (∃ f ∈ o.flags s, unmasked s.mxcsr f = true) ∧
      execPacked o s = raiseXM s (signalFP s.mxcsr (o.flags s)).1) := by
  unfold execPacked
  cases hs : o.sae with
  | true => exact .inl ⟨rfl, by simp⟩
  | false =>
    right
    cases h2 : (signalFP s.mxcsr (o.flags s)).2 with
    | false =>
      have hm := (signalFP_snd_eq_false _ _).1 h2
      exact .inl ⟨rfl, hm, by simp [signalFP_of_masked hm]⟩
    | true =>
      refine .inr ⟨rfl, ?_, by simp⟩
      by_contra hc
      have : (signalFP s.mxcsr (o.flags s)).2 = false := by
        rw [signalFP_snd_eq_false]
        intro f hf
        by_contra hu
        exact hc ⟨f, hf, by simpa using hu⟩
      rw [h2] at this
      cases this

/-- `ExecPacked` with no unmasked condition completes (R245). -/
theorem execPacked_of_masked {o : PackedOp} {s : State} (hs : o.sae = false)
    (h : ∀ f ∈ o.flags s, unmasked s.mxcsr f = false) :
    execPacked o s = .next (o.complete s (s.mxcsr ||| (unionFlags (o.flags s)).bits)) := by
  rw [execPacked, hs, signalFP_of_masked h]
  simp

/-! ## `exec` -/

/-- All that `exec` can do: stop at the gate, stop at the memory checks, or go through `ExecPacked` with the
instruction's destination and length. -/
theorem exec_cases (i : Instr) (s : State) :
    (∃ stop, gateOf s i = some stop ∧ exec i s = stop) ∨
    (gateOf s i = none ∧ ∃ seg la size elements stop, memFault s seg la size elements = some stop ∧ exec i s = stop) ∨
    (gateOf s i = none ∧ ∃ o : PackedOp, o.dst = destination i ∧ o.ilen = i.length ∧ o.lanes ≤ 8 ∧
      (isEvex i = false → o.lanes ≤ 4) ∧ exec i s = execPacked o s) := by
  rcases instr_shape i with ⟨k, l, p, dst, src2, op3, rfl⟩ | ⟨k, l, p, mask, dst, src2, op3, rfl⟩ |
    ⟨k, p, mask, dst, src2, r, rc, rfl⟩
  · rw [exec_vex, gateOf_vex]
    unfold execVex
    cases hg : gate s false s.cpu.hasFMA with
    | some stop => exact .inl ⟨stop, rfl, rfl⟩
    | none =>
      right
      cases op3 with
      | reg r =>
        refine .inr ⟨rfl, _, ?_, ?_, ?_, ?_, rfl⟩ <;> cases l <;> simp [vexOp, vexLanes]
      | mem m =>
        dsimp only
        split
        · rename_i stop hm
          exact .inl ⟨rfl, _, _, _, _, stop, hm, rfl⟩
        · refine .inr ⟨rfl, _, ?_, ?_, ?_, ?_, rfl⟩ <;> cases l <;> simp [vexOp, vexLanes]
  · have hev : isEvex (Instr.evex k l p mask dst src2 op3) = true := by cases l <;> cases k <;> rfl
    rw [exec_evex, gateOf_evex, hev]
    unfold execEvex
    cases hg : gate s true (evexFeature s l) with
    | some stop => exact .inl ⟨stop, rfl, rfl⟩
    | none =>
      right
      cases op3 with
      | reg r =>
        refine .inr ⟨rfl, _, ?_, ?_, ?_, ?_, rfl⟩ <;> cases l <;> simp [evexOp, evexLanes]
      | mem m =>
        dsimp only
        split
        · rename_i stop hm
          exact .inl ⟨rfl, _, _, _, _, stop, hm, rfl⟩
        · refine .inr ⟨rfl, _, ?_, ?_, ?_, ?_, rfl⟩ <;> cases l <;> simp [evexOp, evexLanes]
      | broadcast m =>
        dsimp only
        split
        · rename_i stop hm
          exact .inl ⟨rfl, _, _, _, _, stop, hm, rfl⟩
        · refine .inr ⟨rfl, _, ?_, ?_, ?_, ?_, rfl⟩ <;> cases l <;> simp [evexOp, evexLanes]
  · have hev : isEvex (Instr.evexRounded k p mask dst src2 r rc) = true := by cases k <;> rfl
    rw [exec_evexRounded, gateOf_evexRounded, hev]
    unfold execEvex512
    cases hg : gate s true s.cpu.hasAVX512F with
    | some stop => exact .inl ⟨stop, rfl, rfl⟩
    | none => exact .inr (.inr ⟨rfl, _, by simp [roundedOp], by simp [roundedOp], by simp [roundedOp], by simp, rfl⟩)

end Sys2Proof.Machine
end

