-- ==== Sys2Proof/Laws/Lane.lean ====
section
/-! SUPPORT. The lane function's small lemmas: how NaN, infinity, zero and denormal exclude each other, what DAZ keeps,
what each branch of `fnmaddCore` and `deliver` can answer. -/

namespace Sys2Proof.Machine

/-! ## Classes (R133) -/

theorem isInf_iff (x : Word) : isInf x = true ↔ expField x = 2047 ∧ fracField x = 0 := by simp [isInf]

theorem isNaN_iff (x : Word) : isNaN x = true ↔ expField x = 2047 ∧ fracField x ≠ 0 := by simp [isNaN]

theorem isZero_iff (x : Word) : isZero x = true ↔ expField x = 0 ∧ fracField x = 0 := by simp [isZero]

theorem isDenormal_iff (x : Word) : isDenormal x = true ↔ expField x = 0 ∧ fracField x ≠ 0 := by simp [isDenormal]

/-- A zero or a denormal is neither an infinity nor a NaN. -/
theorem not_inf_nan_of_exp_zero {x : Word} (h : expField x = 0) : isInf x = false ∧ isNaN x = false := by
  simp [isInf, isNaN, h]

/-- An infinity or a NaN is neither a zero nor a denormal. -/
theorem not_zero_denormal_of_exp_max {x : Word} (h : expField x = 2047) : isZero x = false ∧ isDenormal x = false := by
  simp [isZero, isDenormal, h]

/-- Finite is neither infinite nor NaN. -/
theorem isFinite_iff (x : Word) : isFinite x = true ↔ isInf x = false ∧ isNaN x = false := by
  simp only [isFinite, isInf, isNaN, expField, bne_iff_ne, ne_eq, Bool.and_eq_false_iff, beq_eq_false_iff_ne, bne_eq_false_iff_eq]
  constructor
  · intro h
    exact ⟨.inl h, .inl h⟩
  · rintro ⟨h1 | h1, h2 | h2⟩
    · exact h1
    · exact h1
    · exact h2
    · exact absurd h2 h1

/-! ## DAZ (R136) -/

@[simp] theorem dazReplace_false (x : Word) : dazReplace false x = x := by simp [dazReplace]

theorem dazReplace_of_not_denormal {daz : Bool} {x : Word} (h : isDenormal x = false) : dazReplace daz x = x := by
  simp [dazReplace, h]

/-- DAZ keeps the sign. -/
@[simp] theorem signBit_dazReplace (daz : Bool) (x : Word) : signBit (dazReplace daz x) = signBit x := by
  unfold dazReplace
  split
  · simp [signBit]
  · rfl

/-- What DAZ replaces is a zero afterwards. -/
theorem isZero_dazReplace_of_denormal {x : Word} (h : isDenormal x = true) : isZero (dazReplace true x) = true := by
  rw [dazReplace, h]
  simp only [Bool.and_self, if_true, isZero, expField, fracField]
  have h1 : (x &&& 0x8000000000000000#64).extractLsb' 52 11 = 0#11 := by
    apply BitVec.eq_of_getLsbD_eq
    intro i hi
    rcases Nat.lt_or_ge i 11 with h | h
    · have : ∀ i : Fin 11, (0x8000000000000000#64).getLsbD (52 + i.val) = false := by decide
      simp [-BitVec.getLsbD_eq_getElem, h, this ⟨i, h⟩]
    · omega
  have h2 : (x &&& 0x8000000000000000#64).extractLsb' 0 52 = 0#52 := by
    apply BitVec.eq_of_getLsbD_eq
    intro i hi
    have : ∀ i : Fin 52, (0x8000000000000000#64).getLsbD (0 + i.val) = false := by decide
    simp only [BitVec.getLsbD_extractLsb', hi, decide_true, BitVec.getLsbD_and, this ⟨i, hi⟩, Bool.and_false,
      BitVec.getLsbD_zero]
  simp [h1, h2]

/-- DAZ touches no infinity and no NaN. -/
theorem dazReplace_of_exp_max {daz : Bool} {x : Word} (h : expField x = 2047) : dazReplace daz x = x :=
  dazReplace_of_not_denormal (not_zero_denormal_of_exp_max h).2

/-! ## What a lane can answer (R130, R142-R146) -/

/-- The four answers of `deliver`: tiny (R143), overflow (R145), a rounded normal number (R146), each with its flags. -/
theorem deliver_cases (s : Bool) (m : Nat) (rc : Rounding) (ftz um om : Bool) (pre : FpFlags) :
    (um = false ∧ deliver s m rc ftz um om pre = { result := none, flags := { pre with ue := true } }) ∨
    (om = false ∧ deliver s m rc ftz um om pre = { result := none, flags := { pre with oe := true } }) ∨
    ∃ w f, deliver s m rc ftz um om pre = { result := some w, flags := f } ∧ f.ie = pre.ie ∧ f.de = pre.de := by
  simp only [deliver]
  split
  · split
    · rename_i h
      exact .inl ⟨h, rfl⟩
    · split
      · exact .inr (.inr ⟨_, _, rfl, rfl, rfl⟩)
      · refine .inr (.inr ⟨_, _, rfl, ?_, ?_⟩) <;> split <;> rfl
  · split
    · split
      · rename_i h
        exact .inr (.inl ⟨h, rfl⟩)
      · exact .inr (.inr ⟨_, _, rfl, rfl, rfl⟩)
    · refine .inr (.inr ⟨_, _, rfl, ?_, ?_⟩) <;> split <;> rfl

/-- A finite sum answers an exact zero with the operand flags alone (R141), or what `deliver` answers. -/
theorem finiteSum_cases (sp : Bool) (P Z : Int) (sz : Bool) (rc : Rounding) (ftz um om : Bool) (pre : FpFlags) :
    (P + Z = 0 ∧ ∃ w, finiteSum sp P Z sz rc ftz um om pre = { result := some w, flags := pre }) ∨
    (P + Z ≠ 0 ∧ finiteSum sp P Z sz rc ftz um om pre =
      deliver (decide (P + Z < 0)) (P + Z).natAbs rc ftz um om pre) := by
  unfold finiteSum
  split
  · rename_i h
    exact .inl ⟨h, _, rfl⟩
  · rename_i h
    exact .inr ⟨h, rfl⟩

/-- The lane function with finite operands is `finiteSum` of the exact product and addend (R140). -/
theorem fnmaddCore_finite {x y z : Word} (hx : isFinite x = true) (hy : isFinite y = true) (hz : isFinite z = true)
    (rc : Rounding) (ftz um om : Bool) :
    fnmaddCore x y z rc ftz um om =
      finiteSum (!(signBit x ^^ signBit y)) (exactNegProduct x y) (exactAddend z) (signBit z) rc ftz um om
        { FpFlags.none with de := isDenormal x || isDenormal y || isDenormal z } := by
  obtain ⟨hx1, hx2⟩ := (isFinite_iff x).1 hx
  obtain ⟨hy1, hy2⟩ := (isFinite_iff y).1 hy
  obtain ⟨hz1, hz2⟩ := (isFinite_iff z).1 hz
  simp [fnmaddCore, hx1, hx2, hy1, hy2, hz1, hz2]

/-- A lane without a result has an unmasked underflow or overflow among its flags (R130). -/
theorem fnmaddCore_none {x y z : Word} {rc : Rounding} {ftz um om : Bool}
    (h : (fnmaddCore x y z rc ftz um om).result = none) :
    (um = false ∧ (fnmaddCore x y z rc ftz um om).flags.ue = true) ∨
    (om = false ∧ (fnmaddCore x y z rc ftz um om).flags.oe = true) := by
  revert h
  simp only [fnmaddCore]
  repeat' split
  all_goals try (intro h; cases h)
  intro h
  rcases finiteSum_cases (!(signBit x ^^ signBit y)) (exactNegProduct x y) (exactAddend z) (signBit z) rc ftz um om
    { FpFlags.none with de := isDenormal x || isDenormal y || isDenormal z } with ⟨_, w, e⟩ | ⟨_, e⟩
  · rw [e] at h
    cases h
  · rw [e] at h ⊢
    rcases deliver_cases (decide (exactNegProduct x y + exactAddend z < 0))
      (exactNegProduct x y + exactAddend z).natAbs rc ftz um om
      { FpFlags.none with de := isDenormal x || isDenormal y || isDenormal z } with ⟨hu, d⟩ | ⟨ho, d⟩ | ⟨w, f, d, _, _⟩
    · rw [d]
      exact .inl ⟨hu, rfl⟩
    · rw [d]
      exact .inr ⟨ho, rfl⟩
    · rw [d] at h
      cases h

/-- A lane of an instruction in the form of `laneOf`. -/
theorem laneResult_eq_laneOf (k : Kind) (m : BitVec 32) (rc : Rounding) (sae : Bool) (a b c : Word) :
    laneResult k m rc (sae || mxUM m) (sae || mxOM m) a b c = laneOf k m rc sae a b c := by
  cases k <;> rfl

/-- With no unmasked condition among its flags, or under SAE, a lane delivers a result. -/
theorem laneOf_isSome {k : Kind} {m : BitVec 32} {rc : Rounding} {sae : Bool} {a b c : Word}
    (h : sae = true ∨ unmasked m (laneOf k m rc sae a b c).flags = false) :
    ∃ w, (laneOf k m rc sae a b c).result = some w := by
  cases hr : (laneOf k m rc sae a b c).result with
  | some w => exact ⟨w, rfl⟩
  | none =>
    exfalso
    rcases fnmaddCore_none hr with ⟨hu, hf⟩ | ⟨ho, hf⟩
    · rcases h with h | h
      · simp [h] at hu
      · simp only [Bool.or_eq_false_iff] at hu
        have hf' : (laneOf k m rc sae a b c).flags.ue = true := hf
        simp [unmasked, hf', hu.2] at h
    · rcases h with h | h
      · simp [h] at ho
      · simp only [Bool.or_eq_false_iff] at ho
        have hf' : (laneOf k m rc sae a b c).flags.oe = true := hf
        simp [unmasked, hf', ho.2] at h

end Sys2Proof.Machine
end

