-- ==== Sys2Proof/Laws/Lanes.lean ====
section
/-! SUPPORT. Lanes of a vector: what `packLanes` puts into each, and that lanes determine the vector. -/

namespace Sys2Proof.Machine

@[simp] theorem lane_getLsbD (v : Vec) (j i : Nat) (h : i < 64) : (lane v j).getLsbD i = v.getLsbD (64 * j + i) := by
  simp [lane, h]

theorem packLanes_getLsbD (ws : List Word) (j i : Nat) (hi : i < 64) (hj : j < 8) :
    (packLanes ws).getLsbD (64 * j + i) = (ws.getD j 0#64).getLsbD i := by
  induction ws generalizing j with
  | nil => simp [packLanes]
  | cons w ws ih =>
    cases j with
    | zero =>
      have h1 : i < 512 := by omega
      simp [packLanes, hi, h1]
    | succ j =>
      have h1 : 64 * (j + 1) + i < 512 := by omega
      have h2 : ¬ 64 * (j + 1) + i < 64 := by omega
      have h3 : 64 * (j + 1) + i - 64 = 64 * j + i := by omega
      have h4 : w.getLsbD (64 * (j + 1) + i) = false := BitVec.getLsbD_of_ge _ _ (by omega)
      have h5 := ih j (by omega)
      simp only [List.getD_eq_getElem?_getD] at h5
      simp [packLanes, BitVec.getLsbD_or, BitVec.getLsbD_shiftLeft, BitVec.getLsbD_setWidth, -BitVec.getLsbD_eq_getElem,
        h1, h2, h3, h4, h5]

/-- Lane `j` of packed lanes is the `j`-th of them, and 0 above them (R22, R170). -/
theorem lane_packLanes (ws : List Word) (j : Nat) (hj : j < 8) : lane (packLanes ws) j = ws.getD j 0#64 := by
  apply BitVec.eq_of_getLsbD_eq
  intro i hi
  rw [lane_getLsbD _ _ _ hi, packLanes_getLsbD ws j i hi hj]

/-- Two vectors with the same eight lanes are equal. -/
theorem vec_ext {v w : Vec} (h : ∀ j, j < 8 → lane v j = lane w j) : v = w := by
  apply BitVec.eq_of_getLsbD_eq
  intro i hi
  have hj := h (i / 64) (by omega)
  have hm : i % 64 < 64 := by omega
  have := congrArg (fun x => x.getLsbD (i % 64)) hj
  simp only [lane_getLsbD _ _ _ hm] at this
  have e : 64 * (i / 64) + i % 64 = i := by omega
  rwa [e] at this

@[simp] theorem lane_zero (j : Nat) : lane 0#512 j = 0#64 := by
  apply BitVec.eq_of_getLsbD_eq
  intro i hi
  simp [lane_getLsbD _ _ _ hi]

/-- Lane `j` of what an instruction writes: the new lane below `KL`, 0 above (R170, R178, R197). -/
theorem lane_newVec (o : PackedOp) (s : State) (j : Nat) (hj : j < 8) :
    lane (o.newVec s) j = if j < o.lanes then o.newLane s j else 0#64 := by
  rw [PackedOp.newVec, lane_packLanes _ _ hj]
  split
  · rename_i h
    simp [List.getD, h]
  · rename_i h
    simp [List.getD, h]

end Sys2Proof.Machine
end

