-- ==== Sys2Proof/Laws/Complete.lean ====
section
/-! SUPPORT. What a completed `ExecPacked` leaves, in the terms of `completesWith`: lanes, MXCSR bit by bit, RIP, the
frame. -/

namespace Sys2Proof.Machine

/-- The bits of a flag set are `flagAt` (R27). -/
theorem bits_getLsbD (f : FpFlags) (n : Nat) : f.bits.getLsbD n = flagAt f n := by
  by_cases hn : n < 6
  · obtain ⟨a, b, c, d, e⟩ := f
    have : ∀ n : Fin 6, ∀ a b c d e : Bool,
        (FpFlags.bits { ie := a, de := b, oe := c, ue := d, pe := e }).getLsbD n =
          flagAt { ie := a, de := b, oe := c, ue := d, pe := e } n := by decide
    exact this ⟨n, hn⟩ a b c d e
  · rw [bits_getLsbD_of_not_flag f n (.inr (by omega))]
    match n, hn with
    | 0, h => omega
    | 1, h => omega
    | 2, h => omega
    | 3, h => omega
    | 4, h => omega
    | 5, h => omega
    | n + 6, _ => rfl

theorem flagAt_none (n : Nat) : flagAt FpFlags.none n = false := by
  match n with
  | 0 => rfl
  | 1 => rfl
  | 2 => rfl
  | 3 => rfl
  | 4 => rfl
  | 5 => rfl
  | n + 6 => rfl

theorem flagAt_union (f g : FpFlags) (n : Nat) : flagAt (f.union g) n = (flagAt f n || flagAt g n) := by
  match n with
  | 0 => rfl
  | 1 => rfl
  | 2 => rfl
  | 3 => rfl
  | 4 => rfl
  | 5 => rfl
  | n + 6 => rfl

/-- A flag of a union is a flag of some member (R244). -/
theorem flagAt_unionFlags (l : List FpFlags) (n : Nat) : flagAt (unionFlags l) n = l.any fun f => flagAt f n := by
  induction l with
  | nil => exact flagAt_none n
  | cons f l ih => simp [flagAt_union, ih]

/-- A flag that `ExecPacked` adds to MXCSR is reported by an active lane (R170, R245). -/
theorem unionFlags_getLsbD (o : PackedOp) (s : State) (n : Nat) :
    (unionFlags (o.flags s)).bits.getLsbD n = reported o.lanes o.active (o.lane s) n := by
  rw [bits_getLsbD, flagAt_unionFlags, PackedOp.flags, reported, List.any_map, List.any_filter]
  rfl

/-- Completion changes nothing but the destination, MXCSR and RIP. -/
theorem sameElsewhere_complete (o : PackedOp) (s : State) (m : BitVec 32) : sameElsewhere s (o.complete s m) := by
  simp [sameElsewhere]

/-- An active lane of the completed destination holds the lane's result. -/
theorem lane_complete_active {o : PackedOp} {s : State} (m : BitVec 32) {j : Nat} {w : Word} (h8 : o.lanes ≤ 8)
    (hj : j < o.lanes) (ha : o.active j = true) (hr : (o.lane s j).result = some w) :
    lane (readVec (o.complete s m) o.dst) j = w := by
  rw [readVec_complete_same, lane_newVec _ _ _ (by omega), if_pos hj, PackedOp.newLane, if_pos ha, hr]
  rfl

/-- An inactive lane is zeroed or merged (R170, R190). -/
theorem lane_complete_inactive {o : PackedOp} {s : State} (m : BitVec 32) {j : Nat} (h8 : o.lanes ≤ 8)
    (hj : j < o.lanes) (ha : o.active j = false) :
    lane (readVec (o.complete s m) o.dst) j = if o.zmask then 0#64 else lane (readVec s o.dst) j := by
  rw [readVec_complete_same, lane_newVec _ _ _ (by omega), if_pos hj, PackedOp.newLane, ha]
  rfl

/-- The lanes above `KL` are 0 (R178, R197). -/
theorem lane_complete_above {o : PackedOp} {s : State} (m : BitVec 32) {j : Nat} (hj : o.lanes ≤ j) (h8 : j < 8) :
    lane (readVec (o.complete s m) o.dst) j = 0#64 := by
  rw [readVec_complete_same, lane_newVec _ _ _ h8, if_neg (by omega)]

/-- `ExecPacked` in the terms of `completesWith`: when each active lane of `o` computes `f` and none has an unmasked
condition, or under SAE. -/
theorem completesWith_of_execPacked {i : Instr} {s : State} {o : PackedOp} {f : Nat → LaneResult}
    (he : exec i s = execPacked o s) (h8 : o.lanes ≤ 8)
    (hf : ∀ j, j < o.lanes → o.active j = true → o.lane s j = f j)
    (hm : o.sae = true ∨ ∀ j, j < o.lanes → o.active j = true → unmasked s.mxcsr (f j).flags = false) :
    completesWith i s o.dst o.lanes o.active o.zmask f (!o.sae) o.ilen := by
  have hres : ∀ j, j < o.lanes → o.active j = true → ∃ w, (o.lane s j).result = some w := by
    intro j hj ha
    have hl : o.lane s j = laneOf o.kind s.mxcsr o.rc o.sae (lane (readVec s o.dst) j) (lane (readVec s o.src2) j)
        (o.op3 j) := laneResult_eq_laneOf _ _ _ _ _ _ _
    rw [hl]
    refine laneOf_isSome ?_
    rcases hm with h | h
    · exact .inl h
    · have := h j hj ha
      rw [← hf j hj ha, hl] at this
      exact .inr this
  have hrep : ∀ n, reported o.lanes o.active (o.lane s) n = reported o.lanes o.active f n := by
    intro n
    unfold reported
    rw [Bool.eq_iff_iff, List.any_eq_true, List.any_eq_true]
    constructor
    · rintro ⟨j, hj, hp⟩
      refine ⟨j, hj, ?_⟩
      simp only [Bool.and_eq_true] at hp ⊢
      rw [← hf j (List.mem_range.1 hj) hp.1]
      exact hp
    · rintro ⟨j, hj, hp⟩
      refine ⟨j, hj, ?_⟩
      simp only [Bool.and_eq_true] at hp ⊢
      rw [hf j (List.mem_range.1 hj) hp.1]
      exact hp
  have main : ∀ mx : BitVec 32, execPacked o s = .next (o.complete s mx) →
      (∀ n, mx.getLsbD n = (s.mxcsr.getLsbD n || (!o.sae && reported o.lanes o.active f n))) →
      completesWith i s o.dst o.lanes o.active o.zmask f (!o.sae) o.ilen := by
    intro mx hx hb
    refine ⟨o.complete s mx, by rw [he, hx], ?_, ?_, ?_, ?_, hb, rfl, sameElsewhere_complete o s mx⟩
    · intro j hj ha
      obtain ⟨w, hw⟩ := hres j hj ha
      rw [lane_complete_active mx h8 hj ha hw, ← hf j hj ha, hw]
    · intro j hj ha
      exact lane_complete_inactive mx h8 hj ha
    · intro j hj h
      exact lane_complete_above mx hj h
    · intro r hr
      exact readVec_complete_other o s mx hr
  cases hs : o.sae with
  | true =>
    rw [hs] at main
    refine main s.mxcsr (by rw [execPacked, hs]; rfl) ?_
    intro n
    simp
  | false =>
    rw [hs] at main
    have hmask : ∀ f' ∈ o.flags s, unmasked s.mxcsr f' = false := by
      intro f' hf'
      simp only [PackedOp.flags, List.mem_map, List.mem_filter, List.mem_range] at hf'
      obtain ⟨j, ⟨hj, ha⟩, rfl⟩ := hf'
      rcases hm with h | h
      · rw [hs] at h
        cases h
      · rw [hf j hj ha]
        exact h j hj ha
    refine main _ (execPacked_of_masked hs hmask) ?_
    intro n
    rw [BitVec.getLsbD_or, unionFlags_getLsbD, hrep]
    simp

end Sys2Proof.Machine
end

