-- ==== Sys2Proof/Laws/Decode.lean ====
section
/-! SUPPORT. The fields of the encoder's bytes as the decoder extracts them, what the legacy prefixes split into, and
that reading ModRM and what follows undoes writing it. -/

namespace Sys2Proof

/-! ## Fields of bytes -/

@[simp] theorem byte233_hi (a : BitVec 2) (b c : BitVec 3) : (byte233 a b c).extractLsb' 6 2 = a := by
  revert a b c; decide
@[simp] theorem byte233_mid (a : BitVec 2) (b c : BitVec 3) : (byte233 a b c).extractLsb' 3 3 = b := by
  revert a b c; decide
@[simp] theorem byte233_lo (a : BitVec 2) (b c : BitVec 3) : (byte233 a b c).extractLsb' 0 3 = c := by
  revert a b c; decide

/-- A four-bit register number is its extension bit and its low three bits (R81, R92). -/
@[simp] theorem num4_low3 (r : BitVec 4) : num4 r[3] (low3 r) = r := by revert r; decide

/-- A five-bit register number is its two extension bits and its low three bits (R92). -/
@[simp] theorem num5_low3 (r : BitVec 5) : num5 r[4] r[3] (low3 r) = r := by revert r; decide

/-- Operand 2 of an EVEX form from V' and vvvv (R92). -/
theorem src2_of_fields (r : BitVec 5) : BitVec.ofBool r[4] ++ r.extractLsb' 0 4 = r := by revert r; decide

@[simp] theorem vexByte1_map (r x b : Bool) : (vexByte1 r x b).extractLsb' 0 5 = 2#5 := by revert r x b; decide
@[simp] theorem vexByte1_r (r x b : Bool) : (vexByte1 r x b)[7] = !r := by revert r x b; decide
@[simp] theorem vexByte1_x (r x b : Bool) : (vexByte1 r x b)[6] = !x := by revert r x b; decide
@[simp] theorem vexByte1_b (r x b : Bool) : (vexByte1 r x b)[5] = !b := by revert r x b; decide

@[simp] theorem vexByte2_w (src2 : BitVec 4) (l : VexLength) : (vexByte2 src2 l)[7] = true := by
  cases l <;> revert src2 <;> decide
@[simp] theorem vexByte2_vvvv (src2 : BitVec 4) (l : VexLength) : ~~~((vexByte2 src2 l).extractLsb' 3 4) = src2 := by
  cases l <;> revert src2 <;> decide
@[simp] theorem vexByte2_l (src2 : BitVec 4) (l : VexLength) : (vexByte2 src2 l)[2] = (l == .l256) := by
  cases l <;> revert src2 <;> decide
@[simp] theorem vexByte2_pp (src2 : BitVec 4) (l : VexLength) : (vexByte2 src2 l).extractLsb' 0 2 = 1#2 := by
  cases l <;> revert src2 <;> decide

@[simp] theorem evexP0_reserved (dst : BitVec 5) (x b : Bool) : (evexP0 dst x b).extractLsb' 2 2 = 0#2 := by
  revert dst x b; decide
@[simp] theorem evexP0_map (dst : BitVec 5) (x b : Bool) : (evexP0 dst x b).extractLsb' 0 2 = 2#2 := by
  revert dst x b; decide
@[simp] theorem evexP0_r (dst : BitVec 5) (x b : Bool) : (evexP0 dst x b)[7] = !dst[3] := by
  revert dst x b; decide
@[simp] theorem evexP0_x (dst : BitVec 5) (x b : Bool) : (evexP0 dst x b)[6] = !x := by
  revert dst x b; decide
@[simp] theorem evexP0_b (dst : BitVec 5) (x b : Bool) : (evexP0 dst x b)[5] = !b := by
  revert dst x b; decide
@[simp] theorem evexP0_r' (dst : BitVec 5) (x b : Bool) : (evexP0 dst x b)[4] = !dst[4] := by
  revert dst x b; decide

@[simp] theorem evexP1_w (src2 : BitVec 5) : (evexP1 src2)[7] = true := by revert src2; decide
@[simp] theorem evexP1_vvvv (src2 : BitVec 5) : ~~~((evexP1 src2).extractLsb' 3 4) = src2.extractLsb' 0 4 := by
  revert src2; decide
@[simp] theorem evexP1_fixed (src2 : BitVec 5) : (evexP1 src2)[2] = true := by revert src2; decide
@[simp] theorem evexP1_pp (src2 : BitVec 5) : (evexP1 src2).extractLsb' 0 2 = 1#2 := by revert src2; decide

theorem evexP2_fields : ∀ (z bc v : Bool) (ll : BitVec 2) (aaa : BitVec 3),
    (BitVec.ofBool z ++ (ll ++ (BitVec.ofBool bc ++ (BitVec.ofBool v ++ aaa))) : Byte).getLsbD 7 = z ∧
    (BitVec.ofBool z ++ (ll ++ (BitVec.ofBool bc ++ (BitVec.ofBool v ++ aaa))) : Byte).extractLsb' 5 2 = ll ∧
    (BitVec.ofBool z ++ (ll ++ (BitVec.ofBool bc ++ (BitVec.ofBool v ++ aaa))) : Byte).getLsbD 4 = bc ∧
    (BitVec.ofBool z ++ (ll ++ (BitVec.ofBool bc ++ (BitVec.ofBool v ++ aaa))) : Byte).getLsbD 3 = v ∧
    (BitVec.ofBool z ++ (ll ++ (BitVec.ofBool bc ++ (BitVec.ofBool v ++ aaa))) : Byte).extractLsb' 0 3 = aaa := by
  decide

@[simp] theorem evexP2_z (mask : Masking) (ll : BitVec 2) (bc : Bool) (src2 : BitVec 5) :
    (evexP2 mask ll bc src2)[7] = mask.z := (evexP2_fields _ _ _ _ _).1
@[simp] theorem evexP2_ll (mask : Masking) (ll : BitVec 2) (bc : Bool) (src2 : BitVec 5) :
    (evexP2 mask ll bc src2).extractLsb' 5 2 = ll := (evexP2_fields _ _ _ _ _).2.1
@[simp] theorem evexP2_b (mask : Masking) (ll : BitVec 2) (bc : Bool) (src2 : BitVec 5) :
    (evexP2 mask ll bc src2)[4] = bc := (evexP2_fields _ _ _ _ _).2.2.1
@[simp] theorem evexP2_v' (mask : Masking) (ll : BitVec 2) (bc : Bool) (src2 : BitVec 5) :
    (evexP2 mask ll bc src2)[3] = !src2[4] := (evexP2_fields _ _ _ _ _).2.2.2.1
@[simp] theorem evexP2_aaa (mask : Masking) (ll : BitVec 2) (bc : Bool) (src2 : BitVec 5) :
    (evexP2 mask ll bc src2).extractLsb' 0 3 = mask.aaa := (evexP2_fields _ _ _ _ _).2.2.2.2

@[simp] theorem kindOfOpcode_opcode (k : Kind) : kindOfOpcode k.opcode = some k := by cases k <;> rfl
@[simp] theorem maskingOfBits (mask : Masking) : Masking.ofBits mask.z mask.aaa = some mask := by
  rcases mask with _ | k | k
  · rfl
  · cases k <;> rfl
  · cases k <;> rfl
@[simp] theorem evexLengthOfBits (l : EvexLength) : EvexLength.ofBits l.bits = some l := by cases l <;> rfl
@[simp] theorem roundingOfBits (rc : Rounding) : Rounding.ofBits rc.bits = rc := by cases rc <;> rfl

/-! ## Prefixes -/

@[simp] theorem prefixItem_byte (p : LegacyPrefix) : prefixItem p.byte = some (.legacy p) := by cases p <;> rfl

/-- Legacy prefixes before a byte that is no prefix split off whole (R109, R111). -/
theorem splitPrefixes_append (p : List LegacyPrefix) {b : Byte} (bs : List Byte) (h : prefixItem b = none) :
    splitPrefixes (p.map LegacyPrefix.byte ++ b :: bs) = (p.map .legacy, b :: bs) := by
  induction p with
  | nil => simp [splitPrefixes, h]
  | cons q p ih => simp [splitPrefixes, ih]

/-- Prefix bytes of either kind before a byte that is no prefix split off whole (R109). -/
theorem splitPrefixes_prefixes (pre : List Byte) {b : Byte} (bs : List Byte)
    (hp : ∀ c ∈ pre, (prefixItem c).isSome = true) (h : prefixItem b = none) :
    splitPrefixes (pre ++ b :: bs) = (pre.filterMap prefixItem, b :: bs) := by
  induction pre with
  | nil => simp [splitPrefixes, h]
  | cons c pre ih =>
    obtain ⟨item, hc⟩ := Option.isSome_iff_exists.1 (hp c (by simp))
    simp [splitPrefixes, hc, ih fun d hd => hp d (List.mem_cons_of_mem _ hd)]

@[simp] theorem legacyOf_map (p : List LegacyPrefix) : legacyOf (p.map .legacy) = p := by
  induction p with
  | nil => rfl
  | cons q p ih => simp [legacyOf, ih]

/-- Legacy prefixes alone pass the check of R86 and R97. -/
@[simp] theorem checkPrefixes_map (p : List LegacyPrefix) (r : DecodeResult) : checkPrefixes (p.map .legacy) r = r := by
  have h2 : (p.map PrefixItem.legacy).contains PrefixItem.excluded = false := by
    rw [List.contains_eq_any_beq, List.any_map, List.any_eq_false]
    intro x _
    simp
  simp only [checkPrefixes, h2, Bool.false_eq_true, if_false]

/-- An excluded byte anywhere among the prefixes makes the instruction illegal (R86, R97, R111, R114). -/
theorem checkPrefixes_excluded {items : List PrefixItem} (r : DecodeResult) (h : .excluded ∈ items) :
    checkPrefixes items r = .illegal .excludedPrefix := by
  simp [checkPrefixes, h]

/-! ## Displacement, SIB, ModRM -/

theorem disp32_of_bytes (d : BitVec 32) :
    (d.extractLsb' 24 8 ++ (d.extractLsb' 16 8 ++ (d.extractLsb' 8 8 ++ d.extractLsb' 0 8)) : BitVec 32) = d := by
  rw [BitVec.extractLsb'_append_extractLsb'_eq_extractLsb' (by rfl),
    BitVec.extractLsb'_append_extractLsb'_eq_extractLsb' (by rfl),
    BitVec.extractLsb'_append_extractLsb'_eq_extractLsb' (by rfl)]
  simp

@[simp] theorem takeDisp32_bytes (d : BitVec 32) (rest : List Byte) :
    takeDisp32 (disp32Bytes d ++ rest) = some (d, rest) := by
  simp only [disp32Bytes, List.cons_append, List.nil_append, takeDisp32]
  rw [disp32_of_bytes]

/-- Reading a displacement undoes writing it (R103). -/
@[simp] theorem takeDisp_bytes (d : Disp) (rest : List Byte) : takeDisp d.mod (d.bytes ++ rest) = some (d, rest) := by
  cases d <;> simp [takeDisp, Disp.mod, Disp.bytes, takeDisp8]

theorem sibIndex_sibByte {i : Option Index} (base : BitVec 3) (h : indexOk i = true) :
    sibIndex (indexBit i) (sibByte i base) = i := by
  cases i with
  | none =>
    have : num4 false 4#3 = 4#4 := by decide
    simp [sibIndex, sibByte, indexBit, this]
  | some i =>
    simp only [indexOk, bne_iff_ne, ne_eq] at h
    simp [sibIndex, sibByte, indexBit, h]

theorem sibByte_base (i : Option Index) (base : BitVec 3) : (sibByte i base).extractLsb' 0 3 = base := by
  cases i <;> simp [sibByte]

theorem Disp.mod_ne_three (d : Disp) : d.mod ≠ 3#2 := by cases d <;> simp [Disp.mod]

theorem Disp.mod_eq_zero (d : Disp) : d.mod = 0#2 ↔ d = .none := by cases d <;> simp [Disp.mod]

/-- Reading ModRM and a memory operand undoes writing them (R55, R101-R103). -/
theorem takeModRM_mem {m : MemAddr} (reg : BitVec 3) (rest : List Byte) (h : m.wf = true) :
    takeModRM m.xBit m.bBit (m.bytes reg ++ rest) = some (reg, .mem m, rest) := by
  cases m with
  | base r d =>
    simp only [MemAddr.wf, baseOk, Bool.and_eq_true, bne_iff_ne, ne_eq, Bool.or_eq_true] at h
    have h5 : ¬(d.mod = 0#2 ∧ low3 r = 5#3) := by
      rintro ⟨hd, hr⟩
      rcases h.2 with h' | h'
      · exact h' ((Disp.mod_eq_zero d).1 hd)
      · exact h' hr
    have h4 : low3 r ≠ 4#3 := h.1
    simp [MemAddr.bytes, takeModRM, takeMem, Disp.mod_ne_three, h5, h4, MemAddr.bBit]
  | sib b i d =>
    simp only [MemAddr.wf, sibBaseOk, Bool.and_eq_true, bne_iff_ne, ne_eq, Bool.or_eq_true] at h
    have h5 : ¬(d.mod = 0#2 ∧ low3 b = 5#3) := by
      rintro ⟨hd, hr⟩
      rcases h.1 with h' | h'
      · exact h' ((Disp.mod_eq_zero d).1 hd)
      · exact h' hr
    simp [MemAddr.bytes, takeModRM, takeMem, Disp.mod_ne_three, h5, MemAddr.bBit, MemAddr.xBit, sibByte_base,
      sibIndex_sibByte _ h.2]
  | sibNoBase i d =>
    simp only [MemAddr.wf] at h
    simp [MemAddr.bytes, takeModRM, takeMem, MemAddr.xBit, sibByte_base, sibIndex_sibByte _ h]
  | ripRelative d =>
    simp [MemAddr.bytes, takeModRM, takeMem]

/-- Reading ModRM of a register operand undoes writing it (R101). -/
theorem takeModRM_reg (x b : Bool) (reg rm : BitVec 3) (rest : List Byte) :
    takeModRM x b (byte233 3#2 reg rm :: rest) = some (reg, .reg rm, rest) := by
  simp [takeModRM]

end Sys2Proof
end

