-- ==== Sys2Proof/Laws/Memory.lean ====
section
/-! SUPPORT. Memory: a byte read after a byte written, and the canonical form kept by every memory operation. -/

namespace Sys2Proof.Machine

theorem memAbove_mono {n n' : Nat} {m : Memory} (hn : n' ≤ n) (h : memAbove n m = true) : memAbove n' m = true := by
  cases m with
  | nil => rfl
  | cons c m =>
    simp only [memAbove, Bool.and_eq_true, decide_eq_true_eq] at h ⊢
    exact ⟨⟨⟨Nat.le_trans hn h.1.1.1, h.1.1.2⟩, h.1.2⟩, h.2⟩

/-- Below its lower bound a canonical memory lists nothing. -/
theorem memGet_of_memAbove {n x : Nat} {m : Memory} (h : memAbove n m = true) (hx : x < n) :
    memGet m x = unlistedByte := by
  induction m generalizing n with
  | nil => rfl
  | cons c m ih =>
    simp only [memAbove, Bool.and_eq_true, decide_eq_true_eq] at h
    have hne : ¬ c.1 = x := by omega
    simp only [memGet, hne, if_false]
    exact ih h.2 (by omega)

theorem memSet_above {n x : Nat} {m : Memory} (v : Byte) (h : memAbove n m = true) (hn : n ≤ x)
    (hx : x < 2 ^ 64) : memAbove n (memSet m x v) = true := by
  induction m generalizing n with
  | nil =>
    simp only [memSet]
    split
    · rfl
    · simp_all [memAbove]
  | cons c m ih =>
    obtain ⟨a, w⟩ := c
    have h0 := h
    simp only [memAbove, Bool.and_eq_true, decide_eq_true_eq] at h
    simp only [memSet]
    split
    · rename_i hlt
      split
      · exact h0
      · rename_i hv
        have : memAbove (x + 1) ((a, w) :: m) = true := by
          simp only [memAbove, Bool.and_eq_true, decide_eq_true_eq]
          exact ⟨⟨⟨hlt, h.1.1.2⟩, h.1.2⟩, h.2⟩
        simp only [memAbove, Bool.and_eq_true, decide_eq_true_eq] at this ⊢
        exact ⟨⟨⟨hn, hx⟩, by simpa using hv⟩, this⟩
    · split
      · rename_i hge heq
        subst heq
        split
        · exact memAbove_mono (by omega) h.2
        · rename_i hv
          simp only [memAbove, Bool.and_eq_true, decide_eq_true_eq]
          exact ⟨⟨⟨hn, hx⟩, by simpa using hv⟩, h.2⟩
      · rename_i hge hne
        simp only [memAbove, Bool.and_eq_true, decide_eq_true_eq]
        exact ⟨h.1, ih h.2 (by omega)⟩

/-- Writing a byte keeps the canonical form. -/
theorem memSet_wf {m : Memory} {x : Nat} (v : Byte) (h : Memory.wf m = true) (hx : x < 2 ^ 64) :
    Memory.wf (memSet m x v) = true :=
  memSet_above v h (Nat.zero_le x) hx

theorem memGet_memSet_above {n x y : Nat} {m : Memory} (v : Byte) (h : memAbove n m = true) :
    memGet (memSet m x v) y = if y = x then v else memGet m y := by
  induction m generalizing n with
  | nil =>
    simp only [memSet]
    by_cases hy : y = x
    · subst hy
      split <;> simp_all [memGet]
    · have : ¬ x = y := fun e => hy e.symm
      split <;> simp_all [memGet]
  | cons c m ih =>
    obtain ⟨a, w⟩ := c
    simp only [memAbove, Bool.and_eq_true, decide_eq_true_eq] at h
    simp only [memSet]
    split
    · rename_i hlt
      have hxm : memGet m x = unlistedByte := memGet_of_memAbove h.2 (by omega)
      by_cases hy : y = x
      · subst hy
        have : ¬ a = y := by omega
        split <;> simp_all [memGet]
      · have : ¬ x = y := fun e => hy e.symm
        split <;> simp_all [memGet]
    · split
      · rename_i hge heq
        subst heq
        have hxm : memGet m x = unlistedByte := memGet_of_memAbove h.2 (by omega)
        by_cases hy : y = x
        · subst hy; split <;> simp_all [memGet]
        · have : ¬ x = y := fun e => hy e.symm
          split <;> simp_all [memGet]
      · rename_i hge hne
        by_cases hy : y = x
        · subst hy
          have : ¬ a = y := fun e => hne e.symm
          simp [memGet, this, ih h.2]
        · simp only [memGet, ih h.2, hy, if_false]

/-- A byte read after a byte written: the value written at that address, the old one elsewhere. -/
theorem memGet_memSet {m : Memory} {x y : Nat} (v : Byte) (h : Memory.wf m = true) :
    memGet (memSet m x v) y = if y = x then v else memGet m y :=
  memGet_memSet_above v h

/-- Placing bytes keeps the canonical form. -/
theorem placeBytes_wf {m : Memory} (a : Word) (bs : List Byte) (h : Memory.wf m = true) :
    Memory.wf (placeBytes m a bs) = true := by
  induction bs generalizing m a with
  | nil => exact h
  | cons b bs ih => exact ih (a + 1) (memSet_wf b h a.isLt)

/-- Two canonical memories that read alike everywhere are equal. -/
theorem memory_ext_above {n : Nat} {m m' : Memory} (h : memAbove n m = true) (h' : memAbove n m' = true)
    (e : ∀ x, memGet m x = memGet m' x) : m = m' := by
  induction m generalizing n m' with
  | nil =>
    cases m' with
    | nil => rfl
    | cons c m' =>
      obtain ⟨a, v⟩ := c
      have := e a
      simp only [memAbove, Bool.and_eq_true, bne_iff_ne] at h'
      exact absurd this.symm (by simpa [memGet] using h'.1.2)
  | cons c m ih =>
    obtain ⟨a, v⟩ := c
    simp only [memAbove, Bool.and_eq_true, decide_eq_true_eq, bne_iff_ne] at h
    cases m' with
    | nil =>
      have := e a
      exact absurd this (by simpa [memGet] using h.1.2)
    | cons c' m' =>
      obtain ⟨b, w⟩ := c'
      simp only [memAbove, Bool.and_eq_true, decide_eq_true_eq, bne_iff_ne] at h'
      have hab : a = b := by
        rcases Nat.lt_trichotomy a b with hlt | heq | hgt
        · have hm : memGet m' a = unlistedByte := memGet_of_memAbove h'.2 (by omega)
          have := e a
          have hba : ¬ b = a := by omega
          simp only [memGet, if_true, hba, if_false, hm] at this
          exact absurd this h.1.2
        · exact heq
        · have hm : memGet m b = unlistedByte := memGet_of_memAbove h.2 (by omega)
          have := e b
          have hab : ¬ a = b := by omega
          simp only [memGet, if_true, hab, if_false, hm] at this
          exact absurd this.symm h'.1.2
      subst hab
      have hvw : v = w := by simpa [memGet] using e a
      subst hvw
      have : m = m' := by
        refine ih h.2 h'.2 fun x => ?_
        by_cases hx : a = x
        · subst hx
          rw [memGet_of_memAbove h.2 (by omega), memGet_of_memAbove h'.2 (by omega)]
        · simpa [memGet, hx] using e x
      rw [this]

/-- Equal memories are equal data: canonical memories that read alike everywhere are equal. -/
theorem memory_ext {m m' : Memory} (h : Memory.wf m = true) (h' : Memory.wf m' = true)
    (e : ∀ x, memGet m x = memGet m' x) : m = m' :=
  memory_ext_above h h' e

/-! ## `Accessible` (R63, R67) -/

/-- A region covers an address at a level: it holds the address and lists the level. -/
theorem regionCovers_iff (r : Region) (cpl : BitVec 2) (a : Word) :
    regionCovers r cpl a = true ↔ r.first ≤ a.toNat ∧ a.toNat < r.first + r.size ∧ cpl ∈ r.levels := by
  simp [regionCovers, and_assoc]

/-- A byte can be read when some region that may be read covers it at CPL. -/
theorem readable_iff (s : State) (a : Word) :
    readable s a = true ↔ ∃ r ∈ s.access, r.read = true ∧ regionCovers r s.cpl a = true := by
  simp [readable]

/-- A byte can be executed when some region that may be executed covers it at CPL. -/
theorem executable_iff (s : State) (a : Word) :
    executable s a = true ↔ ∃ r ∈ s.access, r.exec = true ∧ regionCovers r s.cpl a = true := by
  simp [executable]

end Sys2Proof.Machine
end

