-- ==== Sys2Proof/Laws/Parts.lean ====
section
/-! SUPPORT. `exec` through the one view of all rows (`Parts` of Safety.lean): an enabled instruction whose operand can
be read goes through `ExecPacked` with the lanes that `outcome` names. -/

namespace Sys2Proof.Machine

/-- The parts of the three shapes. -/
theorem parts_vex (k : Kind) (l : VexLength) (p : List LegacyPrefix) (dst src2 : BitVec 4) (op3 : VexOp3) :
    parts (Instr.vex k l p dst src2 op3) = vexParts k (vexLanes l) p dst src2 op3 := by
  cases l <;> cases k <;> rfl

theorem parts_evex (k : Kind) (l : EvexLength) (p : List LegacyPrefix) (mask : Masking) (dst src2 : BitVec 5)
    (op3 : EvexOp3) :
    parts (Instr.evex k l p mask dst src2 op3) = evexParts k (evexLanes l) p mask dst src2 op3 := by
  cases l <;> cases k <;> rfl

theorem parts_evexRounded (k : Kind) (p : List LegacyPrefix) (mask : Masking) (dst src2 r : BitVec 5) (rc : Rounding) :
    parts (Instr.evexRounded k p mask dst src2 r rc) =
      { evexParts k 8 p mask dst src2 (.reg r) with rounding := some rc } := by
  cases k <;> rfl

/-- The destination is operand 1 of the parts. -/
theorem destination_eq_parts (i : Instr) : destination i = (parts i).dst := by
  rcases instr_shape i with ⟨k, l, p, dst, src2, op3, rfl⟩ | ⟨k, l, p, mask, dst, src2, op3, rfl⟩ |
    ⟨k, p, mask, dst, src2, r, rc, rfl⟩
  · rw [destination_vex, parts_vex]; rfl
  · rw [destination_evex, parts_evex]; rfl
  · rw [destination_evexRounded, parts_evexRounded]; rfl

/-- What `ExecPacked` is given for an instruction, in the terms of `parts`. -/
def packedAs (s : State) (i : Instr) (o : PackedOp) : Prop :=
  o.dst = (parts i).dst ∧ o.lanes = (parts i).lanes ∧ o.active = activeLane s i ∧
  o.zmask = isZeroing (parts i).mask ∧ o.sae = (parts i).rounding.isSome ∧ o.ilen = i.length ∧
  o.lanes ≤ 8 ∧ ∀ j, o.lane s j = outcome s i j

theorem lane_eq_laneOf (o : PackedOp) (s : State) (j : Nat) :
    o.lane s j = laneOf o.kind s.mxcsr o.rc o.sae (lane (readVec s o.dst) j) (lane (readVec s o.src2) j) (o.op3 j) :=
  laneResult_eq_laneOf _ _ _ _ _ _ _

theorem packedAs_vex (k : Kind) (l : VexLength) (p : List LegacyPrefix) (dst src2 : BitVec 4) (op3 : VexOp3) (s : State)
    (c : Nat → Word) (hc : ∀ j, c j = operand3 s (Instr.vex k l p dst src2 op3) j) :
    packedAs s (Instr.vex k l p dst src2 op3) (vexOp k l dst src2 c (vexLength p op3) s) := by
  refine ⟨by rw [parts_vex]; rfl, by rw [parts_vex]; rfl, ?_, by rw [parts_vex]; rfl, by rw [parts_vex]; rfl,
    by rw [length_vex]; rfl, by cases l <;> simp [vexOp, vexLanes], fun j => ?_⟩
  · funext j
    rw [activeLane, parts_vex]
    rfl
  · rw [lane_eq_laneOf, outcome, ← hc, parts_vex]
    rfl

theorem packedAs_evex (k : Kind) (l : EvexLength) (p : List LegacyPrefix) (mask : Masking) (dst src2 : BitVec 5)
    (op3 : EvexOp3) (s : State) (c : Nat → Word) (hc : ∀ j, c j = operand3 s (Instr.evex k l p mask dst src2 op3) j) :
    packedAs s (Instr.evex k l p mask dst src2 op3)
      (evexOp k l mask dst src2 c (evexLength p (.plain op3)) s) := by
  refine ⟨by rw [parts_evex]; rfl, by rw [parts_evex]; rfl, ?_, by rw [parts_evex]; rfl, by rw [parts_evex]; rfl,
    by rw [length_evex]; rfl, by cases l <;> simp [evexOp, evexLanes], fun j => ?_⟩
  · funext j
    rw [activeLane, parts_evex]
    rfl
  · rw [lane_eq_laneOf, outcome, ← hc, parts_evex]
    rfl

theorem packedAs_rounded (k : Kind) (p : List LegacyPrefix) (mask : Masking) (dst src2 r : BitVec 5) (rc : Rounding)
    (s : State) :
    packedAs s (Instr.evexRounded k p mask dst src2 r rc) (roundedOp k p mask dst src2 r rc s) := by
  refine ⟨by rw [parts_evexRounded]; rfl, by rw [parts_evexRounded]; rfl, ?_, by rw [parts_evexRounded]; rfl,
    by rw [parts_evexRounded]; rfl, by rw [length_evexRounded]; rfl, by simp [roundedOp], fun j => ?_⟩
  · funext j
    rw [activeLane, parts_evexRounded]
    rfl
  · simp only [lane_eq_laneOf, outcome, operand3, parts_evexRounded]
    rfl

/-! ## Which bytes are checked -/

/-- The bytes of a full-vector operand's accessed elements, by their offsets (R61, R193). -/
theorem mem_vectorElements_bytes {la a : Word} {kl : Nat} {active : Nat → Bool} :
    a ∈ elementBytes (vectorElements la kl active) ↔
      ∃ t, t < 8 * kl ∧ active (t / 8) = true ∧ a = la + BitVec.ofNat 64 t := by
  simp only [elementBytes, vectorElements, byteAddresses, List.mem_flatMap, List.mem_map, List.mem_filter,
    List.mem_range]
  constructor
  · rintro ⟨_, ⟨j, ⟨hj, hja⟩, rfl⟩, t, ht, rfl⟩
    have hd : (8 * j + t) / 8 = j := by omega
    exact ⟨8 * j + t, by omega, by rw [hd]; exact hja, by rw [BitVec.add_assoc, ← BitVec.ofNat_add]⟩
  · rintro ⟨t, ht, hta, rfl⟩
    refine ⟨_, ⟨t / 8, ⟨by omega, hta⟩, rfl⟩, t % 8, by omega, ?_⟩
    rw [BitVec.add_assoc, ← BitVec.ofNat_add, Nat.div_add_mod]

/-- The bytes of a broadcast operand's element, by their offsets, if some lane is active (R61, R193). -/
theorem mem_broadcastElements_bytes {la a : Word} {kl : Nat} {active : Nat → Bool} :
    a ∈ elementBytes (broadcastElements la kl active) ↔
      ∃ t, t < 8 ∧ (∃ j, j < kl ∧ active j = true) ∧ a = la + BitVec.ofNat 64 t := by
  have hany : (List.range kl).any active = true ↔ ∃ j, j < kl ∧ active j = true := by simp
  unfold broadcastElements
  split
  · rename_i h
    simp only [elementBytes, byteAddresses, List.mem_flatMap, List.mem_singleton, List.mem_map, List.mem_range]
    constructor
    · rintro ⟨_, rfl, t, ht, rfl⟩
      exact ⟨t, ht, hany.1 h, rfl⟩
    · rintro ⟨t, ht, _, rfl⟩
      exact ⟨la, rfl, t, ht, rfl⟩
  · rename_i h
    simp only [elementBytes, List.flatMap_nil, List.not_mem_nil, false_iff]
    rintro ⟨t, _, hj, _⟩
    exact h (hany.2 hj)

/-- The bytes that a VEX memory form checks are those of `accesses` (R61). -/
theorem readable_vex {k : Kind} {l : VexLength} {p : List LegacyPrefix} {dst src2 : BitVec 4} {m : MemAddr} {s : State}
    (ho : operandOk s (Instr.vex k l p dst src2 (.mem m))) :
    operandReadable s (elementBytes (vectorElements (linearAddress s p 1 (vexLength p (.mem m)) m) (vexLanes l)
      fun _ => true)) = true := by
  have hm := ho m (by simp only [memOperand, parts_vex]; rfl)
  simp only [operandAddress, accesses, activeLane, parts_vex, length_vex] at hm
  simp only [operandReadable, hm.1, Bool.not_false, Bool.true_and, List.all_eq_true, mem_vectorElements_bytes]
  rintro a ⟨t, ht, _, rfl⟩
  exact Bool.and_eq_true_iff.2 (hm.2 t ⟨ht, rfl⟩)

/-- The bytes that an EVEX full-vector memory form checks are those of `accesses` (R61, R193). -/
theorem readable_evex {k : Kind} {l : EvexLength} {p : List LegacyPrefix} {mask : Masking} {dst src2 : BitVec 5}
    {m : MemAddr} {s : State} (ho : operandOk s (Instr.evex k l p mask dst src2 (.mem m))) :
    operandReadable s (elementBytes (vectorElements (linearAddress s p (8 * evexLanes l)
      (evexLength p (.plain (.mem m))) m) (evexLanes l) (laneActive s mask))) = true := by
  have hm := ho m (by simp only [memOperand, parts_evex]; rfl)
  simp only [operandAddress, accesses, activeLane, parts_evex, length_evex] at hm
  simp only [operandReadable, hm.1, Bool.not_false, Bool.true_and, List.all_eq_true, mem_vectorElements_bytes]
  rintro a ⟨t, ht, hta, rfl⟩
  exact Bool.and_eq_true_iff.2 (hm.2 t ⟨ht, hta⟩)

/-- The bytes that a broadcast form checks are those of `accesses` (R61, R193). -/
theorem readable_broadcast {k : Kind} {l : EvexLength} {p : List LegacyPrefix} {mask : Masking} {dst src2 : BitVec 5}
    {m : MemAddr} {s : State} (ho : operandOk s (Instr.evex k l p mask dst src2 (.broadcast m))) :
    operandReadable s (elementBytes (broadcastElements (linearAddress s p 8 (evexLength p (.plain (.broadcast m))) m)
      (evexLanes l) (laneActive s mask))) = true := by
  have hm := ho m (by simp only [memOperand, parts_evex]; rfl)
  simp only [operandAddress, accesses, activeLane, parts_evex, length_evex] at hm
  simp only [operandReadable, hm.1, Bool.not_false, Bool.true_and, List.all_eq_true, mem_broadcastElements_bytes]
  rintro a ⟨t, ht, hj, rfl⟩
  exact Bool.and_eq_true_iff.2 (hm.2 t ⟨ht, hj⟩)

/-- An enabled instruction whose operand can be read goes through `ExecPacked` (R170, R171, R191-R193). -/
theorem exec_of_enabled {s : State} {i : Instr} (he : enabled s i = true) (ho : operandOk s i) :
    ∃ o, packedAs s i o ∧ exec i s = execPacked o s := by
  have hg := gateOf_enabled he
  rcases instr_shape i with ⟨k, l, p, dst, src2, op3, rfl⟩ | ⟨k, l, p, mask, dst, src2, op3, rfl⟩ |
    ⟨k, p, mask, dst, src2, r, rc, rfl⟩
  · rw [gateOf_vex] at hg
    rw [exec_vex]
    unfold execVex
    rw [hg]
    cases op3 with
    | reg r =>
      refine ⟨_, packedAs_vex k l p dst src2 (.reg r) s _ fun j => ?_, rfl⟩
      simp only [operand3, parts_vex]
      rfl
    | mem m =>
      dsimp only
      rw [memFault_of_readable _ _ _ (readable_vex ho)]
      refine ⟨_, packedAs_vex k l p dst src2 (.mem m) s _ fun j => ?_, rfl⟩
      simp only [operand3, operandAddress, parts_vex, length_vex]
      rfl
  · rw [gateOf_evex] at hg
    rw [exec_evex]
    unfold execEvex
    rw [hg]
    cases op3 with
    | reg r =>
      refine ⟨_, packedAs_evex k l p mask dst src2 (.reg r) s _ fun j => ?_, rfl⟩
      simp only [operand3, parts_evex]
      rfl
    | mem m =>
      dsimp only
      rw [memFault_of_readable _ _ _ (readable_evex ho)]
      refine ⟨_, packedAs_evex k l p mask dst src2 (.mem m) s _ fun j => ?_, rfl⟩
      simp only [operand3, operandAddress, parts_evex, length_evex]
      rfl
    | broadcast m =>
      dsimp only
      rw [memFault_of_readable _ _ _ (readable_broadcast ho)]
      refine ⟨_, packedAs_evex k l p mask dst src2 (.broadcast m) s _ fun j => ?_, rfl⟩
      simp only [operand3, operandAddress, parts_evex, length_evex]
      rfl
  · rw [gateOf_evexRounded] at hg
    rw [exec_evexRounded]
    unfold execEvex512
    dsimp only
    rw [hg]
    exact ⟨_, packedAs_rounded k p mask dst src2 r rc s, rfl⟩

end Sys2Proof.Machine
end

