-- ==== Sys2Proof/Laws/PerInstr.lean ====
section
/-! SUPPORT. The per-instruction family `EncodedLength`: the encoder writes exactly `ilen` bytes (R109). -/

namespace Sys2Proof

theorem length_dispBytes (d : Disp) : d.bytes.length = d.length := by cases d <;> rfl

theorem length_memBytes (m : MemAddr) (reg : BitVec 3) : (m.bytes reg).length = 1 + m.length := by
  cases m with
  | base r d => simp [MemAddr.bytes, MemAddr.length, length_dispBytes]; omega
  | sib b i d => simp [MemAddr.bytes, MemAddr.length, length_dispBytes]; omega
  | sibNoBase i d => simp [MemAddr.bytes, MemAddr.length, disp32Bytes]
  | ripRelative d => simp [MemAddr.bytes, MemAddr.length, disp32Bytes]

theorem length_encodeVex (k : Kind) (l : VexLength) (p : List LegacyPrefix) (dst src2 : BitVec 4) (op3 : VexOp3) :
    (encodeVex k l p dst src2 op3).length = vexLength p op3 := by
  cases op3 with
  | reg r => simp [encodeVex, vexLength, VexOp3.bytes, VexOp3.length]
  | mem m => simp [encodeVex, vexLength, VexOp3.bytes, VexOp3.length, length_memBytes]; omega

theorem length_encodeEvex (k : Kind) (l : EvexLength) (p : List LegacyPrefix) (mask : Masking) (dst src2 : BitVec 5)
    (op3 : EvexOp3) : (encodeEvex k l p mask dst src2 op3).length = evexLength p (.plain op3) := by
  cases op3 with
  | reg r => simp [encodeEvex, evexLength, EvexOp3.bytes, EvexOp3Er.length, EvexOp3.length]
  | mem m => simp [encodeEvex, evexLength, EvexOp3.bytes, EvexOp3Er.length, EvexOp3.length, length_memBytes]; omega
  | broadcast m =>
    simp [encodeEvex, evexLength, EvexOp3.bytes, EvexOp3Er.length, EvexOp3.length, length_memBytes]; omega

theorem length_encodeEvex512 (k : Kind) (p : List LegacyPrefix) (mask : Masking) (dst src2 : BitVec 5)
    (op3 : EvexOp3Er) : (encodeEvex512 k p mask dst src2 op3).length = evexLength p op3 := by
  cases op3 with
  | plain o => exact length_encodeEvex k .l512 p mask dst src2 o
  | rounded r rc => simp [encodeEvex512, encodeRounded, evexLength, EvexOp3Er.length]

end Sys2Proof

namespace Sys2Proof.Laws.EncodedLength

/-- The encoding of an instruction is as long as `ilen` says (R109). -/
def Statement (i : Sys2Proof.Instr) : Prop := (Sys2Proof.encode i).length = i.length

theorem vfnmadd132pdXmmVex (p : List LegacyPrefix) (dst src2 : BitVec 4) (op3 : VexOp3) :
    Statement (.vfnmadd132pdXmmVex p dst src2 op3) :=
  length_encodeVex .k132 .l128 p dst src2 op3

theorem vfnmadd213pdXmmVex (p : List LegacyPrefix) (dst src2 : BitVec 4) (op3 : VexOp3) :
    Statement (.vfnmadd213pdXmmVex p dst src2 op3) :=
  length_encodeVex .k213 .l128 p dst src2 op3

theorem vfnmadd231pdXmmVex (p : List LegacyPrefix) (dst src2 : BitVec 4) (op3 : VexOp3) :
    Statement (.vfnmadd231pdXmmVex p dst src2 op3) :=
  length_encodeVex .k231 .l128 p dst src2 op3

theorem vfnmadd132pdYmmVex (p : List LegacyPrefix) (dst src2 : BitVec 4) (op3 : VexOp3) :
    Statement (.vfnmadd132pdYmmVex p dst src2 op3) :=
  length_encodeVex .k132 .l256 p dst src2 op3

theorem vfnmadd213pdYmmVex (p : List LegacyPrefix) (dst src2 : BitVec 4) (op3 : VexOp3) :
    Statement (.vfnmadd213pdYmmVex p dst src2 op3) :=
  length_encodeVex .k213 .l256 p dst src2 op3

theorem vfnmadd231pdYmmVex (p : List LegacyPrefix) (dst src2 : BitVec 4) (op3 : VexOp3) :
    Statement (.vfnmadd231pdYmmVex p dst src2 op3) :=
  length_encodeVex .k231 .l256 p dst src2 op3

theorem vfnmadd132pdXmmEvex (p : List LegacyPrefix) (mask : Masking) (dst src2 : BitVec 5) (op3 : EvexOp3) :
    Statement (.vfnmadd132pdXmmEvex p mask dst src2 op3) :=
  length_encodeEvex .k132 .l128 p mask dst src2 op3

theorem vfnmadd213pdXmmEvex (p : List LegacyPrefix) (mask : Masking) (dst src2 : BitVec 5) (op3 : EvexOp3) :
    Statement (.vfnmadd213pdXmmEvex p mask dst src2 op3) :=
  length_encodeEvex .k213 .l128 p mask dst src2 op3

theorem vfnmadd231pdXmmEvex (p : List LegacyPrefix) (mask : Masking) (dst src2 : BitVec 5) (op3 : EvexOp3) :
    Statement (.vfnmadd231pdXmmEvex p mask dst src2 op3) :=
  length_encodeEvex .k231 .l128 p mask dst src2 op3

theorem vfnmadd132pdYmmEvex (p : List LegacyPrefix) (mask : Masking) (dst src2 : BitVec 5) (op3 : EvexOp3) :
    Statement (.vfnmadd132pdYmmEvex p mask dst src2 op3) :=
  length_encodeEvex .k132 .l256 p mask dst src2 op3

theorem vfnmadd213pdYmmEvex (p : List LegacyPrefix) (mask : Masking) (dst src2 : BitVec 5) (op3 : EvexOp3) :
    Statement (.vfnmadd213pdYmmEvex p mask dst src2 op3) :=
  length_encodeEvex .k213 .l256 p mask dst src2 op3

theorem vfnmadd231pdYmmEvex (p : List LegacyPrefix) (mask : Masking) (dst src2 : BitVec 5) (op3 : EvexOp3) :
    Statement (.vfnmadd231pdYmmEvex p mask dst src2 op3) :=
  length_encodeEvex .k231 .l256 p mask dst src2 op3

theorem vfnmadd132pdZmmEvex (p : List LegacyPrefix) (mask : Masking) (dst src2 : BitVec 5) (op3 : EvexOp3Er) :
    Statement (.vfnmadd132pdZmmEvex p mask dst src2 op3) :=
  length_encodeEvex512 .k132 p mask dst src2 op3

theorem vfnmadd213pdZmmEvex (p : List LegacyPrefix) (mask : Masking) (dst src2 : BitVec 5) (op3 : EvexOp3Er) :
    Statement (.vfnmadd213pdZmmEvex p mask dst src2 op3) :=
  length_encodeEvex512 .k213 p mask dst src2 op3

theorem vfnmadd231pdZmmEvex (p : List LegacyPrefix) (mask : Masking) (dst src2 : BitVec 5) (op3 : EvexOp3Er) :
    Statement (.vfnmadd231pdZmmEvex p mask dst src2 op3) :=
  length_encodeEvex512 .k231 p mask dst src2 op3

end Sys2Proof.Laws.EncodedLength
end

