-- ==== Sys2Proof/Tests/Slice0.lean ====
section
/-! SUPPORT. The model's own tests: the well-formedness smoke, one word of the spec per constructor decoded and encoded,
a result per constructor, one fault of each kind, and a witness for the hypotheses of every obligation. Expected
results are the spec's own examples. -/

namespace Sys2Proof.Tests

-- one theorem after another: each kernel evaluation below would otherwise hold a thread
set_option Elab.async false

open Sys2Proof Sys2Proof.Machine

/-! ## Well-formedness: each check refuses an ill-formed term (R55, R110) -/

theorem test_wf_base_low3_100 : (MemAddr.base 12#4 .none).wf = false := by decide
theorem test_wf_base_101_without_disp : (MemAddr.base 13#4 .none).wf = false := by decide
theorem test_wf_base_101_with_disp8 : (MemAddr.base 13#4 (.disp8 0#8)).wf = true := by decide
theorem test_wf_sib_base_101_without_disp : (MemAddr.sib 5#4 none .none).wf = false := by decide
theorem test_wf_index_rsp : (MemAddr.sib 0#4 (some { reg := 4#4, scale := 0#2 }) .none).wf = false := by decide
theorem test_wf_index_r12 : (MemAddr.sib 0#4 (some { reg := 12#4, scale := 0#2 }) .none).wf = true := by decide
theorem test_wf_no_base_index_rsp : (MemAddr.sibNoBase (some { reg := 4#4, scale := 0#2 }) 0#32).wf = false := by decide
theorem test_wf_too_long :
    (Instr.vfnmadd132pdXmmVex (List.replicate 11 .ds) 1#4 2#4 (.reg 3#4)).wf = false := by decide
theorem test_wf_fifteen_bytes :
    (Instr.vfnmadd132pdXmmVex (List.replicate 10 .ds) 1#4 2#4 (.reg 3#4)).wf = true := by decide

/-! ## Decoding: the words that 30_encoding.md, 41_vex_forms.md and 42_evex_forms.md write out -/

/-- Row by row: R172-R177, R200-R208; then R92, R56, R32. -/
theorem test_decode_vfnmadd132pdXmmVex :
    decode [0xC4#8, 0xE2#8, 0xE9#8, 0x9C#8, 0xCB#8] = .instr (.vfnmadd132pdXmmVex [] 1#4 2#4 (.reg 3#4)) [] ∧
    encode (.vfnmadd132pdXmmVex [] 1#4 2#4 (.reg 3#4)) = [0xC4#8, 0xE2#8, 0xE9#8, 0x9C#8, 0xCB#8] := by decide

theorem test_decode_vfnmadd213pdXmmVex :
    decode [0xC4#8, 0xE2#8, 0xE9#8, 0xAC#8, 0xCB#8] = .instr (.vfnmadd213pdXmmVex [] 1#4 2#4 (.reg 3#4)) [] ∧
    encode (.vfnmadd213pdXmmVex [] 1#4 2#4 (.reg 3#4)) = [0xC4#8, 0xE2#8, 0xE9#8, 0xAC#8, 0xCB#8] := by decide

theorem test_decode_vfnmadd231pdXmmVex :
    decode [0xC4#8, 0x42#8, 0xB1#8, 0xBC#8, 0xC2#8] = .instr (.vfnmadd231pdXmmVex [] 8#4 9#4 (.reg 10#4)) [] ∧
    encode (.vfnmadd231pdXmmVex [] 8#4 9#4 (.reg 10#4)) = [0xC4#8, 0x42#8, 0xB1#8, 0xBC#8, 0xC2#8] := by decide

theorem test_decode_vfnmadd132pdYmmVex :
    decode [0xC4#8, 0xE2#8, 0xED#8, 0x9C#8, 0xCB#8] = .instr (.vfnmadd132pdYmmVex [] 1#4 2#4 (.reg 3#4)) [] ∧
    encode (.vfnmadd132pdYmmVex [] 1#4 2#4 (.reg 3#4)) = [0xC4#8, 0xE2#8, 0xED#8, 0x9C#8, 0xCB#8] := by decide

theorem test_decode_vfnmadd213pdYmmVex :
    decode [0xC4#8, 0xE2#8, 0xED#8, 0xAC#8, 0x4C#8, 0x98#8, 0x10#8] =
      .instr (.vfnmadd213pdYmmVex [] 1#4 2#4 (.mem (.sib 0#4 (some { reg := 3#4, scale := 2#2 }) (.disp8 0x10#8)))) [] ∧
    encode (.vfnmadd213pdYmmVex [] 1#4 2#4 (.mem (.sib 0#4 (some { reg := 3#4, scale := 2#2 }) (.disp8 0x10#8)))) =
      [0xC4#8, 0xE2#8, 0xED#8, 0xAC#8, 0x4C#8, 0x98#8, 0x10#8] := by decide

theorem test_decode_vfnmadd231pdYmmVex :
    decode [0xC4#8, 0x02#8, 0xED#8, 0xBC#8, 0x8C#8, 0xC8#8, 0x78#8, 0x56#8, 0x34#8, 0x12#8] =
      .instr (.vfnmadd231pdYmmVex [] 9#4 2#4 (.mem (.sib 8#4 (some { reg := 9#4, scale := 3#2 }) (.disp32 0x12345678#32)))) [] ∧
    encode (.vfnmadd231pdYmmVex [] 9#4 2#4 (.mem (.sib 8#4 (some { reg := 9#4, scale := 3#2 }) (.disp32 0x12345678#32)))) =
      [0xC4#8, 0x02#8, 0xED#8, 0xBC#8, 0x8C#8, 0xC8#8, 0x78#8, 0x56#8, 0x34#8, 0x12#8] := by decide

theorem test_decode_vfnmadd132pdXmmEvex :
    decode [0x62#8, 0xF2#8, 0xED#8, 0x18#8, 0x9C#8, 0x08#8] =
      .instr (.vfnmadd132pdXmmEvex [] .unmasked 1#5 2#5 (.broadcast (.base 0#4 .none))) [] ∧
    encode (.vfnmadd132pdXmmEvex [] .unmasked 1#5 2#5 (.broadcast (.base 0#4 .none))) =
      [0x62#8, 0xF2#8, 0xED#8, 0x18#8, 0x9C#8, 0x08#8] := by decide

theorem test_decode_vfnmadd213pdXmmEvex :
    decode [0x62#8, 0xF2#8, 0xED#8, 0x89#8, 0xAC#8, 0xCB#8] =
      .instr (.vfnmadd213pdXmmEvex [] (.zeroing .k1) 1#5 2#5 (.reg 3#5)) [] ∧
    encode (.vfnmadd213pdXmmEvex [] (.zeroing .k1) 1#5 2#5 (.reg 3#5)) =
      [0x62#8, 0xF2#8, 0xED#8, 0x89#8, 0xAC#8, 0xCB#8] := by decide

theorem test_decode_vfnmadd231pdXmmEvex :
    decode [0x62#8, 0xF2#8, 0xED#8, 0x0A#8, 0xBC#8, 0x48#8, 0x01#8] =
      .instr (.vfnmadd231pdXmmEvex [] (.merging .k2) 1#5 2#5 (.mem (.base 0#4 (.disp8 1#8)))) [] ∧
    encode (.vfnmadd231pdXmmEvex [] (.merging .k2) 1#5 2#5 (.mem (.base 0#4 (.disp8 1#8)))) =
      [0x62#8, 0xF2#8, 0xED#8, 0x0A#8, 0xBC#8, 0x48#8, 0x01#8] := by decide

theorem test_decode_vfnmadd132pdYmmEvex :
    decode [0x62#8, 0xF2#8, 0xED#8, 0x29#8, 0x9C#8, 0xCB#8] =
      .instr (.vfnmadd132pdYmmEvex [] (.merging .k1) 1#5 2#5 (.reg 3#5)) [] ∧
    encode (.vfnmadd132pdYmmEvex [] (.merging .k1) 1#5 2#5 (.reg 3#5)) =
      [0x62#8, 0xF2#8, 0xED#8, 0x29#8, 0x9C#8, 0xCB#8] := by decide

theorem test_decode_vfnmadd213pdYmmEvex :
    decode [0x62#8, 0xF2#8, 0xED#8, 0xAD#8, 0xAC#8, 0x48#8, 0x01#8] =
      .instr (.vfnmadd213pdYmmEvex [] (.zeroing .k5) 1#5 2#5 (.mem (.base 0#4 (.disp8 1#8)))) [] ∧
    encode (.vfnmadd213pdYmmEvex [] (.zeroing .k5) 1#5 2#5 (.mem (.base 0#4 (.disp8 1#8)))) =
      [0x62#8, 0xF2#8, 0xED#8, 0xAD#8, 0xAC#8, 0x48#8, 0x01#8] := by decide

theorem test_decode_vfnmadd231pdYmmEvex :
    decode [0x62#8, 0xA2#8, 0xED#8, 0x21#8, 0xBC#8, 0xCB#8] =
      .instr (.vfnmadd231pdYmmEvex [] (.merging .k1) 17#5 18#5 (.reg 19#5)) [] ∧
    encode (.vfnmadd231pdYmmEvex [] (.merging .k1) 17#5 18#5 (.reg 19#5)) =
      [0x62#8, 0xA2#8, 0xED#8, 0x21#8, 0xBC#8, 0xCB#8] := by decide

theorem test_decode_vfnmadd132pdZmmEvex :
    decode [0x62#8, 0xF2#8, 0xED#8, 0x48#8, 0x9C#8, 0xCB#8] =
      .instr (.vfnmadd132pdZmmEvex [] .unmasked 1#5 2#5 (.plain (.reg 3#5))) [] ∧
    encode (.vfnmadd132pdZmmEvex [] .unmasked 1#5 2#5 (.plain (.reg 3#5))) =
      [0x62#8, 0xF2#8, 0xED#8, 0x48#8, 0x9C#8, 0xCB#8] := by decide

theorem test_decode_vfnmadd213pdZmmEvex :
    decode [0x62#8, 0xF2#8, 0xED#8, 0x38#8, 0xAC#8, 0xCB#8] =
      .instr (.vfnmadd213pdZmmEvex [] .unmasked 1#5 2#5 (.rounded 3#5 .down)) [] ∧
    encode (.vfnmadd213pdZmmEvex [] .unmasked 1#5 2#5 (.rounded 3#5 .down)) =
      [0x62#8, 0xF2#8, 0xED#8, 0x38#8, 0xAC#8, 0xCB#8] := by decide

theorem test_decode_vfnmadd231pdZmmEvex :
    decode [0x62#8, 0xF2#8, 0xED#8, 0xF9#8, 0xBC#8, 0xCB#8] =
      .instr (.vfnmadd231pdZmmEvex [] (.zeroing .k1) 1#5 2#5 (.rounded 3#5 .toZero)) [] ∧
    encode (.vfnmadd231pdZmmEvex [] (.zeroing .k1) 1#5 2#5 (.rounded 3#5 .toZero)) =
      [0x62#8, 0xF2#8, 0xED#8, 0xF9#8, 0xBC#8, 0xCB#8] := by decide

theorem test_decode_high_registers :
    decode [0x62#8, 0x02#8, 0x8D#8, 0x40#8, 0xBC#8, 0xFD#8] =
      .instr (.vfnmadd231pdZmmEvex [] .unmasked 31#5 30#5 (.plain (.reg 29#5))) [] ∧
    encode (.vfnmadd231pdZmmEvex [] .unmasked 31#5 30#5 (.plain (.reg 29#5))) =
      [0x62#8, 0x02#8, 0x8D#8, 0x40#8, 0xBC#8, 0xFD#8] := by decide

theorem test_decode_rip_relative :
    decode [0xC4#8, 0xE2#8, 0xED#8, 0xAC#8, 0x0D#8, 0x00#8, 0x01#8, 0x00#8, 0x00#8] =
      .instr (.vfnmadd213pdYmmVex [] 1#4 2#4 (.mem (.ripRelative 0x100#32))) [] ∧
    encode (.vfnmadd213pdYmmVex [] 1#4 2#4 (.mem (.ripRelative 0x100#32))) =
      [0xC4#8, 0xE2#8, 0xED#8, 0xAC#8, 0x0D#8, 0x00#8, 0x01#8, 0x00#8, 0x00#8] := by decide

theorem test_decode_segment_prefix :
    decode [0x64#8, 0xC4#8, 0xE2#8, 0xE9#8, 0xBC#8, 0x08#8] =
      .instr (.vfnmadd231pdXmmVex [.fs] 1#4 2#4 (.mem (.base 0#4 .none))) [] ∧
    encode (.vfnmadd231pdXmmVex [.fs] 1#4 2#4 (.mem (.base 0#4 .none))) =
      [0x64#8, 0xC4#8, 0xE2#8, 0xE9#8, 0xBC#8, 0x08#8] := by decide

theorem test_decode_table_word :
    decodeTableWord 40 0xBC40850262 =
      some (.vfnmadd231pdZmmEvex [] .unmasked 24#5 31#5 (.plain (.mem (.base 8#4 .none)))) := by decide

/-! ## A small state: 64-bit mode, registers 1, 2, 3 full of 2.0, 3.0, 5.0, RAX at 64 bytes of 5.0 (R151) -/

/-- Eight equal lanes. -/
def all8 (w : Word) : Vec := packLanes (List.replicate 8 w)

/-- 5.0 eight times, as bytes of memory. -/
def fives : List Byte := (List.replicate 8 [0#8, 0#8, 0#8, 0#8, 0#8, 0#8, 0x14#8, 0x40#8]).flatten

/-- The state the tests start from; its mask register k1 holds 0101b. -/
def base : State :=
  { State.reset.launch with
    rip := 0x1000#64
    vec := (((Vector.replicate 32 0#512).set 1 (all8 0x4000000000000000#64)).set 2 (all8 0x4008000000000000#64)).set 3
      (all8 0x4014000000000000#64)
    gpr := (Vector.replicate 16 0#64).set 0 0x2000#64
    opmask := (Vector.replicate 8 0#64).set 1 5#64
    mem := placeBytes [] 0x2000#64 fives }

/-- `base` with other contents in registers 1, 2, 3. -/
def withRegs (a b c : Word) (mxcsr : BitVec 32) : State :=
  { base with
    vec := (((Vector.replicate 32 0#512).set 1 (all8 a)).set 2 (all8 b)).set 3 (all8 c)
    mxcsr := mxcsr }

/-- `base` with an instruction's bytes at RIP. -/
def holding (bs : List Byte) : State := placeInstruction base bs

/-- The lanes of a register after an outcome. -/
def lanesAfter (r : Result) (q : BitVec 5) : Option (List Word) :=
  match r with
  | .next t => some ((List.range 8).map (lane (readVec t q)))
  | .fault _ => none
  | .refused _ => none

/-- The exception and the error code of an outcome. -/
def faultOf (r : Result) : Option (Exception × Nat × Option (BitVec 32) × Option Word) :=
  match r with
  | .fault (.exception q _) => some (q.exception, q.vector, q.errorCode, q.cr2)
  | .next _ => none
  | .refused _ => none

/-- MXCSR of the state that an outcome leaves. -/
def mxcsrAfter (r : Result) : Option (BitVec 32) :=
  match r with
  | .next t => some t.mxcsr
  | .fault (.exception _ left) => some left.mxcsr
  | .refused _ => none

/-- The refusal of an outcome. -/
def refusalOf (r : Result) : Option Refusal :=
  match r with
  | .refused q => some q
  | .next _ => none
  | .fault _ => none

/-- Is it a next state? -/
def isNext (r : Result) : Bool :=
  match r with
  | .next _ => true
  | .fault _ => false
  | .refused _ => false

theorem exists_next {r : Result} (h : isNext r = true) : ∃ t, r = .next t := by
  cases r with
  | next t => exact ⟨t, rfl⟩
  | fault f => cases h
  | refused f => cases h

/-! ## Results: the examples of R172-R177 and R200-R208 -/

theorem test_vfnmadd132pdXmmVex :
    lanesAfter (exec (.vfnmadd132pdXmmVex [] 1#4 2#4 (.reg 3#4)) base) 1#5 =
      some [0xC01C000000000000#64, 0xC01C000000000000#64, 0#64, 0#64, 0#64, 0#64, 0#64, 0#64] := by
  decide +kernel

theorem test_vfnmadd132pdXmmVex_memory :
    lanesAfter (exec (.vfnmadd132pdXmmVex [] 1#4 2#4 (.mem (.base 0#4 .none))) base) 1#5 =
      some [0xC01C000000000000#64, 0xC01C000000000000#64, 0#64, 0#64, 0#64, 0#64, 0#64, 0#64] := by
  decide +kernel

theorem test_vfnmadd213pdXmmVex :
    lanesAfter (exec (.vfnmadd213pdXmmVex [] 1#4 2#4 (.reg 3#4)) base) 1#5 =
      some [0xBFF0000000000000#64, 0xBFF0000000000000#64, 0#64, 0#64, 0#64, 0#64, 0#64, 0#64] := by
  decide +kernel

theorem test_vfnmadd213pdXmmVex_memory :
    lanesAfter (exec (.vfnmadd213pdXmmVex [] 1#4 2#4 (.mem (.base 0#4 .none))) base) 1#5 =
      some [0xBFF0000000000000#64, 0xBFF0000000000000#64, 0#64, 0#64, 0#64, 0#64, 0#64, 0#64] := by
  decide +kernel

theorem test_vfnmadd231pdXmmVex :
    lanesAfter (exec (.vfnmadd231pdXmmVex [] 1#4 2#4 (.reg 3#4)) base) 1#5 =
      some [0xC02A000000000000#64, 0xC02A000000000000#64, 0#64, 0#64, 0#64, 0#64, 0#64, 0#64] := by
  decide +kernel

theorem test_vfnmadd231pdXmmVex_memory :
    lanesAfter (exec (.vfnmadd231pdXmmVex [] 1#4 2#4 (.mem (.base 0#4 .none))) base) 1#5 =
      some [0xC02A000000000000#64, 0xC02A000000000000#64, 0#64, 0#64, 0#64, 0#64, 0#64, 0#64] := by
  decide +kernel

theorem test_vfnmadd132pdYmmVex :
    lanesAfter (exec (.vfnmadd132pdYmmVex [] 1#4 2#4 (.reg 3#4)) base) 1#5 =
      some [0xC01C000000000000#64, 0xC01C000000000000#64, 0xC01C000000000000#64, 0xC01C000000000000#64, 0#64, 0#64, 0#64, 0#64] := by
  decide +kernel

theorem test_vfnmadd132pdYmmVex_memory :
    lanesAfter (exec (.vfnmadd132pdYmmVex [] 1#4 2#4 (.mem (.base 0#4 .none))) base) 1#5 =
      some [0xC01C000000000000#64, 0xC01C000000000000#64, 0xC01C000000000000#64, 0xC01C000000000000#64, 0#64, 0#64, 0#64, 0#64] := by
  decide +kernel

theorem test_vfnmadd213pdYmmVex :
    lanesAfter (exec (.vfnmadd213pdYmmVex [] 1#4 2#4 (.reg 3#4)) base) 1#5 =
      some [0xBFF0000000000000#64, 0xBFF0000000000000#64, 0xBFF0000000000000#64, 0xBFF0000000000000#64, 0#64, 0#64, 0#64, 0#64] := by
  decide +kernel

theorem test_vfnmadd213pdYmmVex_memory :
    lanesAfter (exec (.vfnmadd213pdYmmVex [] 1#4 2#4 (.mem (.base 0#4 .none))) base) 1#5 =
      some [0xBFF0000000000000#64, 0xBFF0000000000000#64, 0xBFF0000000000000#64, 0xBFF0000000000000#64, 0#64, 0#64, 0#64, 0#64] := by
  decide +kernel

theorem test_vfnmadd231pdYmmVex :
    lanesAfter (exec (.vfnmadd231pdYmmVex [] 1#4 2#4 (.reg 3#4)) base) 1#5 =
      some [0xC02A000000000000#64, 0xC02A000000000000#64, 0xC02A000000000000#64, 0xC02A000000000000#64, 0#64, 0#64, 0#64, 0#64] := by
  decide +kernel

theorem test_vfnmadd231pdYmmVex_memory :
    lanesAfter (exec (.vfnmadd231pdYmmVex [] 1#4 2#4 (.mem (.base 0#4 .none))) base) 1#5 =
      some [0xC02A000000000000#64, 0xC02A000000000000#64, 0xC02A000000000000#64, 0xC02A000000000000#64, 0#64, 0#64, 0#64, 0#64] := by
  decide +kernel

theorem test_vfnmadd132pdXmmEvex :
    lanesAfter (exec (.vfnmadd132pdXmmEvex [] (.merging .k1) 1#5 2#5 (.reg 3#5)) base) 1#5 =
      some [0xC01C000000000000#64, 0x4000000000000000#64, 0#64, 0#64, 0#64, 0#64, 0#64, 0#64] := by
  decide +kernel

theorem test_vfnmadd132pdXmmEvex_all_zero_mask :
    lanesAfter (exec (.vfnmadd132pdXmmEvex [] (.zeroing .k2) 1#5 2#5 (.mem (.base 1#4 (.disp32 0x80000000#32)))) base) 1#5 =
      some [0#64, 0#64, 0#64, 0#64, 0#64, 0#64, 0#64, 0#64] := by
  decide +kernel

theorem test_vfnmadd213pdXmmEvex :
    lanesAfter (exec (.vfnmadd213pdXmmEvex [] (.merging .k1) 1#5 2#5 (.reg 3#5)) base) 1#5 =
      some [0xBFF0000000000000#64, 0x4000000000000000#64, 0#64, 0#64, 0#64, 0#64, 0#64, 0#64] := by
  decide +kernel

theorem test_vfnmadd213pdXmmEvex_memory :
    lanesAfter (exec (.vfnmadd213pdXmmEvex [] .unmasked 1#5 2#5 (.mem (.base 0#4 .none))) base) 1#5 =
      some [0xBFF0000000000000#64, 0xBFF0000000000000#64, 0#64, 0#64, 0#64, 0#64, 0#64, 0#64] := by
  decide +kernel

theorem test_vfnmadd231pdXmmEvex :
    lanesAfter (exec (.vfnmadd231pdXmmEvex [] (.merging .k1) 1#5 2#5 (.reg 3#5)) base) 1#5 =
      some [0xC02A000000000000#64, 0x4000000000000000#64, 0#64, 0#64, 0#64, 0#64, 0#64, 0#64] := by
  decide +kernel

theorem test_vfnmadd231pdXmmEvex_broadcast :
    lanesAfter (exec (.vfnmadd231pdXmmEvex [] .unmasked 1#5 2#5 (.broadcast (.base 0#4 (.disp8 1#8)))) base) 1#5 =
      some [0xC02A000000000000#64, 0xC02A000000000000#64, 0#64, 0#64, 0#64, 0#64, 0#64, 0#64] := by
  decide +kernel

theorem test_vfnmadd132pdYmmEvex :
    lanesAfter (exec (.vfnmadd132pdYmmEvex [] (.merging .k1) 1#5 2#5 (.reg 3#5)) base) 1#5 =
      some [0xC01C000000000000#64, 0x4000000000000000#64, 0xC01C000000000000#64, 0x4000000000000000#64, 0#64, 0#64, 0#64, 0#64] := by
  decide +kernel

theorem test_vfnmadd132pdYmmEvex_all_zero_mask :
    lanesAfter (exec (.vfnmadd132pdYmmEvex [] (.zeroing .k2) 1#5 2#5 (.mem (.base 1#4 (.disp32 0x80000000#32)))) base) 1#5 =
      some [0#64, 0#64, 0#64, 0#64, 0#64, 0#64, 0#64, 0#64] := by
  decide +kernel

theorem test_vfnmadd213pdYmmEvex :
    lanesAfter (exec (.vfnmadd213pdYmmEvex [] (.merging .k1) 1#5 2#5 (.reg 3#5)) base) 1#5 =
      some [0xBFF0000000000000#64, 0x4000000000000000#64, 0xBFF0000000000000#64, 0x4000000000000000#64, 0#64, 0#64, 0#64, 0#64] := by
  decide +kernel

theorem test_vfnmadd213pdYmmEvex_memory :
    lanesAfter (exec (.vfnmadd213pdYmmEvex [] .unmasked 1#5 2#5 (.mem (.base 0#4 .none))) base) 1#5 =
      some [0xBFF0000000000000#64, 0xBFF0000000000000#64, 0xBFF0000000000000#64, 0xBFF0000000000000#64, 0#64, 0#64, 0#64, 0#64] := by
  decide +kernel

theorem test_vfnmadd231pdYmmEvex :
    lanesAfter (exec (.vfnmadd231pdYmmEvex [] (.merging .k1) 1#5 2#5 (.reg 3#5)) base) 1#5 =
      some [0xC02A000000000000#64, 0x4000000000000000#64, 0xC02A000000000000#64, 0x4000000000000000#64, 0#64, 0#64, 0#64, 0#64] := by
  decide +kernel

theorem test_vfnmadd231pdYmmEvex_broadcast :
    lanesAfter (exec (.vfnmadd231pdYmmEvex [] .unmasked 1#5 2#5 (.broadcast (.base 0#4 (.disp8 1#8)))) base) 1#5 =
      some [0xC02A000000000000#64, 0xC02A000000000000#64, 0xC02A000000000000#64, 0xC02A000000000000#64, 0#64, 0#64, 0#64, 0#64] := by
  decide +kernel

theorem test_vfnmadd132pdZmmEvex :
    lanesAfter (exec (.vfnmadd132pdZmmEvex [] (.merging .k1) 1#5 2#5 (.plain (.reg 3#5))) base) 1#5 =
      some [0xC01C000000000000#64, 0x4000000000000000#64, 0xC01C000000000000#64, 0x4000000000000000#64, 0x4000000000000000#64, 0x4000000000000000#64, 0x4000000000000000#64, 0x4000000000000000#64] := by
  decide +kernel

theorem test_vfnmadd132pdZmmEvex_rounded :
    lanesAfter (exec (.vfnmadd132pdZmmEvex [] .unmasked 1#5 2#5 (.rounded 3#5 .up)) base) 1#5 =
      some [0xC01C000000000000#64, 0xC01C000000000000#64, 0xC01C000000000000#64, 0xC01C000000000000#64, 0xC01C000000000000#64, 0xC01C000000000000#64, 0xC01C000000000000#64, 0xC01C000000000000#64] := by
  decide +kernel

theorem test_vfnmadd213pdZmmEvex :
    lanesAfter (exec (.vfnmadd213pdZmmEvex [] (.merging .k1) 1#5 2#5 (.plain (.reg 3#5))) base) 1#5 =
      some [0xBFF0000000000000#64, 0x4000000000000000#64, 0xBFF0000000000000#64, 0x4000000000000000#64, 0x4000000000000000#64, 0x4000000000000000#64, 0x4000000000000000#64, 0x4000000000000000#64] := by
  decide +kernel

theorem test_vfnmadd213pdZmmEvex_memory :
    lanesAfter (exec (.vfnmadd213pdZmmEvex [] .unmasked 1#5 2#5 (.plain (.mem (.base 0#4 .none)))) base) 1#5 =
      some [0xBFF0000000000000#64, 0xBFF0000000000000#64, 0xBFF0000000000000#64, 0xBFF0000000000000#64, 0xBFF0000000000000#64, 0xBFF0000000000000#64, 0xBFF0000000000000#64, 0xBFF0000000000000#64] := by
  decide +kernel

theorem test_vfnmadd231pdZmmEvex :
    lanesAfter (exec (.vfnmadd231pdZmmEvex [] (.merging .k1) 1#5 2#5 (.plain (.reg 3#5))) base) 1#5 =
      some [0xC02A000000000000#64, 0x4000000000000000#64, 0xC02A000000000000#64, 0x4000000000000000#64, 0x4000000000000000#64, 0x4000000000000000#64, 0x4000000000000000#64, 0x4000000000000000#64] := by
  decide +kernel

theorem test_vfnmadd231pdZmmEvex_broadcast :
    lanesAfter (exec (.vfnmadd231pdZmmEvex [] .unmasked 1#5 2#5 (.plain (.broadcast (.base 0#4 (.disp8 1#8))))) base) 1#5 =
      some [0xC02A000000000000#64, 0xC02A000000000000#64, 0xC02A000000000000#64, 0xC02A000000000000#64, 0xC02A000000000000#64, 0xC02A000000000000#64, 0xC02A000000000000#64, 0xC02A000000000000#64] := by
  decide +kernel

/-! ## Lane arithmetic: O10, O11, O13, R132, R142 -/

theorem test_fused_witness :
    fnmadd64 0x3FF0000000000001#64 0x3FF0000000000001#64 0x3FF0000000000002#64 .nearest false false true true =
      { result := some 0xB970000000000000#64, flags := .none } := by decide +kernel

/-- 2^-1022 - 2^-1080 rounds to 2^-1022 to nearest, not tiny (vector L53, with FTZ L56), and is tiny toward zero (L54). -/
theorem test_tiny_after_rounding :
    (∀ ftz, fnmadd64 0x1E30000000000000#64 0x1E30000000000000#64 0x0010000000000000#64 .nearest false ftz true true =
      { result := some 0x0010000000000000#64, flags := { FpFlags.none with pe := true } }) ∧
    fnmadd64 0x1E30000000000000#64 0x1E30000000000000#64 0x0010000000000000#64 .toZero false false true true =
      { result := some 0x000FFFFFFFFFFFFF#64, flags := { FpFlags.none with ue := true, pe := true } } := by
  decide +kernel

/-- -(MAX*1) - 2^970 overflows to nearest (vector L68), not toward zero (L69). -/
theorem test_overflow_after_rounding :
    fnmadd64 0x7FEFFFFFFFFFFFFF#64 0x3FF0000000000000#64 0xFC90000000000000#64 .nearest false false true true =
      { result := some 0xFFF0000000000000#64, flags := { FpFlags.none with oe := true, pe := true } } ∧
    fnmadd64 0x7FEFFFFFFFFFFFFF#64 0x3FF0000000000000#64 0xFC90000000000000#64 .toZero false false true true =
      { result := some 0xFFEFFFFFFFFFFFFF#64, flags := { FpFlags.none with pe := true } } := by decide +kernel

theorem test_exact_zero_sign :
    (fnmadd64 0#64 0#64 0#64 .nearest false false true true).result = some 0#64 ∧
    (fnmadd64 0#64 0#64 0#64 .down false false true true).result = some 0x8000000000000000#64 ∧
    (fnmadd64 0#64 0#64 0x8000000000000000#64 .nearest false false true true).result =
      some 0x8000000000000000#64 := by decide +kernel

/-! ## Faults: one of each kind (R230) -/

theorem test_real_mode_ud : faultOf (exec (.vfnmadd132pdXmmVex [] 1#4 2#4 (.reg 3#4)) State.reset) =
    some (.invalidOpcode, 6, none, none) := by decide +kernel

theorem test_task_switched_nm :
    faultOf (exec (.vfnmadd132pdXmmVex [] 1#4 2#4 (.reg 3#4)) { base with cr0 := base.cr0 ||| 8#64 }) =
      some (.deviceNotAvailable, 7, none, none) := by decide +kernel

theorem test_non_canonical_ss :
    faultOf (exec (.vfnmadd132pdXmmVex [] 1#4 2#4 (.mem (.base 5#4 (.disp8 0#8))))
      { base with gpr := base.gpr.set 5 0x800000000000#64 }) =
      some (.stackSegment, 12, some 0#32, none) := by decide +kernel

theorem test_non_canonical_gp :
    faultOf (exec (.vfnmadd132pdXmmVex [.gs] 1#4 2#4 (.mem (.base 5#4 (.disp8 0#8))))
      { base with gpr := base.gpr.set 5 0x800000000000#64 }) =
      some (.generalProtection, 13, some 0#32, none) := by decide +kernel

/-- Memory readable up to 200Fh only. -/
def halfReadable : State :=
  { base with access := [{ first := 0, size := 0x2010, read := true, exec := true, levels := [0#2, 3#2] }] }

theorem test_page_fault_address :
    ((faultOf (exec (.vfnmadd132pdYmmVex [] 1#4 2#4 (.mem (.base 0#4 .none))) halfReadable)).map fun q => (q.1, q.2.2.2)) =
      some (.pageFault, some 0x2010#64) := by decide +kernel

/-- `Accessible` is any predicate of the level (R8, R63): open at CPL 3 and closed at CPL 0, or the reverse. -/
theorem test_access_by_level :
    ([0#2, 3#2].map fun c => readable { base with cpl := c, access :=
      [{ first := 0x2000, size := 8, read := true, exec := false, levels := [3#2] },
       { first := 0x3000, size := 8, read := true, exec := false, levels := [0#2] }] } 0x2000#64) = [false, true] := by
  decide +kernel

/-- An operand that wraps at 2^64, nothing of it readable. -/
def wrapping : State := { base with gpr := base.gpr.set 0 0xFFFFFFFFFFFFFFF8#64, access := [] }

/-- The lowest-addressed accessed element is the one at 0 (D8 of 92_eei_decisions.md). -/
theorem test_page_fault_address_wrapping :
    ((faultOf (exec (.vfnmadd132pdYmmVex [] 1#4 2#4 (.mem (.base 0#4 .none))) wrapping)).map fun q => (q.1, q.2.2.2)) =
      some (.pageFault, some 0#64) := by decide +kernel

theorem test_unmasked_invalid_xm :
    faultOf (exec (.vfnmadd231pdXmmVex [] 1#4 2#4 (.reg 3#4))
      (withRegs 0x3FF0000000000000#64 0x7FF0000000000000#64 0#64 0x1F00#32)) =
      some (.simdFloatingPoint, 19, none, none) ∧
    mxcsrAfter (exec (.vfnmadd231pdXmmVex [] 1#4 2#4 (.reg 3#4))
      (withRegs 0x3FF0000000000000#64 0x7FF0000000000000#64 0#64 0x1F00#32)) = some 0x1F01#32 := by
  decide +kernel

theorem test_sae_leaves_mxcsr :
    mxcsrAfter (exec (.vfnmadd231pdZmmEvex [] .unmasked 1#5 2#5 (.rounded 3#5 .down))
      (withRegs 0x3FF0000000000000#64 0x3C30000000000000#64 0x3FF0000000000000#64 0#32)) = some 0#32 ∧
    lanesAfter (exec (.vfnmadd231pdZmmEvex [] .unmasked 1#5 2#5 (.rounded 3#5 .down))
      (withRegs 0x3FF0000000000000#64 0x3C30000000000000#64 0x3FF0000000000000#64 0#32)) 1#5 =
      some (List.replicate 8 0x3FEFFFFFFFFFFFFF#64) := by
  decide +kernel

/-! ## Steps -/

theorem test_step_runs :
    lanesAfter (step (holding [0x62#8, 0xF2#8, 0xED#8, 0x48#8, 0x9C#8, 0xCB#8])) 1#5 =
      some (List.replicate 8 0xC01C000000000000#64) := by decide +kernel

theorem test_fetch_word_runs : isNext (step (State.reset.withFetchWord 40 0xBC40850262)) = true := by decide +kernel

theorem test_length_sixteen_gp :
    faultOf (step (holding (List.replicate 11 0x3E#8 ++ [0xC4#8, 0xE2#8, 0xE9#8, 0x9C#8, 0xCB#8]))) =
      some (.generalProtection, 13, some 0#32, none) := by decide +kernel

/-- LOCK, a null prefix, then row 1 (R66, R111, R114). -/
theorem test_lock_before_prefix_ud :
    faultOf (step (holding [0xF0#8, 0x3E#8, 0xC4#8, 0xE2#8, 0xE9#8, 0x9C#8, 0xCB#8])) =
      some (.invalidOpcode, 6, none, none) := by decide +kernel

theorem test_single_precision_refused :
    refusalOf (step (holding [0xC4#8, 0xE2#8, 0x69#8, 0x9C#8, 0xCB#8])) = some (.notOfThisSpec 0x1000#64) := by
  decide +kernel

theorem test_empty_memory_refused :
    refusalOf (step State.reset.launch) = some (.notOfThisSpec 0xFFF0#64) := by decide +kernel

/-! ## Witnesses: a state and operands that meet the hypotheses of each obligation -/

/-- The register form of row 1. -/
def row1 : Instr := .vfnmadd132pdXmmVex [] 1#4 2#4 (.reg 3#4)
/-- The memory form of row 4. -/
def row4 : Instr := .vfnmadd132pdYmmVex [] 1#4 2#4 (.mem (.base 0#4 .none))

theorem witness_DecodeEncodeVex :
    (Instr.vex .k132 .l256 (List.replicate 5 .fs) 15#4 0#4
      (.mem (.sib 13#4 (some { reg := 12#4, scale := 3#2 }) (.disp32 0x80000000#32)))).wf = true := by decide

theorem witness_DecodeEncodeEvex :
    (Instr.evex .k231 .l512 (List.replicate 4 .addressSize) (.zeroing .k7) 31#5 16#5
      (.broadcast (.sib 13#4 (some { reg := 12#4, scale := 3#2 }) (.disp32 0x80000000#32)))).wf = true ∧
    (Instr.evexRounded .k213 (List.replicate 9 .gs) (.merging .k1) 31#5 16#5 8#5 .toZero).wf = true := by decide

theorem witness_DecodedIsWellFormed :
    decode [0xC4#8, 0xE2#8, 0xE9#8, 0x9C#8, 0xCB#8, 0x90#8] = .instr row1 [0x90#8] ∧
    decode (encode (Instr.vex .k132 .l256 (List.replicate 5 .fs) 15#4 0#4
      (.mem (.sib 13#4 (some { reg := 12#4, scale := 3#2 }) (.disp32 0x80000000#32))))) =
      .instr (Instr.vex .k132 .l256 (List.replicate 5 .fs) 15#4 0#4
      (.mem (.sib 13#4 (some { reg := 12#4, scale := 3#2 }) (.disp32 0x80000000#32)))) [] := by decide

theorem witness_IllegalEvexIsUndefinedOpcode :
    in64BitMode base = true ∧
    -- P0[3:2] = 01
    fetchWindow (holding [0x62#8, 0xF6#8, 0xED#8, 0x48#8, 0xBC#8, 0xCB#8]) =
      [].map LegacyPrefix.byte ++ 0x62#8 :: 0xF6#8 :: 0xED#8 :: 0x48#8 :: 0xBC#8 :: 0xCB#8 :: List.replicate 9 0#8 ∧ 0xF6#8 &&& 0x0C#8 ≠ 0#8 ∧
    -- P1[2] = 0
    fetchWindow (holding [0x62#8, 0xF2#8, 0xE9#8, 0x48#8, 0xBC#8, 0xCB#8]) =
      [].map LegacyPrefix.byte ++ 0x62#8 :: 0xF2#8 :: 0xE9#8 :: 0x48#8 :: 0xBC#8 :: 0xCB#8 :: List.replicate 9 0#8 ∧ 0xE9#8 &&& 0x04#8 = 0#8 ∧
    0xF2#8 &&& 0x0F#8 = 0x02#8 ∧ 0xED#8 &&& 0x87#8 = 0x85#8 ∧
    -- zeroing without mask
    fetchWindow (holding [0x62#8, 0xF2#8, 0xED#8, 0xC8#8, 0xBC#8, 0xCB#8]) =
      [].map LegacyPrefix.byte ++ 0x62#8 :: 0xF2#8 :: 0xED#8 :: 0xC8#8 :: 0xBC#8 :: 0xCB#8 :: List.replicate 9 0#8 ∧ 0xC8#8 &&& 0x87#8 = 0x80#8 ∧
    -- L'L = 11: register form with b = 0, memory form with b = 1
    fetchWindow (holding [0x62#8, 0xF2#8, 0xED#8, 0x68#8, 0xBC#8, 0xCB#8]) =
      [].map LegacyPrefix.byte ++ 0x62#8 :: 0xF2#8 :: 0xED#8 :: 0x68#8 :: 0xBC#8 :: 0xCB#8 :: List.replicate 9 0#8 ∧ 0x68#8 &&& 0x60#8 = 0x60#8 ∧
    0x68#8 &&& 0x10#8 ≠ 0x10#8 ∧
    fetchWindow (holding [0x62#8, 0xF2#8, 0xED#8, 0x78#8, 0xBC#8, 0x08#8]) =
      [].map LegacyPrefix.byte ++ 0x62#8 :: 0xF2#8 :: 0xED#8 :: 0x78#8 :: 0xBC#8 :: 0x08#8 :: List.replicate 9 0#8 ∧ 0x78#8 &&& 0x60#8 = 0x60#8 ∧
    takeModRM (!(0xF2#8 : Byte).getLsbD 6) (!(0xF2#8 : Byte).getLsbD 5) (0xCB#8 :: List.replicate 9 0#8) =
      some (1#3, .reg 3#3, List.replicate 9 0#8) ∧
    takeModRM (!(0xF2#8 : Byte).getLsbD 6) (!(0xF2#8 : Byte).getLsbD 5) (0x08#8 :: List.replicate 9 0#8) =
      some (1#3, .mem (.base 0#4 .none), List.replicate 9 0#8) := by decide +kernel

theorem witness_ExcludedPrefixIsUndefinedOpcode :
    in64BitMode base = true ∧ 0x4F#8 &&& 0xF0#8 = 0x40#8 ∧ row1.wf = true ∧
    fetchWindow (holding (0x64#8 :: 0x4F#8 :: encode row1)) =
      [0x64#8] ++ 0x4F#8 :: (encode row1 ++ List.replicate 8 0#8) ∧
    fetchWindow (holding (0x66#8 :: encode row1)) = [] ++ 0x66#8 :: (encode row1 ++ List.replicate 9 0#8) ∧
    -- LOCK with a null prefix after it, which is `i`'s own
    (Instr.vex .k132 .l128 [.ds] 1#4 2#4 (.reg 3#4)).wf = true ∧
    fetchWindow (holding (0xF0#8 :: encode (Instr.vex .k132 .l128 [.ds] 1#4 2#4 (.reg 3#4)))) =
      [] ++ 0xF0#8 :: (encode (Instr.vex .k132 .l128 [.ds] 1#4 2#4 (.reg 3#4)) ++ List.replicate 8 0#8) := by
  decide +kernel

theorem witness_NeighbouringEncodingsRefused :
    in64BitMode base = true ∧
    -- VEX: W = 0, map 0F, opcode 9D, pp = 00
    fetchWindow (holding [0xC4#8, 0xE2#8, 0x69#8, 0x9C#8, 0xCB#8]) =
      [].map LegacyPrefix.byte ++ 0xC4#8 :: 0xE2#8 :: 0x69#8 :: 0x9C#8 :: 0xCB#8 :: List.replicate 10 0#8 ∧
    0x69#8 &&& 0x80#8 = 0#8 ∧
    fetchWindow (holding [0xC4#8, 0xE1#8, 0xE9#8, 0x9D#8, 0xCB#8]) =
      [].map LegacyPrefix.byte ++ 0xC4#8 :: 0xE1#8 :: 0xE9#8 :: 0x9D#8 :: 0xCB#8 :: List.replicate 10 0#8 ∧
    0xE1#8 &&& 0x1F#8 ≠ 0x02#8 ∧ ¬(0x9D#8 = 0x9C#8 ∨ 0x9D#8 = 0xAC#8 ∨ 0x9D#8 = 0xBC#8) ∧ 0xE8#8 &&& 0x03#8 ≠ 0x01#8 ∧
    -- EVEX: W = 0
    fetchWindow (holding [0x62#8, 0xF2#8, 0x6D#8, 0x48#8, 0xBC#8, 0xCB#8]) =
      [].map LegacyPrefix.byte ++ 0x62#8 :: 0xF2#8 :: 0x6D#8 :: 0x48#8 :: 0xBC#8 :: 0xCB#8 :: List.replicate 9 0#8 ∧
    0xF2#8 &&& 0x0C#8 = 0#8 ∧ 0x6D#8 &&& 0x04#8 ≠ 0#8 ∧ 0x6D#8 &&& 0x80#8 = 0#8 ∧
    0xF1#8 &&& 0x03#8 ≠ 0x02#8 ∧ 0xEC#8 &&& 0x03#8 ≠ 0x01#8 := by decide +kernel

theorem witness_OtherOpcodeRefused :
    in64BitMode base = true ∧
    fetchWindow (holding [0x67#8, 0x90#8]) = [LegacyPrefix.addressSize].map LegacyPrefix.byte ++ 0x90#8 :: List.replicate 13 0#8 ∧
    0x90#8 ≠ 0xC4#8 ∧ 0x90#8 ≠ 0x62#8 ∧ prefixItem 0x90#8 = none := by decide +kernel

/-- Sixteen bytes. -/
def sixteen : Instr := .vfnmadd132pdXmmVex (List.replicate 11 .ds) 1#4 2#4 (.reg 3#4)

theorem witness_LongerThanFifteenBytesIsProtectionFault :
    in64BitMode base = true ∧ sixteen.op3Wf = true ∧ 15 < sixteen.length ∧
    fetchWindow (holding (encode sixteen)) = (encode sixteen).take 15 := by decide +kernel

theorem witness_StepRunsDecoded :
    in64BitMode (holding (encode row1)) = true ∧
    decode (fetchWindow (holding (encode row1))) = .instr row1 (List.replicate 10 0#8) := by decide +kernel

theorem witness_EncodedInstructionRuns :
    in64BitMode (holding (encode row1)) = true ∧ row1.wf = true ∧
    ∀ j, j < row1.length →
      canonical (holding (encode row1)).cpu.linearWidth ((holding (encode row1)).rip + BitVec.ofNat 64 j) = true ∧
      executable (holding (encode row1)) ((holding (encode row1)).rip + BitVec.ofNat 64 j) = true ∧
      some (readByte (holding (encode row1)) ((holding (encode row1)).rip + BitVec.ofNat 64 j)) =
        (encode row1)[j]? := by decide +kernel

/-- Row 1 with its last byte in a page that cannot be fetched. -/
def cutByAccess : State :=
  { holding (encode row1) with access := [{ first := 0, size := 0x1004, read := true, exec := true, levels := [0#2, 3#2] }] }

/-- Row 1 with its last three bytes beyond the canonical boundary. -/
def cutByBoundary : State := placeInstruction { base with rip := 0x7FFFFFFFFFFE#64 } (encode row1)

theorem witness_FetchFaultAtFirstUnreadableByte :
    (in64BitMode cutByAccess = true ∧ row1.wf = true ∧ 4 < row1.length ∧
      (∀ j, j < 4 →
        canonical cutByAccess.cpu.linearWidth (cutByAccess.rip + BitVec.ofNat 64 j) = true ∧
        executable cutByAccess (cutByAccess.rip + BitVec.ofNat 64 j) = true ∧
        some (readByte cutByAccess (cutByAccess.rip + BitVec.ofNat 64 j)) = (encode row1)[j]?) ∧
      canonical cutByAccess.cpu.linearWidth (cutByAccess.rip + BitVec.ofNat 64 4) = true ∧
      executable cutByAccess (cutByAccess.rip + BitVec.ofNat 64 4) = false) ∧
    (in64BitMode cutByBoundary = true ∧
      (∀ j, j < 2 →
        canonical cutByBoundary.cpu.linearWidth (cutByBoundary.rip + BitVec.ofNat 64 j) = true ∧
        executable cutByBoundary (cutByBoundary.rip + BitVec.ofNat 64 j) = true ∧
        some (readByte cutByBoundary (cutByBoundary.rip + BitVec.ofNat 64 j)) = (encode row1)[j]?) ∧
      canonical cutByBoundary.cpu.linearWidth (cutByBoundary.rip + BitVec.ofNat 64 2) = false) := by decide +kernel

theorem witness_LaunchedStateEnablesAll : launched base = true ∧ launched State.reset.launch = true := by decide +kernel

theorem witness_UndefinedOpcodeConditions :
    modeOf State.reset = .realAddress ∧
    modeOf { base with efer := 0#64, rflags := 0x20002#64 } = .virtual8086 ∧
    modeOf { base with csL := false } = .otherProtected ∧
    in64BitMode { base with cr4 := 0#64 } = true ∧ ({ base with cr4 := 0#64 } : State).cr4.getLsbD 18 = false ∧
    in64BitMode { base with xcr0 := 3#64 } = true ∧ ({ base with xcr0 := 3#64 } : State).xcr0.getLsbD 2 = false ∧
    in64BitMode { base with xcr0 := 0x67#64 } = true ∧ isEvex (.vfnmadd132pdXmmEvex [] .unmasked 1#5 2#5 (.reg 3#5)) = true ∧
    ({ base with xcr0 := 0x67#64 } : State).xcr0.getLsbD 7 = false := by decide +kernel

/-- A processor without AVX-512 and without FMA. -/
def plainCpu : State :=
  { base with cpu := { hasFMA := false, hasAVX512F := false, hasAVX512VL := false, linearWidth := .bits57 } }

theorem witness_MissingFeatureIsUndefinedOpcode :
    modeOf plainCpu ≠ .otherProtected ∧ plainCpu.cpu.hasFMA = false ∧ plainCpu.cpu.hasAVX512F = false ∧
    ¬(plainCpu.cpu.hasAVX512VL = true ∧ plainCpu.cpu.hasAVX512F = true) := by decide +kernel

theorem witness_TaskSwitchedIsDeviceNotAvailable :
    executable64 { base with cr0 := base.cr0 ||| 8#64 } row4 = true ∧
    ({ base with cr0 := base.cr0 ||| 8#64 } : State).cr0.getLsbD 3 = true := by decide +kernel

theorem witness_MemoryOperandIsLittleEndian : 8 ≤ 8 ∧ 7 < 8 := by decide

theorem witness_SegmentOfAccess :
    LegacyPrefix.fs ∉ [LegacyPrefix.ds, .cs] ∧ LegacyPrefix.gs ∉ [LegacyPrefix.ds, .cs] ∧
    segmentOf [.ds, .cs] (.base 5#4 (.disp8 0#8)) = .ss ∧ segmentOf [.ds, .cs] (.base 13#4 (.disp8 0#8)) ≠ .ss := by
  decide

theorem witness_EffectiveAddressTerms : LegacyPrefix.addressSize ∉ [LegacyPrefix.ds, .fs] := by decide

theorem witness_AddressSizeOverride : LegacyPrefix.addressSize ∈ [LegacyPrefix.ds, .addressSize] := by decide

/-- RBP at the first non-canonical address, minus one. -/
def atBoundary : State := { base with gpr := base.gpr.set 5 0x7FFFFFFFFFFF#64 }

/-- A memory operand based on RBP. -/
def onRbp (p : List LegacyPrefix) : Instr := .vfnmadd132pdXmmVex p 1#4 2#4 (.mem (.base 5#4 (.disp8 0#8)))

theorem witness_NonCanonicalOperandFaults :
    enabled atBoundary (onRbp []) = true ∧ memOperand (onRbp []) = some (.base 5#4 (.disp8 0#8)) ∧
    accesses atBoundary (onRbp []) 1 ∧
    canonical atBoundary.cpu.linearWidth
      (operandAddress atBoundary (onRbp []) (.base 5#4 (.disp8 0#8)) + BitVec.ofNat 64 1) = false ∧
    enabled atBoundary (onRbp [.gs]) = true ∧ accesses atBoundary (onRbp [.gs]) 1 ∧ LegacyPrefix.gs ∈ (parts (onRbp [.gs])).p ∧
    canonical atBoundary.cpu.linearWidth
      (operandAddress atBoundary (onRbp [.gs]) (.base 5#4 (.disp8 0#8)) + BitVec.ofNat 64 1) = false := by
  refine ⟨by decide +kernel, by decide +kernel, ⟨by decide +kernel, by decide +kernel⟩, by decide +kernel,
    by decide +kernel, ⟨by decide +kernel, by decide +kernel⟩, by decide +kernel, by decide +kernel⟩

theorem accesses_row4 (s : State) (t : Nat) : accesses s row4 t ↔ t < 32 ∧ activeLane s row4 (t / 8) = true := Iff.rfl

/-- The bytes after 2010h inaccessible: the first inaccessible byte is also the lowest. -/
theorem witness_InaccessibleOperandPageFaults :
    enabled halfReadable row4 = true ∧ memOperand row4 = some (.base 0#4 .none) ∧
    0x2000#64 = operandAddress halfReadable row4 (.base 0#4 .none) ∧ accesses halfReadable row4 16 ∧
    (∀ u, accesses halfReadable row4 u →
      canonical halfReadable.cpu.linearWidth (0x2000#64 + BitVec.ofNat 64 u) = true) ∧
    0x2010#64 = 0x2000#64 + BitVec.ofNat 64 16 ∧ readable halfReadable 0x2010#64 = false ∧
    (∀ u, accesses halfReadable row4 u → readable halfReadable (0x2000#64 + BitVec.ofNat 64 u) = false →
      (0x2000#64 + BitVec.ofNat 64 (8 * (16 / 8))).toNat ≤ (0x2000#64 + BitVec.ofNat 64 (8 * (u / 8))).toNat ∧
      (u / 8 = 16 / 8 → (0x2010#64).toNat ≤ (0x2000#64 + BitVec.ofNat 64 u).toNat)) := by
  have h1 : ∀ u, u < 32 → canonical halfReadable.cpu.linearWidth (0x2000#64 + BitVec.ofNat 64 u) = true := by
    decide +kernel
  have h2 : ∀ u, u < 32 → readable halfReadable (0x2000#64 + BitVec.ofNat 64 u) = false →
      (0x2000#64 + BitVec.ofNat 64 (8 * (16 / 8))).toNat ≤ (0x2000#64 + BitVec.ofNat 64 (8 * (u / 8))).toNat ∧
      (u / 8 = 16 / 8 → (0x2010#64).toNat ≤ (0x2000#64 + BitVec.ofNat 64 u).toNat) := by decide +kernel
  exact ⟨by decide +kernel, by decide +kernel, by decide +kernel, ⟨by decide +kernel, by decide +kernel⟩,
    fun u hu => h1 u hu.1, by decide +kernel, by decide +kernel, fun u hu => h2 u hu.1⟩

/-- The operand wraps at 2^64: the element at address 0, at offset 8, is the lowest. -/
theorem witness_InaccessibleOperandPageFaults_wrapping :
    enabled wrapping row4 = true ∧ memOperand row4 = some (.base 0#4 .none) ∧
    0xFFFFFFFFFFFFFFF8#64 = operandAddress wrapping row4 (.base 0#4 .none) ∧ accesses wrapping row4 8 ∧
    (∀ u, accesses wrapping row4 u →
      canonical wrapping.cpu.linearWidth (0xFFFFFFFFFFFFFFF8#64 + BitVec.ofNat 64 u) = true) ∧
    0#64 = 0xFFFFFFFFFFFFFFF8#64 + BitVec.ofNat 64 8 ∧ readable wrapping 0#64 = false ∧
    (∀ u, accesses wrapping row4 u → readable wrapping (0xFFFFFFFFFFFFFFF8#64 + BitVec.ofNat 64 u) = false →
      (0xFFFFFFFFFFFFFFF8#64 + BitVec.ofNat 64 (8 * (8 / 8))).toNat ≤
        (0xFFFFFFFFFFFFFFF8#64 + BitVec.ofNat 64 (8 * (u / 8))).toNat ∧
      (u / 8 = 8 / 8 → (0#64).toNat ≤ (0xFFFFFFFFFFFFFFF8#64 + BitVec.ofNat 64 u).toNat)) := by
  have h1 : ∀ u, u < 32 → canonical wrapping.cpu.linearWidth (0xFFFFFFFFFFFFFFF8#64 + BitVec.ofNat 64 u) = true := by
    decide +kernel
  exact ⟨by decide +kernel, by decide +kernel, by decide +kernel, ⟨by decide +kernel, by decide +kernel⟩,
    fun u hu => h1 u hu.1, by decide +kernel, by decide +kernel,
    fun u _ _ => ⟨Nat.zero_le _, fun _ => Nat.zero_le _⟩⟩

theorem witness_VexRegisterFormsComplete :
    enabled base (Instr.vex .k132 .l256 [] 1#4 2#4 (.reg 3#4)) = true ∧
    ∀ j, j < 4 → unmasked base.mxcsr (laneOf .k132 base.mxcsr (mxRC base.mxcsr) false (lane (readVec base (vexReg 1#4)) j)
      (lane (readVec base (vexReg 2#4)) j) (lane (readVec base (vexReg 3#4)) j)).flags = false := by decide +kernel

theorem witness_VexMemoryFormsComplete :
    enabled base (Instr.vex .k132 .l256 [] 1#4 2#4 (.mem (.base 0#4 .none))) = true ∧ alignCheckOn base = false ∧
    (∀ t, t < 8 * 4 →
      canonical base.cpu.linearWidth (linearAddress base [] 1 5 (.base 0#4 .none) + BitVec.ofNat 64 t) = true ∧
      readable base (linearAddress base [] 1 5 (.base 0#4 .none) + BitVec.ofNat 64 t) = true) ∧
    ∀ j, j < 4 → unmasked base.mxcsr (laneOf .k132 base.mxcsr (mxRC base.mxcsr) false (lane (readVec base (vexReg 1#4)) j)
      (lane (readVec base (vexReg 2#4)) j)
      (readWord base (linearAddress base [] 1 5 (.base 0#4 .none) + BitVec.ofNat 64 (8 * j)))).flags = false := by
  decide +kernel

theorem witness_EvexRegisterFormsComplete :
    enabled base (Instr.evex .k213 .l512 [] (.merging .k1) 1#5 2#5 (.reg 3#5)) = true ∧
    ∀ j, j < 8 → (readOpmask base (MaskReg.bits .k1)).getLsbD j = true →
      unmasked base.mxcsr (laneOf .k213 base.mxcsr (mxRC base.mxcsr) false (lane (readVec base 1#5) j)
        (lane (readVec base 2#5) j) (lane (readVec base 3#5) j)).flags = false := by decide +kernel

theorem witness_EvexMemoryFormsComplete :
    enabled halfReadable (Instr.evex .k231 .l256 [] (.zeroing .k1) 1#5 2#5 (.mem (.base 0#4 (.disp32 0xFFFFFFF8#32)))) = true ∧
    alignCheckOn halfReadable = false ∧
    (∀ j, j < 4 → ∀ t, t < 8 → (readOpmask halfReadable (MaskReg.bits .k1)).getLsbD j = true →
      canonical halfReadable.cpu.linearWidth
        (linearAddress halfReadable [] 32 10 (.base 0#4 (.disp32 0xFFFFFFF8#32)) + BitVec.ofNat 64 (8 * j + t)) = true ∧
      readable halfReadable
        (linearAddress halfReadable [] 32 10 (.base 0#4 (.disp32 0xFFFFFFF8#32)) + BitVec.ofNat 64 (8 * j + t)) = true) ∧
    ∀ j, j < 4 → (readOpmask halfReadable (MaskReg.bits .k1)).getLsbD j = true →
      unmasked halfReadable.mxcsr (laneOf .k231 halfReadable.mxcsr (mxRC halfReadable.mxcsr) false
        (lane (readVec halfReadable 1#5) j) (lane (readVec halfReadable 2#5) j)
        (readWord halfReadable (linearAddress halfReadable [] 32 10 (.base 0#4 (.disp32 0xFFFFFFF8#32)) +
          BitVec.ofNat 64 (8 * j)))).flags = false := by decide +kernel

theorem witness_EvexBroadcastFormsComplete :
    enabled base (Instr.evex .k231 .l128 [] .unmasked 1#5 2#5 (.broadcast (.base 0#4 (.disp8 1#8)))) = true ∧
    alignCheckOn base = false ∧
    (∀ t, t < 8 →
      canonical base.cpu.linearWidth (linearAddress base [] 8 7 (.base 0#4 (.disp8 1#8)) + BitVec.ofNat 64 t) = true ∧
      readable base (linearAddress base [] 8 7 (.base 0#4 (.disp8 1#8)) + BitVec.ofNat 64 t) = true) ∧
    ∀ j, j < 2 → unmasked base.mxcsr (laneOf .k231 base.mxcsr (mxRC base.mxcsr) false (lane (readVec base 1#5) j)
      (lane (readVec base 2#5) j) (readWord base (linearAddress base [] 8 7 (.base 0#4 (.disp8 1#8))))).flags = false := by
  decide +kernel

theorem witness_EmbeddedRoundingFormsComplete :
    enabled { base with mxcsr := 0#32 } (Instr.evexRounded .k132 [] (.zeroing .k1) 1#5 2#5 3#5 .up) = true := by
  decide +kernel

theorem operandOk_row1 (s : State) : operandOk s row1 := by
  intro m h
  cases h

theorem operandOk_row4 : operandOk base row4 := by
  have h : ∀ t, t < 32 →
      canonical base.cpu.linearWidth (operandAddress base row4 (.base 0#4 .none) + BitVec.ofNat 64 t) = true ∧
      readable base (operandAddress base row4 (.base 0#4 .none) + BitVec.ofNat 64 t) = true := by decide +kernel
  intro m hm
  cases hm
  exact ⟨by decide +kernel, fun t ht => h t ht.1⟩

theorem witness_AllMaskedCompletes :
    enabled base row4 = true ∧ allMasked base.mxcsr = true ∧ operandOk base row4 :=
  ⟨by decide +kernel, by decide +kernel, operandOk_row4⟩

/-- Merging under k2, which is 0. -/
def nothingActive : Instr := .vfnmadd132pdXmmEvex [] (.merging .k2) 1#5 2#5 (.mem (.base 5#4 (.disp8 0#8)))

theorem witness_AllZeroMaskReadsNothing :
    enabled atBoundary nothingActive = true ∧
    (∀ j, j < (parts nothingActive).lanes → activeLane atBoundary nothingActive j = false) ∧
    isZeroing (parts nothingActive).mask = false ∧
    isZeroing (parts (.vfnmadd132pdXmmEvex [] (.zeroing .k2) 1#5 2#5 (.reg 3#5))).mask = true := by decide +kernel

theorem witness_VexZeroesUpperBits :
    (∃ t, exec (Instr.vex .k132 .l128 [] 1#4 2#4 (.reg 3#4)) base = .next t) ∧
    ∃ t, exec (Instr.vex .k132 .l256 [] 1#4 2#4 (.reg 3#4)) base = .next t :=
  ⟨exists_next (by decide +kernel), exists_next (by decide +kernel)⟩

theorem witness_EvexZeroesUpperBits :
    (∃ t, exec (Instr.evex .k132 .l128 [] (.merging .k2) 1#5 2#5 (.reg 3#5)) base = .next t) ∧
    (∃ t, exec (Instr.evexRounded .k132 [] (.merging .k2) 1#5 2#5 3#5 .up) base = .next t) ∧
    ∀ j, j < 8 → laneActive base (.merging .k2) j = false :=
  ⟨exists_next (by decide +kernel), exists_next (by decide +kernel), by decide +kernel⟩

theorem witness_EvexAgreesWithVex :
    enabled base (Instr.evex .k231 .l256 [] .unmasked (vexReg 1#4) (vexReg 2#4) (.reg (vexReg 3#4))) = true ∧
    (∃ t, exec (Instr.vex .k231 .l256 [] 1#4 2#4 (.reg 3#4)) base = .next t) ∧
    linearAddress base [] 1 6 (.base 0#4 (.disp8 0x20#8)) = linearAddress base [] 32 7 (.base 0#4 (.disp8 1#8)) ∧
    alignCheckOn base = false ∧
    ∃ t, exec (Instr.vex .k231 .l256 [] 1#4 2#4 (.mem (.base 0#4 (.disp8 0x20#8)))) base = .next t :=
  ⟨by decide +kernel, exists_next (by decide +kernel), by decide +kernel, by decide +kernel,
    exists_next (by decide +kernel)⟩

/-- Infinity times zero in every lane of row 1, IM = 0. -/
def invalidUnmasked : State := withRegs 0x7FF0000000000000#64 0#64 0#64 0x1F00#32

theorem witness_UnmaskedPreComputationRaises :
    enabled invalidUnmasked row1 = true ∧ operandOk invalidUnmasked row1 ∧ (parts row1).rounding = none ∧
    invalidUnmasked.cr4.getLsbD 10 = true ∧ 1 < (parts row1).lanes ∧ activeLane invalidUnmasked row1 1 = true ∧
    (outcome invalidUnmasked row1 1).flags.ie = true ∧ invalidUnmasked.mxcsr.getLsbD 7 = false :=
  ⟨by decide +kernel, operandOk_row1 _, rfl, by decide +kernel, by decide +kernel, by decide +kernel,
    by decide +kernel, by decide +kernel⟩

/-- A denormal operand, DM = 0. -/
def denormalUnmasked : State := withRegs 1#64 0x3FF0000000000000#64 0x3FF0000000000000#64 0x1E80#32

theorem witness_UnmaskedPreComputationRaises_denormal :
    enabled denormalUnmasked row1 = true ∧ (outcome denormalUnmasked row1 0).flags.de = true ∧
    denormalUnmasked.mxcsr.getLsbD 8 = false := by decide +kernel

/-- An inexact sum with PM = 0; an overflow with OM = 0; a tiny result with UM = 0. -/
def inexactUnmasked : State := withRegs 0x3FF0000000000000#64 0x3FF0000000000000#64 0x3C30000000000000#64 0x0F80#32
def overflowUnmasked : State := withRegs 0x7FE0000000000000#64 0#64 0x7FE0000000000000#64 0x1B80#32
def underflowUnmasked : State := withRegs 0x0010000000000000#64 0#64 0x3FE0000000000000#64 0x1780#32

theorem no_pre_row1 {s : State} (h : ∀ u, u < 2 → (outcome s row1 u).flags.ie = false ∧ (outcome s row1 u).flags.de = false)
    (u : Nat) (hu : u < (parts row1).lanes) (_ : activeLane s row1 u = true) :
    ¬((outcome s row1 u).flags.ie = true ∧ s.mxcsr.getLsbD 7 = false) ∧
    ¬((outcome s row1 u).flags.de = true ∧ s.mxcsr.getLsbD 8 = false) := by
  simp [(h u hu).1, (h u hu).2]

theorem witness_UnmaskedPostComputationRaises :
    enabled inexactUnmasked row1 = true ∧ operandOk inexactUnmasked row1 ∧ (parts row1).rounding = none ∧
    inexactUnmasked.cr4.getLsbD 10 = true ∧
    (∀ u, u < (parts row1).lanes → activeLane inexactUnmasked row1 u = true →
      ¬((outcome inexactUnmasked row1 u).flags.ie = true ∧ inexactUnmasked.mxcsr.getLsbD 7 = false) ∧
      ¬((outcome inexactUnmasked row1 u).flags.de = true ∧ inexactUnmasked.mxcsr.getLsbD 8 = false)) ∧
    1 < (parts row1).lanes ∧ activeLane inexactUnmasked row1 1 = true ∧
    (outcome inexactUnmasked row1 1).flags.pe = true ∧ inexactUnmasked.mxcsr.getLsbD 12 = false :=
  ⟨by decide +kernel, operandOk_row1 _, rfl, by decide +kernel, no_pre_row1 (by decide +kernel), by decide +kernel,
    by decide +kernel, by decide +kernel, by decide +kernel⟩

theorem witness_UnmaskedPostComputationRaises_overflow :
    enabled overflowUnmasked row1 = true ∧
    (∀ u, u < 2 → (outcome overflowUnmasked row1 u).flags.ie = false ∧ (outcome overflowUnmasked row1 u).flags.de = false) ∧
    (outcome overflowUnmasked row1 0).flags.oe = true ∧ overflowUnmasked.mxcsr.getLsbD 10 = false := by decide +kernel

theorem witness_UnmaskedPostComputationRaises_underflow :
    enabled underflowUnmasked row1 = true ∧
    (∀ u, u < 2 → (outcome underflowUnmasked row1 u).flags.ie = false ∧ (outcome underflowUnmasked row1 u).flags.de = false) ∧
    (outcome underflowUnmasked row1 0).flags.ue = true ∧ underflowUnmasked.mxcsr.getLsbD 11 = false := by decide +kernel

/-- As `invalidUnmasked`, with CR4.OSXMMEXCPT = 0. -/
def invalidNoSupport : State := { invalidUnmasked with cr4 := 0x40000#64 }

theorem witness_UnmaskedWithoutOsSupportIsUndefinedOpcode :
    enabled invalidNoSupport row1 = true ∧ operandOk invalidNoSupport row1 ∧ (parts row1).rounding = none ∧
    invalidNoSupport.cr4.getLsbD 10 = false ∧ 0 < (parts row1).lanes ∧ activeLane invalidNoSupport row1 0 = true ∧
    unmasked invalidNoSupport.mxcsr (outcome invalidNoSupport row1 0).flags = true :=
  ⟨by decide +kernel, operandOk_row1 _, rfl, by decide +kernel, by decide +kernel, by decide +kernel, by decide +kernel⟩

theorem witness_SuppressedExceptionsLeaveMxcsr :
    (∃ t, exec (Instr.evexRounded .k132 [] .unmasked 1#5 2#5 3#5 .up) base = .next t) ∧
    ∃ q left, exec (Instr.evexRounded .k132 [] .unmasked 1#5 2#5 3#5 .up) State.reset = .fault (.exception q left) :=
  ⟨exists_next (by decide +kernel), _, _, rfl⟩

/-- Lanes 1 and 3 of registers 1, 2, 3 other than in `base`. -/
def otherInactive : Vector Vec 32 :=
  ((base.vec.set 1 (packLanes [0x4000000000000000#64, 1#64, 0x4000000000000000#64, 0x7FF0000000000001#64])).set 2
    (packLanes [0x4008000000000000#64, 0x7FF0000000000000#64, 0x4008000000000000#64])).set 3
    (packLanes [0x4014000000000000#64, 0#64, 0x4014000000000000#64, 7#64])

theorem witness_InactiveLanesDoNotMatter :
    (∀ j, laneActive base (.merging .k1) j = true → ∀ q : BitVec 5, q = 1#5 ∨ q = 2#5 ∨ q = 3#5 →
      lane (readVec { base with vec := otherInactive } q) j = lane (readVec base q) j) ∧
    readVec { base with vec := otherInactive } 1#5 ≠ readVec base 1#5 ∧
    ∃ t, exec (Instr.evex .k231 .l256 [] (.merging .k1) 1#5 2#5 (.reg 3#5)) base = .next t := by
  refine ⟨?_, by decide +kernel, exists_next (by decide +kernel)⟩
  have h : ∀ j : Fin 64, laneActive base (.merging .k1) j.val = true → ∀ q : BitVec 5, q = 1#5 ∨ q = 2#5 ∨ q = 3#5 →
      lane (readVec { base with vec := otherInactive } q) j.val = lane (readVec base q) j.val := by decide +kernel
  intro j hj
  by_cases hj' : j < 64
  · exact h ⟨j, hj'⟩ hj
  · exfalso
    have : (readOpmask base (MaskReg.bits .k1)).getLsbD j = false := BitVec.getLsbD_of_ge _ _ (by omega)
    rw [laneActive, this] at hj
    cases hj

/-- Opmask registers that agree with those of `base` in bits 1:0 of k1 only. -/
def otherMask : Vector Word 8 := (Vector.replicate 8 0xFFFFFFFFFFFFFFFF#64).set 1 0xFFFFFFFFFFFFFFF1#64

theorem witness_OtherMaskBitsAreIgnored :
    (∀ j, j < 2 → activeLane { base with opmask := otherMask } (.vfnmadd132pdXmmEvex [] (.merging .k1) 1#5 2#5 (.reg 3#5)) j =
      activeLane base (.vfnmadd132pdXmmEvex [] (.merging .k1) 1#5 2#5 (.reg 3#5)) j) ∧
    ∃ t, exec (.vfnmadd132pdXmmEvex [] (.merging .k1) 1#5 2#5 (.reg 3#5)) base = .next t :=
  ⟨by decide +kernel, exists_next (by decide +kernel)⟩

theorem witness_PrivilegeLevelDoesNotMatter :
    (∃ t, exec row1 base = .next t) ∧ base.cpl = 0#2 ∧ operandOk { base with cpl := 3#2 } row1 :=
  ⟨exists_next (by decide +kernel), rfl, operandOk_row1 _⟩

theorem witness_CompletionFrame : ∃ t, exec row4 base = .next t := exists_next (by decide +kernel)

theorem exists_fault {r : Result} (h : (faultOf r).isSome = true) : ∃ q left, r = .fault (.exception q left) := by
  cases r with
  | next t => cases h
  | fault f =>
    cases f with
    | exception q left => exact ⟨q, left, rfl⟩
  | refused f => cases h

theorem witness_FaultsArePrecise :
    ∃ q left, step (placeInstruction invalidUnmasked (encode row1)) = .fault (.exception q left) :=
  exists_fault (by decide +kernel)

theorem witness_ReportsFollowExceptionTable :
    ∃ q left, step (placeInstruction halfReadable (encode row4)) = .fault (.exception q left) :=
  exists_fault (by decide +kernel)

theorem witness_InvariantKeptByEveryStep :
    Memory.wf (holding (encode row1)).mem = true ∧ (holding (encode row1)).mxcsr.extractLsb' 16 16 = 0#16 ∧
    vecStorageOk (holding (encode row1)) ∧ ∃ t, step (holding (encode row1)) = .next t :=
  ⟨by decide +kernel, by decide +kernel, fun h => absurd h (by decide), exists_next (by decide +kernel)⟩

/-- The state of a run's outcome `Completed`. -/
def completed (r : RunOutcome) : Bool :=
  match r with
  | .completed _ => true
  | .fault _ => false
  | .refused _ => false
  | .running _ => false

theorem witness_CompletedRunFrame : ∃ t, runTo 0x100A#64 3 (holding (encode row1 ++ encode row4)) = .completed t := by
  have h : completed (runTo 0x100A#64 3 (holding (encode row1 ++ encode row4))) = true := by decide +kernel
  cases hr : runTo 0x100A#64 3 (holding (encode row1 ++ encode row4)) with
  | completed t => exact ⟨t, rfl⟩
  | fault f => rw [hr] at h; cases h
  | refused f => rw [hr] at h; cases h
  | running t => rw [hr] at h; cases h

theorem witness_DenormalsAreZeros :
    isInf 0x7FF0000000000000#64 = true ∧ isDenormal 0x800FFFFFFFFFFFFF#64 = true ∧ isNaN 0#64 = false ∧
    expField 1#64 = 0 ∧ fracField 1#64 ≠ 0 := by decide

theorem witness_NanSelection :
    isNaN 0x7FF0000000000001#64 = true ∧ isSNaN 0x7FF0000000000001#64 = true ∧ isNaN 0xFFF8000000000000#64 = true ∧
    isSNaN 0xFFF8000000000000#64 = false ∧ isNaN 0x7FF0000000000000#64 = false := by decide

theorem witness_InvalidOperations :
    isNaN 0x7FF0000000000000#64 = false ∧ isNaN 1#64 = false ∧
    isInf 0x7FF0000000000000#64 = true ∧ isZero (dazReplace true 1#64) = true ∧
    isZero (dazReplace false 1#64) = false ∧
    (0x7FF0000000000000#64 : Word).getLsbD 63 ≠ !((0xFFF0000000000000#64 : Word).getLsbD 63 ^^ (0x8000000000000001#64 : Word).getLsbD 63) := by
  decide

theorem witness_InfiniteResults :
    isInf 0xFFF0000000000000#64 = true ∧ isZero (dazReplace false 1#64) = false ∧ isInf 1#64 = false ∧
    isDenormal 1#64 = true ∧ isInf 0x3FF0000000000000#64 = false := by decide

/-! ### Operands of the rounding statements -/

theorem value_zero : value 0#64 = 0 := by
  simp [value]

theorem value_one : value 0x3FF0000000000000#64 = 1 := by
  have h1 : ((0x3FF0000000000000#64 : Word).extractLsb' 52 11).toNat = 1023 := by decide
  have h2 : ((0x3FF0000000000000#64 : Word).extractLsb' 0 52).toNat = 0 := by decide
  have h3 : (0x3FF0000000000000#64 : Word).getLsbD 63 = false := by decide
  rw [value, h1, h2, h3]
  norm_num

theorem value_two_pow_neg60 : value 0x3C30000000000000#64 = 2 ^ (-60 : ℤ) := by
  have h1 : ((0x3C30000000000000#64 : Word).extractLsb' 52 11).toNat = 963 := by decide
  have h2 : ((0x3C30000000000000#64 : Word).extractLsb' 0 52).toNat = 0 := by decide
  have h3 : (0x3C30000000000000#64 : Word).getLsbD 63 = false := by decide
  rw [value, h1, h2, h3]
  norm_num

theorem witness_ExactZeroResults :
    isFinite 0x3FF0000000000000#64 = true ∧
    exactValue 0x3FF0000000000000#64 0x3FF0000000000000#64 0x3FF0000000000000#64 = 0 ∧
    exactValue 0#64 0#64 0#64 = 0 ∧ value 0#64 * value 0#64 = 0 := by
  refine ⟨by decide, ?_, ?_, ?_⟩ <;> simp [exactValue, value_one, value_zero]

/-- The witness of R142: 1 - 2^-60, inexact. -/
theorem witness_DirectedRoundingIsCorrect :
    isFinite 0x3C30000000000000#64 = true ∧ isFinite 0x3FF0000000000000#64 = true ∧
    exactValue 0x3C30000000000000#64 0x3FF0000000000000#64 0x3FF0000000000000#64 ≠ 0 ∧
    0 < exactValue 0x3C30000000000000#64 0x3FF0000000000000#64 0x3FF0000000000000#64 ∧
    (fnmadd64 0x3C30000000000000#64 0x3FF0000000000000#64 0x3FF0000000000000#64 .down false false true true).result =
      some 0x3FEFFFFFFFFFFFFF#64 ∧
    (fnmadd64 0x3C30000000000000#64 0x3FF0000000000000#64 0x3FF0000000000000#64 .down false false true true).flags.oe = false ∧
    (fnmadd64 0x3C30000000000000#64 0x3FF0000000000000#64 0x3FF0000000000000#64 .toZero false false true true).result =
      some 0x3FEFFFFFFFFFFFFF#64 ∧
    (fnmadd64 0x3C30000000000000#64 0x3FF0000000000000#64 0x3FF0000000000000#64 .up false false true true).result =
      some 0x3FF0000000000000#64 := by
  refine ⟨by decide, by decide, ?_, ?_, by decide +kernel, by decide +kernel, by decide +kernel, by decide +kernel⟩ <;>
    rw [exactValue, value_one, value_two_pow_neg60] <;> norm_num

theorem witness_NearestRoundingIsCorrect :
    isFinite 0x3C30000000000000#64 = true ∧ isFinite 0x3FF0000000000000#64 = true ∧
    exactValue 0x3C30000000000000#64 0x3FF0000000000000#64 0x3FF0000000000000#64 ≠ 0 ∧
    (fnmadd64 0x3C30000000000000#64 0x3FF0000000000000#64 0x3FF0000000000000#64 .nearest false false true true).result =
      some 0x3FF0000000000000#64 ∧
    (fnmadd64 0x3C30000000000000#64 0x3FF0000000000000#64 0x3FF0000000000000#64 .nearest false false true true).flags.oe =
      false := by
  refine ⟨by decide, by decide, ?_, by decide +kernel, by decide +kernel⟩
  rw [exactValue, value_one, value_two_pow_neg60]
  norm_num

theorem witness_PrecisionFlagIffInexact :
    (fnmadd64 0x3C30000000000000#64 0x3FF0000000000000#64 0x3FF0000000000000#64 .down false false true true).result =
      some 0x3FEFFFFFFFFFFFFF#64 ∧ isFinite 0x3FEFFFFFFFFFFFFF#64 = true ∧ isFinite 0x3C30000000000000#64 = true := by
  decide +kernel

theorem value_two_pow_1023 : value 0x7FE0000000000000#64 = 2 ^ (1023 : ℕ) := by
  have h1 : ((0x7FE0000000000000#64 : Word).extractLsb' 52 11).toNat = 2046 := by decide
  have h2 : ((0x7FE0000000000000#64 : Word).extractLsb' 0 52).toNat = 0 := by decide
  have h3 : (0x7FE0000000000000#64 : Word).getLsbD 63 = false := by decide
  rw [value, h1, h2, h3, if_neg (by decide), if_neg (by decide), one_mul, Nat.cast_zero, add_zero,
    show ((2046 : ℕ) : ℤ) - 1075 = ((971 : ℕ) : ℤ) from by norm_num, zpow_natCast, ← pow_add]

theorem witness_OverflowResults :
    isFinite 0x7FE0000000000000#64 = true ∧ isFinite 0#64 = true ∧
    2 ^ 1024 ≤ |exactValue 0x7FE0000000000000#64 0x7FE0000000000000#64 0#64| ∧
    |exactValue 0#64 0#64 0#64| ≤ value 0x7FEFFFFFFFFFFFFF#64 := by
  refine ⟨by decide, by decide, ?_, ?_⟩
  · rw [exactValue, value_two_pow_1023, value_zero, add_zero, abs_neg, ← pow_add, abs_of_pos (by positivity)]
    exact pow_le_pow_right₀ (by norm_num) (by norm_num)
  · have h3 : (0x7FEFFFFFFFFFFFFF#64 : Word).getLsbD 63 = false := by decide
    simp only [exactValue, value_zero]
    rw [value, h3]
    norm_num
    split <;> positivity

theorem value_two_pow_neg1074 : value 1#64 = 2 ^ (-1074 : ℤ) := by
  have h1 : ((1#64 : Word).extractLsb' 52 11).toNat = 0 := by decide
  have h2 : ((1#64 : Word).extractLsb' 0 52).toNat = 1 := by decide
  have h3 : (1#64 : Word).getLsbD 63 = false := by decide
  rw [value, h1, h2, h3, if_neg (by decide), if_pos rfl, one_mul, Nat.cast_one, one_mul]

theorem witness_UnderflowResults :
    isFinite 0#64 = true ∧ isFinite 1#64 = true ∧ exactValue 0#64 0#64 1#64 ≠ 0 ∧
    |exactValue 0#64 0#64 1#64| ≤ (2 : ℚ) ^ (-1022 : ℤ) - (2 : ℚ) ^ (-1075 : ℤ) ∧
    (2 : ℚ) ^ (-1022 : ℤ) ≤ |exactValue 0#64 0#64 0x3FF0000000000000#64| := by
  have e : exactValue 0#64 0#64 1#64 = 2 ^ (-1074 : ℤ) := by
    rw [exactValue, value_zero, value_two_pow_neg1074]
    ring
  refine ⟨by decide, by decide, ?_, ?_, ?_⟩
  · rw [e]
    positivity
  · rw [e, abs_of_pos (by positivity)]
    have h1 : (2 : ℚ) ^ (-1074 : ℤ) = 2 * 2 ^ (-1075 : ℤ) := by
      rw [← zpow_one_add₀ (by norm_num)]
      norm_num
    have h2 : (2 : ℚ) ^ (-1022 : ℤ) = 2 ^ (53 : ℤ) * 2 ^ (-1075 : ℤ) := by
      rw [← zpow_add₀ (by norm_num)]
      norm_num
    have h3 : (0 : ℚ) < 2 ^ (-1075 : ℤ) := by positivity
    rw [h1, h2]
    generalize (2 : ℚ) ^ (-1075 : ℤ) = c at h3
    norm_num
    linarith
  · rw [exactValue, value_zero, value_one, mul_comm, mul_zero, neg_zero, zero_add, abs_one]
    exact zpow_le_one_of_nonpos₀ (by norm_num) (by norm_num)

theorem value_max : value 0x7FEFFFFFFFFFFFFF#64 = 2 ^ 1024 - 2 ^ 971 := by
  have h1 : ((0x7FEFFFFFFFFFFFFF#64 : Word).extractLsb' 52 11).toNat = 2046 := by decide
  have h2 : ((0x7FEFFFFFFFFFFFFF#64 : Word).extractLsb' 0 52).toNat = 2 ^ 52 - 1 := by decide
  have h3 : (0x7FEFFFFFFFFFFFFF#64 : Word).getLsbD 63 = false := by decide
  rw [value, h1, h2, h3, if_neg (by decide), if_neg (by decide), one_mul,
    show ((2046 : ℕ) : ℤ) - 1075 = ((971 : ℕ) : ℤ) from by norm_num, zpow_natCast,
    show (2 : ℚ) ^ 1024 = 2 ^ 53 * 2 ^ 971 from by rw [← pow_add]]
  generalize (2 : ℚ) ^ 971 = c
  norm_num
  ring

theorem value_neg_two_pow_970 : value 0xFC90000000000000#64 = -2 ^ 970 := by
  have h1 : ((0xFC90000000000000#64 : Word).extractLsb' 52 11).toNat = 1993 := by decide
  have h2 : ((0xFC90000000000000#64 : Word).extractLsb' 0 52).toNat = 0 := by decide
  have h3 : (0xFC90000000000000#64 : Word).getLsbD 63 = true := by decide
  rw [value, h1, h2, h3, if_pos rfl, if_neg (by decide), Nat.cast_zero, add_zero,
    show ((1993 : ℕ) : ℤ) - 1075 = ((918 : ℕ) : ℤ) from by norm_num, zpow_natCast, ← pow_add]
  norm_num

/-- Vectors L68 and L69: the exact value is -(2^1024 - 2^970), where nearest begins to overflow; toward zero it does
not. -/
theorem witness_OverflowResults_between (t : ℚ)
    (ht : t = exactValue 0x7FEFFFFFFFFFFFFF#64 0x3FF0000000000000#64 0xFC90000000000000#64) :
    isFinite 0x7FEFFFFFFFFFFFFF#64 = true ∧ isFinite 0x3FF0000000000000#64 = true ∧
    isFinite 0xFC90000000000000#64 = true ∧
    t < 0 ∧ 2 ^ 1024 - 2 ^ 971 < |t| ∧ |t| < 2 ^ 1024 ∧
    (True ↔ (Rounding.nearest = .nearest ∧ 2 ^ 1024 - 2 ^ 970 ≤ |t|) ∨ (Rounding.nearest = .down ∧ t < 0) ∨
      (Rounding.nearest = .up ∧ 0 < t)) ∧
    (False ↔ (Rounding.toZero = .nearest ∧ 2 ^ 1024 - 2 ^ 970 ≤ |t|) ∨ (Rounding.toZero = .down ∧ t < 0) ∨
      (Rounding.toZero = .up ∧ 0 < t)) := by
  have e : t = -(2 ^ 1024 - 2 ^ 970) := by
    rw [ht, exactValue, value_max, value_one, value_neg_two_pow_970, show (2 : ℚ) ^ 971 = 2 * 2 ^ 970 from pow_succ' _ _]
    generalize (2 : ℚ) ^ 1024 = a
    generalize (2 : ℚ) ^ 970 = c
    ring
  have h0 : (0 : ℚ) < 2 ^ 970 := by positivity
  have h1 : (2 : ℚ) ^ 1024 = 2 ^ 54 * 2 ^ 970 := by rw [← pow_add]
  have h2 : (2 : ℚ) ^ 971 = 2 * 2 ^ 970 := pow_succ' _ _
  have hn : t < 0 := by
    rw [e, h1]
    generalize (2 : ℚ) ^ 970 = c at h0
    norm_num
    linarith
  have ha : |t| = 2 ^ 1024 - 2 ^ 970 := by rw [abs_of_neg hn, e, neg_neg]
  refine ⟨by decide, by decide, by decide, hn, ?_, ?_, by simp [ha], by simp⟩
  · rw [ha, h2]
    exact sub_lt_sub_left (by rw [two_mul]; exact lt_add_of_pos_right _ h0) _
  · rw [ha]
    exact sub_lt_self _ h0

theorem value_min_normal : value 0x0010000000000000#64 = 2 ^ (-1022 : ℤ) := by
  have h1 : ((0x0010000000000000#64 : Word).extractLsb' 52 11).toNat = 1 := by decide
  have h2 : ((0x0010000000000000#64 : Word).extractLsb' 0 52).toNat = 0 := by decide
  have h3 : (0x0010000000000000#64 : Word).getLsbD 63 = false := by decide
  rw [value, h1, h2, h3, if_neg (by decide), if_neg (by decide), one_mul, Nat.cast_zero, add_zero, ← zpow_natCast,
    ← zpow_add₀ (by norm_num)]
  norm_num

theorem value_two_pow_neg538 : value 0x1E50000000000000#64 = 2 ^ (-538 : ℤ) := by
  have h1 : ((0x1E50000000000000#64 : Word).extractLsb' 52 11).toNat = 485 := by decide
  have h2 : ((0x1E50000000000000#64 : Word).extractLsb' 0 52).toNat = 0 := by decide
  have h3 : (0x1E50000000000000#64 : Word).getLsbD 63 = false := by decide
  rw [value, h1, h2, h3, if_neg (by decide), if_neg (by decide), one_mul, Nat.cast_zero, add_zero, ← zpow_natCast,
    ← zpow_add₀ (by norm_num)]
  norm_num

/-- The exact value is 2^-1022 - 2^-1076, where nearest begins to round up to 2^-1022; toward zero it does not. -/
theorem witness_UnderflowResults_between (t : ℚ)
    (ht : t = exactValue 0x1E50000000000000#64 0x1E50000000000000#64 0x0010000000000000#64) :
    isFinite 0x1E50000000000000#64 = true ∧ isFinite 0x0010000000000000#64 = true ∧
    t ≠ 0 ∧ |t| < (2 : ℚ) ^ (-1022 : ℤ) ∧
    (True ↔ (2 : ℚ) ^ (-1022 : ℤ) - (2 : ℚ) ^ (-1075 : ℤ) < |t| ∧
      ((Rounding.nearest = .nearest ∧ (2 : ℚ) ^ (-1022 : ℤ) - (2 : ℚ) ^ (-1076 : ℤ) ≤ |t|) ∨
        (Rounding.nearest = .down ∧ t < 0) ∨ (Rounding.nearest = .up ∧ 0 < t))) ∧
    (False ↔ (2 : ℚ) ^ (-1022 : ℤ) - (2 : ℚ) ^ (-1075 : ℤ) < |t| ∧
      ((Rounding.toZero = .nearest ∧ (2 : ℚ) ^ (-1022 : ℤ) - (2 : ℚ) ^ (-1076 : ℤ) ≤ |t|) ∨
        (Rounding.toZero = .down ∧ t < 0) ∨ (Rounding.toZero = .up ∧ 0 < t))) := by
  have e : t = 2 ^ (-1022 : ℤ) - 2 ^ (-1076 : ℤ) := by
    rw [ht, exactValue, value_two_pow_neg538, value_min_normal, ← zpow_add₀ (by norm_num),
      show (-538 : ℤ) + -538 = -1076 from by norm_num]
    exact neg_add_eq_sub _ _
  have h0 : (0 : ℚ) < 2 ^ (-1076 : ℤ) := by positivity
  have h1 : (2 : ℚ) ^ (-1022 : ℤ) = 2 ^ (54 : ℕ) * 2 ^ (-1076 : ℤ) := by
    rw [← zpow_natCast, ← zpow_add₀ (by norm_num)]
    norm_num
  have h2 : (2 : ℚ) ^ (-1075 : ℤ) = 2 * 2 ^ (-1076 : ℤ) := by
    rw [← zpow_one_add₀ (by norm_num)]
    norm_num
  have hp : 0 < t := by
    rw [e, h1]
    generalize (2 : ℚ) ^ (-1076 : ℤ) = c at h0
    norm_num
    linarith
  have ha : |t| = 2 ^ (-1022 : ℤ) - 2 ^ (-1076 : ℤ) := by rw [abs_of_pos hp, e]
  refine ⟨by decide, by decide, hp.ne', ?_, ?_, by simp⟩
  · rw [ha]
    linarith
  · refine ⟨fun _ => ⟨?_, .inl ⟨rfl, ha.ge⟩⟩, fun _ => trivial⟩
    rw [ha, h2]
    linarith

theorem witness_NanInvalidAndSymmetry :
    isInf 0x7FF0000000000000#64 = true ∧ isZero (dazReplace true 1#64) = true ∧
    ¬(isNaN 0x7FF0000000000000#64 = true ∧ isNaN 0x7FF0000000000001#64 = true) ∧
    (fnmadd64 0x7FF0000000000000#64 1#64 0#64 .nearest true false true true).result = some 0xFFF8000000000000#64 := by
  decide +kernel

theorem test_reset_memory_wf : Memory.wf State.reset.mem = true := by decide

end Sys2Proof.Tests
end

/-! Proofs about the machine's state: what a step that completes or faults can leave, the frame of a completed
instruction, the values after RESET and INIT, and the invariant `State.inv`. -/

namespace Sys2Proof.Machine

/-! ## The gate read backwards (R234-R237) -/

@[simp] theorem isEvex_vex (k : Kind) (l : VexLength) (p : List LegacyPrefix) (dst src2 : BitVec 4) (op3 : VexOp3) :
    isEvex (Instr.vex k l p dst src2 op3) = false := by
  cases l <;> cases k <;> rfl

@[simp] theorem isEvex_evex (k : Kind) (l : EvexLength) (p : List LegacyPrefix) (mask : Masking) (dst src2 : BitVec 5)
    (op3 : EvexOp3) : isEvex (Instr.evex k l p mask dst src2 op3) = true := by
  cases l <;> cases k <;> rfl

@[simp] theorem isEvex_evexRounded (k : Kind) (p : List LegacyPrefix) (mask : Masking) (dst src2 r : BitVec 5)
    (rc : Rounding) : isEvex (Instr.evexRounded k p mask dst src2 r rc) = true := by
  cases k <;> rfl

/-- The gate is passed exactly in 64-bit mode with the state components enabled, the row's features present and
CR0.TS clear. -/
theorem gate_eq_none {s : State} {e f : Bool} :
    gate s e f = none ↔ modeOf s = .long64 ∧
      (cr4OSXSAVE s && xcr0Avx s && (!e || xcr0Avx512 s) && f) = true ∧ cr0TS s = false := by
  cases hm : modeOf s with
  | long64 =>
    rw [gate_long64 e f hm]
    split
    · next hen => cases cr0TS s <;> simp [hen]
    · next hen => simp [hen]
  | realAddress => simp [gate, hm]
  | virtual8086 => simp [gate, hm]
  | otherProtected => simp [gate, hm]

/-- Where the gate stops an instruction, that stop is its whole meaning. -/
theorem exec_of_gateOf_eq_some {i : Instr} {s : State} {stop : Result} (h : gateOf s i = some stop) :
    exec i s = stop := by
  rcases exec_cases i s with ⟨stop', hg, he⟩ | ⟨hg, _⟩ | ⟨hg, _⟩
  · rw [he]
    exact Option.some.inj (hg.symm.trans h)
  · rw [hg] at h
    cases h
  · rw [hg] at h
    cases h

/-- An EVEX row passes the gate only on a processor with AVX512F (R236). -/
theorem isEvex_eq_false_of_gateOf {s : State} {i : Instr} (hg : gateOf s i = none)
    (hf : s.cpu.hasAVX512F = false) : isEvex i = false := by
  rcases instr_shape i with ⟨k, l, p, dst, src2, op3, rfl⟩ | ⟨k, l, p, mask, dst, src2, op3, rfl⟩ |
    ⟨k, p, mask, dst, src2, r, rc, rfl⟩
  · exact isEvex_vex ..
  · rw [gateOf_evex, gate_eq_none] at hg
    cases l <;> simp [evexFeature, hf] at hg
  · rw [gateOf_evexRounded, gate_eq_none] at hg
    simp [hf] at hg

/-- A VEX row names only registers 0-15 (R21). -/
theorem destination_lt_of_isEvex_eq_false {i : Instr} (h : isEvex i = false) : (destination i).toNat < 16 := by
  rcases instr_shape i with ⟨k, l, p, dst, src2, op3, rfl⟩ | ⟨k, l, p, mask, dst, src2, op3, rfl⟩ |
    ⟨k, p, mask, dst, src2, r, rc, rfl⟩
  · have hlt : dst.toNat < 16 := dst.isLt
    rw [destination_vex, vexReg, BitVec.toNat_setWidth]
    omega
  · simp at h
  · simp at h

/-! ## What completes and what faults, said once -/

/-- What `exec` leaves when it completes: `ExecPacked`'s state, with flag bits of R27 added to MXCSR. -/
theorem exec_next {i : Instr} {s t : State} (h : exec i s = .next t) :
    gateOf s i = none ∧ ∃ (o : PackedOp) (f : FpFlags), o.dst = destination i ∧ o.ilen = i.length ∧
      (isEvex i = false → o.lanes ≤ 4) ∧ t = o.complete s (s.mxcsr ||| f.bits) := by
  rcases exec_cases i s with ⟨stop, hg, he⟩ | ⟨_, seg, la, size, elements, stop, hm, he⟩ |
    ⟨hg, o, hd, hl, _, h4, he⟩
  · rw [he] at h
    rcases gate_eq_some hg with rfl | rfl | rfl <;> cases h
  · rw [he] at h
    rcases memFault_eq_some hm with rfl | rfl | ⟨a, _, rfl⟩ | ⟨_, rfl⟩ <;> cases h
  · rw [he] at h
    refine ⟨hg, o, ?_⟩
    rcases execPacked_cases o s with ⟨_, hx⟩ | ⟨_, _, hx⟩ | ⟨_, _, hx⟩
    · rw [hx] at h
      cases h
      exact ⟨FpFlags.none, hd, hl, h4, by simp [FpFlags.bits, FpFlags.none, flagBit]⟩
    · rw [hx] at h
      cases h
      exact ⟨unionFlags (o.flags s), hd, hl, h4, rfl⟩
    · rw [hx, raiseXM] at h
      split at h <;> cases h

/-- The exceptions that a step from `s` can raise (R230), each as the model raises it. -/
inductive Raised (s : State) : Result → Prop where
  | invalidOpcode : Raised s (raiseUD s)
  | deviceNotAvailable : Raised s (raiseNM s)
  | stackSegment : Raised s (raiseSS s)
  | generalProtection : Raised s (raiseGP s)
  | pageFault (a : Word) : Raised s (raisePF s a)
  | alignmentCheck (h : alignCheckOn s = true) : Raised s (raiseAC s)
  | simdFloatingPoint (f : FpFlags) : Raised s (raiseXM s (s.mxcsr ||| f.bits))

/-- Every fault of `exec` is one of the exceptions of R230. -/
theorem exec_fault {i : Instr} {s : State} {f : Fault} (h : exec i s = .fault f) : Raised s (.fault f) := by
  rcases exec_cases i s with ⟨stop, hg, he⟩ | ⟨_, seg, la, size, elements, stop, hm, he⟩ | ⟨_, o, _, _, _, _, he⟩
  · rw [← h, he]
    rcases gate_eq_some hg with rfl | rfl | rfl
    · rw [he] at h
      cases h
    · exact .invalidOpcode
    · exact .deviceNotAvailable
  · rw [← h, he]
    rcases memFault_eq_some hm with rfl | rfl | ⟨a, _, rfl⟩ | ⟨hal, rfl⟩
    · exact .stackSegment
    · exact .generalProtection
    · exact .pageFault a
    · exact .alignmentCheck hal
  · rcases execPacked_cases o s with ⟨_, hx⟩ | ⟨_, _, hx⟩ | ⟨_, _, hx⟩
    · rw [he, hx] at h
      cases h
    · rw [he, hx] at h
      cases h
    · obtain ⟨g, hg⟩ := signalFP_fst s.mxcsr (o.flags s)
      rw [← h, he, hx, hg]
      exact .simdFloatingPoint g

/-- A fetch that ends the step answers a refusal or one of #UD, #GP and #PF (R67, R110, R256). -/
theorem fetch_stop {s : State} {r : Result} (h : fetch s = .stop r) :
    (∃ why, r = .refused why) ∨ Raised s r := by
  unfold fetch at h
  split at h
  · cases h
    exact .inl ⟨_, rfl⟩
  · split at h <;> cases h
    · exact .inr .invalidOpcode
    · exact .inl ⟨_, rfl⟩
    · exact .inr .generalProtection
    · right
      unfold fetchFault
      split
      · exact .pageFault _
      · exact .generalProtection

/-- A step that completes is the completion of the fetched instruction. -/
theorem step_next {s t : State} (h : step s = .next t) : ∃ i, fetch s = .run i ∧ exec i s = .next t := by
  unfold step at h
  split at h
  · next i hf => exact ⟨i, hf, h⟩
  · next r hf =>
    subst h
    rcases fetch_stop hf with ⟨_, hr⟩ | hr
    · cases hr
    · generalize hn : Host.Outcome.next t = r at hr
      cases hr with
      | simdFloatingPoint f => rw [raiseXM] at hn; split at hn <;> cases hn
      | _ => cases hn

/-- Every fault of a step is one of the exceptions of R230. -/
theorem step_fault {s : State} {f : Fault} (h : step s = .fault f) : Raised s (.fault f) := by
  unfold step at h
  split at h
  · exact exec_fault h
  · next r hf =>
    subst h
    rcases fetch_stop hf with ⟨_, hr⟩ | hr
    · cases hr
    · exact hr

/-- What a fault leaves (R249): the state before, but for bits added to MXCSR[5:0], CR2 and the counter of free
values. -/
theorem Raised.left_eq {s : State} {q : Report} {left : State} (h : Raised s (.fault (.exception q left))) :
    ∃ (b : BitVec 32) (cr2 : Word) (n : Nat), (∀ k, 6 ≤ k → b.getLsbD k = false) ∧
      left = { s with mxcsr := s.mxcsr ||| b, cr2 := cr2, freeCount := n } := by
  have unchanged : ∃ (b : BitVec 32) (cr2 : Word) (n : Nat), (∀ k, 6 ≤ k → b.getLsbD k = false) ∧
      s = { s with mxcsr := s.mxcsr ||| b, cr2 := cr2, freeCount := n } := ⟨0#32, s.cr2, s.freeCount, by simp⟩
  generalize hr : Host.Outcome.fault (Fault.exception q left) = r at h
  cases h with
  | pageFault a =>
    cases hr
    exact ⟨0#32, a, s.freeCount + 1, by simp⟩
  | simdFloatingPoint f =>
    rw [raiseXM] at hr
    split at hr <;> cases hr
    · exact ⟨f.bits, s.cr2, s.freeCount, fun k hk => bits_getLsbD_of_not_flag f k (.inr hk), rfl⟩
    · refine ⟨(Config.freeFlags s.freeCount).setWidth 32, s.cr2, s.freeCount + 1, fun k hk => ?_, rfl⟩
      rw [BitVec.getLsbD_setWidth, BitVec.getLsbD_of_ge _ _ hk, Bool.and_false]
  | _ =>
    cases hr
    exact unchanged

/-! ## The frame of a completed instruction (R22, R28, R30, R68) -/

/-- Settles O42: a completing `exec` is `PackedOp.complete`, whose fields are known. -/
theorem completionFrame : Obligations.CompletionFrame := by
  intro i s t h
  obtain ⟨_, o, f, hd, hl, _, rfl⟩ := exec_next h
  refine ⟨fun r hr => ?_, fun n hn => ?_, fun n hn => ?_, ?_, sameElsewhere_complete o s _⟩
  · exact readVec_complete_other o s _ (hd ▸ hr)
  · rw [complete_mxcsr, BitVec.getLsbD_or, bits_getLsbD_of_not_flag f n hn, Bool.or_false]
  · rw [complete_mxcsr, BitVec.getLsbD_or, hn, Bool.true_or]
  · rw [complete_rip, hl]

/-! ## The invariant (R20, R27, R50) -/

/-- Bits added to MXCSR[5:0] leave MXCSR[31:16] as they are (R27). -/
theorem mxcsr_reserved_or (m : BitVec 32) {b : BitVec 32} (hb : ∀ k, 6 ≤ k → b.getLsbD k = false) :
    (m ||| b).extractLsb' 16 16 = m.extractLsb' 16 16 := by
  apply BitVec.eq_of_getLsbD_eq
  intro n hn
  rw [BitVec.getLsbD_extractLsb', BitVec.getLsbD_extractLsb', BitVec.getLsbD_or, hb (16 + n) (by omega),
    Bool.or_false]

/-- Completion puts nothing where a processor without AVX512F has no storage, when it writes one of the registers 0-15
and at most four lanes: the other lanes of the destination become 0. -/
theorem vecStorageOk_complete {o : PackedOp} {s : State} (m : BitVec 32) (hs : vecStorageOk s)
    (ho : s.cpu.hasAVX512F = false → o.dst.toNat < 16 ∧ o.lanes ≤ 4) : vecStorageOk (o.complete s m) := by
  intro hf
  obtain ⟨hregs, hlanes⟩ := hs hf
  obtain ⟨hdst, hl⟩ := ho hf
  refine ⟨fun r hr => ?_, fun r j hj h8 => ?_⟩
  · have hne : r ≠ o.dst := by
      rintro rfl
      omega
    rw [readVec_complete_other o s m hne, hregs r hr]
  · by_cases hr : r = o.dst
    · rw [hr]
      exact lane_complete_above m (by omega) h8
    · rw [readVec_complete_other o s m hr, hlanes r j hj h8]

/-- An instruction that completes keeps the invariant. -/
theorem exec_next_inv {i : Instr} {s t : State} (hs : s.inv) (h : exec i s = .next t) : t.inv := by
  obtain ⟨hmem, hmx, hvec⟩ := hs
  obtain ⟨hg, o, f, hd, _, h4, rfl⟩ := exec_next h
  refine ⟨hmem, ?_, vecStorageOk_complete _ hvec fun hf => ?_⟩
  · rw [complete_mxcsr, mxcsr_reserved_or s.mxcsr fun k hk => bits_getLsbD_of_not_flag f k (.inr hk), hmx]
  · have hvex := isEvex_eq_false_of_gateOf hg hf
    exact ⟨hd ▸ destination_lt_of_isEvex_eq_false hvex, h4 hvex⟩

/-- The state that a fault leaves keeps the invariant. -/
theorem Raised.left_inv {s : State} {q : Report} {left : State} (hs : s.inv)
    (h : Raised s (.fault (.exception q left))) : left.inv := by
  obtain ⟨hmem, hmx, hvec⟩ := hs
  obtain ⟨b, cr2, n, hb, rfl⟩ := h.left_eq
  exact ⟨hmem, (mxcsr_reserved_or s.mxcsr hb).trans hmx, hvec⟩

/-- Settles O45, by what a step can leave when it completes (`exec_next`) and when it faults (`Raised.left_eq`). -/
theorem invariantKeptByEveryStep : Obligations.InvariantKeptByEveryStep := by
  intro s hs
  refine ⟨fun t h => ?_, fun q left h => (step_fault h).left_inv hs⟩
  obtain ⟨i, _, he⟩ := step_next h
  exact exec_next_inv hs he

/-! ## RESET and INIT (R39) -/

@[simp] theorem readVec_reset (r : BitVec 5) : readVec State.reset r = 0#512 := by
  simp [readVec, State.reset]

@[simp] theorem readOpmask_reset (k : BitVec 3) : readOpmask State.reset k = 0#64 := by
  simp [readOpmask, State.reset]

/-- RDX holds the processor signature after reset (R31). -/
theorem readGpr_reset_rdx : readGpr State.reset 2#4 = Config.processorSignature.setWidth 64 := rfl

theorem readGpr_reset_of_ne {r : BitVec 4} (h : r ≠ 2#4) : readGpr State.reset r = 0#64 := by
  have hne : 2 ≠ r.toNat := fun e => h (BitVec.eq_of_toNat_eq e.symm)
  simp [readGpr, State.reset, resetGpr, hne]

/-- In real-address mode every instruction is #UD (R34, R123). -/
theorem exec_of_realAddress {s : State} (i : Instr) (h : modeOf s = .realAddress) : exec i s = raiseUD s :=
  exec_of_gateOf_eq_some (by rw [gateOf, gate, h])

theorem modeOf_reset : modeOf State.reset = .realAddress := by decide

/-- After INIT, CR0 has the value of RESET but that CD and NW (bits 30 and 29, log 6) are kept. -/
theorem afterInit_cr0_getLsbD (s : State) (n : Nat) :
    s.afterInit.cr0.getLsbD n =
      if n = 29 ∨ n = 30 then s.cr0.getLsbD n else (0x60000010#64).getLsbD n := by
  have hor : s.afterInit.cr0.getLsbD n =
      ((0x10#64).getLsbD n || (s.cr0.getLsbD n && (0x60000000#64).getLsbD n)) := by
    simp only [State.afterInit, BitVec.getLsbD_or, BitVec.getLsbD_and]
  rw [hor]
  by_cases hn : n < 64
  · have hconst : ∀ n : Fin 64, if n.val = 29 ∨ n.val = 30
        then (0x10#64).getLsbD n = false ∧ (0x60000000#64).getLsbD n = true
        else (0x10#64).getLsbD n = (0x60000010#64).getLsbD n ∧ (0x60000000#64).getLsbD n = false := by decide
    have hbit := hconst ⟨n, hn⟩
    split at hbit
    · next h => rw [if_pos h, hbit.1, hbit.2, Bool.false_or, Bool.and_true]
    · next h => rw [if_neg h, hbit.1, hbit.2, Bool.and_false, Bool.or_false]
  · have hge : ∀ w : Word, w.getLsbD n = false := fun w => BitVec.getLsbD_of_ge w n (by omega)
    simp only [hge, Bool.false_or, Bool.and_false, ite_self]

/-- Settles O13: the RESET column, #UD everywhere because reset is in real-address mode, then the INIT column. -/
theorem resetAndInitValues : Obligations.ResetAndInitValues := by
  refine ⟨readVec_reset, readOpmask_reset, rfl, fun r hr => readGpr_reset_of_ne hr, readGpr_reset_rdx, rfl, rfl, rfl,
    rfl, rfl, rfl, rfl, rfl, rfl, fun i => exec_of_realAddress i modeOf_reset, fun s => ?_⟩
  exact ⟨fun _ => rfl, fun _ => rfl, rfl, fun _ => rfl, rfl, rfl, rfl, afterInit_cr0_getLsbD s, rfl, rfl, rfl, rfl, rfl,
    fun _ => rfl⟩

/-- Settles O46: reset has empty memory, MXCSR 1F80h and every vector register 0. -/
theorem resetMeetsInvariant : Obligations.ResetMeetsInvariant :=
  ⟨rfl, by decide, fun _ => ⟨fun r _ => readVec_reset r, fun r j _ _ => by rw [readVec_reset, lane_zero]⟩⟩

/-- The state after reset brought to the launch premise, on a processor without AVX512F. -/
def launchedWithoutAvx512 : State :=
  { State.reset.launch with cpu := { Cpu.default with hasAVX512F := false, hasAVX512VL := false } }

/-- The storage part of the invariant is not vacuous: a VEX row completes on a processor without AVX512F, from a state
that meets the invariant, and the result meets it too. -/
theorem witness_vecStorageOk_complete : launchedWithoutAvx512.cpu.hasAVX512F = false ∧ ∃ t : State,
    exec (.vfnmadd132pdYmmVex [] 1#4 2#4 (.reg 3#4)) launchedWithoutAvx512 = .next t ∧
      t.cpu.hasAVX512F = false ∧ t.inv := by
  have hinv : launchedWithoutAvx512.inv :=
    ⟨rfl, by decide, fun _ => ⟨fun r _ => readVec_reset r, fun r j _ _ =>
      (congrArg (lane · j) (readVec_reset r)).trans (lane_zero j)⟩⟩
  obtain ⟨o, _, he⟩ := exec_of_enabled (s := launchedWithoutAvx512)
    (i := .vfnmadd132pdYmmVex [] 1#4 2#4 (.reg 3#4)) (by decide) (fun m hm => by cases hm)
  have hmasked : ∀ f : FpFlags, unmasked launchedWithoutAvx512.mxcsr f = false := by
    rintro ⟨a, b, c, d, e⟩
    revert a b c d e
    decide
  rcases execPacked_cases o launchedWithoutAvx512 with ⟨_, hx⟩ | ⟨_, _, hx⟩ | ⟨_, ⟨f, _, hf⟩, _⟩
  · exact ⟨rfl, _, he.trans hx, rfl, exec_next_inv hinv (he.trans hx)⟩
  · exact ⟨rfl, _, he.trans hx, rfl, exec_next_inv hinv (he.trans hx)⟩
  · rw [hmasked f] at hf
    cases hf

end Sys2Proof.Machine

/-! Proofs about the fetch: the encoder's bytes decode back, the decoder looks no further than the instruction, and what
the step makes of an instruction's bytes at RIP, whole or cut short (20_memory.md R67; 30_encoding.md R109, R112). -/

namespace Sys2Proof

/-! ## Each shape's encoding -/

theorem encode_vex (k : Kind) (l : VexLength) (p : List LegacyPrefix) (dst src2 : BitVec 4) (op3 : VexOp3) :
    encode (Instr.vex k l p dst src2 op3) = encodeVex k l p dst src2 op3 := by
  cases l <;> cases k <;> rfl

theorem encode_evex (k : Kind) (l : EvexLength) (p : List LegacyPrefix) (mask : Masking) (dst src2 : BitVec 5)
    (op3 : EvexOp3) : encode (Instr.evex k l p mask dst src2 op3) = encodeEvex k l p mask dst src2 op3 := by
  cases l <;> cases k <;> rfl

theorem encode_evexRounded (k : Kind) (p : List LegacyPrefix) (mask : Masking) (dst src2 r : BitVec 5)
    (rc : Rounding) : encode (Instr.evexRounded k p mask dst src2 r rc) = encodeRounded k p mask dst src2 r rc := by
  cases k <;> rfl

theorem op3Wf_vex (k : Kind) (l : VexLength) (p : List LegacyPrefix) (dst src2 : BitVec 4) (op3 : VexOp3) :
    (Instr.vex k l p dst src2 op3).op3Wf = op3.wf := by
  cases l <;> cases k <;> rfl

theorem op3Wf_evex (k : Kind) (l : EvexLength) (p : List LegacyPrefix) (mask : Masking) (dst src2 : BitVec 5)
    (op3 : EvexOp3) : (Instr.evex k l p mask dst src2 op3).op3Wf = op3.wf := by
  cases l <;> cases k <;> rfl

/-- The encoding of an instruction is `ilen` bytes long (R109). -/
theorem length_encode (i : Instr) : (encode i).length = i.length := by
  rcases Machine.instr_shape i with ⟨k, l, p, dst, src2, op3, rfl⟩ | ⟨k, l, p, mask, dst, src2, op3, rfl⟩ |
    ⟨k, p, mask, dst, src2, r, rc, rfl⟩
  · rw [encode_vex, length_encodeVex, Machine.length_vex]
  · rw [encode_evex, length_encodeEvex, Machine.length_evex]
  · rw [encode_evexRounded, Machine.length_evexRounded, ← length_encodeEvex512 k p mask dst src2, encodeEvex512]

/-! ## Decoding undoes encoding -/

/-- With the byte after the legacy prefixes known, the rest of the decoding is that of its half of R112. -/
theorem decodeWindow_vexPrefix (p : List LegacyPrefix) (bs : List Byte) :
    decodeWindow (p.map LegacyPrefix.byte ++ 0xC4#8 :: bs) = decodeVex (p.map .legacy) bs := by
  rw [decodeWindow, splitPrefixes_append p bs (by decide)]
  simp

theorem decodeWindow_evexPrefix (p : List LegacyPrefix) (bs : List Byte) :
    decodeWindow (p.map LegacyPrefix.byte ++ 0x62#8 :: bs) = decodeEvex (p.map .legacy) bs := by
  rw [decodeWindow, splitPrefixes_append p bs (by decide)]
  simp

theorem decodeWindow_encodeVex {k : Kind} {l : VexLength} {p : List LegacyPrefix} {dst src2 : BitVec 4} {op3 : VexOp3}
    (rest : List Byte) (h : op3.wf = true) :
    decodeWindow (encodeVex k l p dst src2 op3 ++ rest) = .instr (Instr.vex k l p dst src2 op3) rest := by
  simp only [encodeVex, List.append_assoc, List.cons_append, decodeWindow_vexPrefix]
  cases op3 with
  | reg r => cases l <;> simp [decodeVex, VexOp3.bytes, VexOp3.bBit, takeModRM_reg]
  | mem m => cases l <;> simp [decodeVex, VexOp3.bytes, VexOp3.xBit, VexOp3.bBit, takeModRM_mem _ rest h]

theorem decodeWindow_encodeEvex {k : Kind} {l : EvexLength} {p : List LegacyPrefix} {mask : Masking}
    {dst src2 : BitVec 5} {op3 : EvexOp3} (rest : List Byte) (h : op3.wf = true) :
    decodeWindow (encodeEvex k l p mask dst src2 op3 ++ rest) =
      .instr (Instr.evex k l p mask dst src2 op3) rest := by
  simp only [encodeEvex, List.append_assoc, List.cons_append, decodeWindow_evexPrefix]
  cases op3 with
  | reg r =>
    simp [decodeEvex, evexInstr, src2_of_fields, EvexOp3.bytes, EvexOp3.xBit, EvexOp3.bBit, EvexOp3.bcBit,
      takeModRM_reg]
  | mem m =>
    simp [decodeEvex, evexInstr, src2_of_fields, EvexOp3.bytes, EvexOp3.xBit, EvexOp3.bBit, EvexOp3.bcBit,
      takeModRM_mem _ rest h]
  | broadcast m =>
    simp [decodeEvex, evexInstr, src2_of_fields, EvexOp3.bytes, EvexOp3.xBit, EvexOp3.bBit, EvexOp3.bcBit,
      takeModRM_mem _ rest h]

theorem decodeWindow_encodeRounded (k : Kind) (p : List LegacyPrefix) (mask : Masking) (dst src2 r : BitVec 5)
    (rc : Rounding) (rest : List Byte) :
    decodeWindow (encodeRounded k p mask dst src2 r rc ++ rest) =
      .instr (Instr.evexRounded k p mask dst src2 r rc) rest := by
  simp only [encodeRounded, List.append_assoc, List.cons_append, List.nil_append, decodeWindow_evexPrefix]
  simp [decodeEvex, takeModRM_reg, evexInstr, src2_of_fields]

/-- The window that starts with a well-formed instruction's bytes decodes to it, whatever follows (R112). -/
theorem decodeWindow_encode {i : Instr} (rest : List Byte) (h : i.op3Wf = true) :
    decodeWindow (encode i ++ rest) = .instr i rest := by
  rcases Machine.instr_shape i with ⟨k, l, p, dst, src2, op3, rfl⟩ | ⟨k, l, p, mask, dst, src2, op3, rfl⟩ |
    ⟨k, p, mask, dst, src2, r, rc, rfl⟩
  · rw [encode_vex]
    exact decodeWindow_encodeVex rest ((op3Wf_vex ..).symm.trans h)
  · rw [encode_evex]
    exact decodeWindow_encodeEvex rest ((op3Wf_evex ..).symm.trans h)
  · rw [encode_evexRounded]
    exact decodeWindow_encodeRounded k p mask dst src2 r rc rest

theorem instr_wf_iff (i : Instr) : i.wf = true ↔ i.op3Wf = true ∧ i.length ≤ maxInstrLength := by
  simp [Instr.wf]

/-- Decoding undoes encoding for every well-formed instruction, whatever follows its bytes (R109, R110, R112). -/
theorem decode_encode {i : Instr} (rest : List Byte) (h : i.wf = true) : decode (encode i ++ rest) = .instr i rest := by
  obtain ⟨hop, hlen⟩ := (instr_wf_iff i).1 h
  have hle : (encode i).length ≤ maxInstrLength := by rwa [length_encode]
  rw [decode, List.take_append, List.take_of_length_le hle, decodeWindow_encode _ hop]
  dsimp only
  rw [List.drop_append, List.drop_of_length_le hle, List.nil_append, List.take_append_drop]

/-! ## The decoder looks no further than the instruction -/

/-- A decoding result with bytes added after those it left over. -/
def DecodeResult.followedBy (r : DecodeResult) (tail : List Byte) : DecodeResult :=
  match r with
  | .instr i rest => .instr i (rest ++ tail)
  | r => r

/-- `after` is what `before` becomes when `tail` follows the bytes, where `before` did not run out of bytes. -/
def DecodeResult.Settles (tail : List Byte) (before after : DecodeResult) : Prop :=
  before = .truncated ∨ after = before.followedBy tail

theorem DecodeResult.settles_checkPrefixes {tail : List Byte} (items : List PrefixItem) {before after : DecodeResult}
    (h : after = before.followedBy tail) :
    DecodeResult.Settles tail (checkPrefixes items before) (checkPrefixes items after) := by
  right
  unfold checkPrefixes
  split
  · rfl
  · exact h

theorem takeDisp32_append {bs : List Byte} (tail : List Byte) {d : BitVec 32} {rest : List Byte}
    (h : takeDisp32 bs = some (d, rest)) : takeDisp32 (bs ++ tail) = some (d, rest ++ tail) := by
  unfold takeDisp32 at h
  split at h
  · cases h
    rfl
  · cases h

theorem takeDisp_append {mod : BitVec 2} {bs : List Byte} (tail : List Byte) {d : Disp} {rest : List Byte}
    (h : takeDisp mod bs = some (d, rest)) : takeDisp mod (bs ++ tail) = some (d, rest ++ tail) := by
  unfold takeDisp at h ⊢
  split at h
  · next h0 =>
    cases h
    rw [if_pos h0]
  · next h0 =>
    rw [if_neg h0]
    split at h
    · next h1 =>
      rw [if_pos h1]
      cases bs with
      | nil => cases h
      | cons b bs =>
        cases h
        rfl
    · next h1 =>
      obtain ⟨⟨d', rest'⟩, hd, hr⟩ := Option.map_eq_some_iff.1 h
      cases hr
      rw [if_neg h1, takeDisp32_append tail hd]
      rfl

theorem takeMem_append {x b : Bool} {mod : BitVec 2} {rm : BitVec 3} {bs : List Byte} (tail : List Byte) {m : MemAddr}
    {rest : List Byte} (h : takeMem x b mod rm bs = some (m, rest)) :
    takeMem x b mod rm (bs ++ tail) = some (m, rest ++ tail) := by
  unfold takeMem at h ⊢
  split at h
  · cases bs with
    | nil => cases h
    | cons sib bs =>
      dsimp only [List.cons_append] at h ⊢
      split at h <;> obtain ⟨⟨d, rest'⟩, hd, hr⟩ := Option.map_eq_some_iff.1 h <;> cases hr
      · simp [takeDisp32_append tail hd, *]
      · simp [takeDisp_append tail hd, *]
  · split at h <;> obtain ⟨⟨d, rest'⟩, hd, hr⟩ := Option.map_eq_some_iff.1 h <;> cases hr
    · simp [takeDisp32_append tail hd, *]
    · simp [takeDisp_append tail hd, *]

theorem takeModRM_append {x b : Bool} {bs : List Byte} (tail : List Byte) {reg : BitVec 3} {raw : RawOp3}
    {rest : List Byte} (h : takeModRM x b bs = some (reg, raw, rest)) :
    takeModRM x b (bs ++ tail) = some (reg, raw, rest ++ tail) := by
  cases bs with
  | nil => cases h
  | cons modrm bs =>
    simp only [takeModRM, List.cons_append] at h ⊢
    split at h
    · cases h
      simp [*]
    · obtain ⟨⟨m, rest'⟩, hm, hr⟩ := Option.map_eq_some_iff.1 h
      cases hr
      simp [takeMem_append tail hm, *]

theorem followedBy_evexInstr (items : List PrefixItem) (k : Kind) (mask : Masking) (dst src2 : BitVec 5) (x b bc : Bool)
    (ll : BitVec 2) (raw : RawOp3) (rest tail : List Byte) :
    (evexInstr items k mask dst src2 x b bc ll raw rest).followedBy tail =
      evexInstr items k mask dst src2 x b bc ll raw (rest ++ tail) := by
  unfold evexInstr
  split
  · rfl
  · split <;> rfl
  · split <;> rfl

theorem decodeVex_append (items : List PrefixItem) (bs tail : List Byte) :
    DecodeResult.Settles tail (decodeVex items bs) (decodeVex items (bs ++ tail)) := by
  match bs with
  | b1 :: b2 :: op :: bs =>
    simp only [decodeVex, List.cons_append]
    split
    · exact .inr rfl
    split
    · exact .inr rfl
    split
    · exact .inr rfl
    split
    · exact .inr rfl
    cases hm : takeModRM (!b1.getLsbD 6) (!b1.getLsbD 5) bs with
    | none => exact .inl rfl
    | some m =>
      obtain ⟨reg, raw, rest⟩ := m
      rw [takeModRM_append tail hm]
      exact DecodeResult.settles_checkPrefixes items rfl
  | [] => exact .inl rfl
  | [_] => exact .inl rfl
  | [_, _] => exact .inl rfl

theorem decodeEvex_append (items : List PrefixItem) (bs tail : List Byte) :
    DecodeResult.Settles tail (decodeEvex items bs) (decodeEvex items (bs ++ tail)) := by
  match bs with
  | p0 :: p1 :: p2 :: op :: bs =>
    simp only [decodeEvex, List.cons_append]
    split
    · cases hm : takeModRM (!p0.getLsbD 6) (!p0.getLsbD 5) bs with
      | none => exact .inl rfl
      | some m =>
        rw [takeModRM_append tail hm]
        exact .inr rfl
    split
    · exact .inr rfl
    split
    · exact .inr rfl
    split
    · exact .inr rfl
    split
    · exact .inr rfl
    cases hm : takeModRM (!p0.getLsbD 6) (!p0.getLsbD 5) bs with
    | none => exact .inl rfl
    | some m =>
      obtain ⟨reg, raw, rest⟩ := m
      rw [takeModRM_append tail hm]
      dsimp only
      split
      · exact DecodeResult.settles_checkPrefixes items rfl
      · exact DecodeResult.settles_checkPrefixes items (followedBy_evexInstr ..).symm
  | [] => exact .inl rfl
  | [_] => exact .inl rfl
  | [_, _] => exact .inl rfl
  | [_, _, _] => exact .inl rfl

theorem splitPrefixes_append_of_ne_nil {bs : List Byte} (tail : List Byte) (h : (splitPrefixes bs).2 ≠ []) :
    splitPrefixes (bs ++ tail) = ((splitPrefixes bs).1, (splitPrefixes bs).2 ++ tail) := by
  induction bs with
  | nil => exact absurd rfl h
  | cons b bs ih =>
    cases hb : prefixItem b with
    | none => simp [splitPrefixes, hb]
    | some item =>
      have hne : (splitPrefixes bs).2 ≠ [] := by simpa [splitPrefixes, hb] using h
      simp [splitPrefixes, hb, ih hne]

/-- A window that is not cut short decodes alike whatever follows it: the decoder looks no further than the
instruction (R109, R112). -/
theorem decodeWindow_append (bs tail : List Byte) :
    DecodeResult.Settles tail (decodeWindow bs) (decodeWindow (bs ++ tail)) := by
  unfold decodeWindow
  cases hs : (splitPrefixes bs).2 with
  | nil => exact .inl rfl
  | cons b rest =>
    have hne : (splitPrefixes bs).2 ≠ [] := by simp [hs]
    rw [splitPrefixes_append_of_ne_nil tail hne, hs]
    dsimp only [List.cons_append]
    split
    · exact decodeVex_append ..
    split
    · exact decodeEvex_append ..
    exact .inr rfl

/-- The first bytes of an instruction, fewer than its length, decode as cut short: whatever else they gave would stay
when the rest of the instruction follows. -/
theorem decode_take_encode {i : Instr} {n : Nat} (h : i.wf = true) (hn : n < i.length) :
    decode ((encode i).take n) = .truncated := by
  obtain ⟨hop, hlen⟩ := (instr_wf_iff i).1 h
  have hlt : ((encode i).take n).length < maxInstrLength := by
    rw [List.length_take, length_encode]
    omega
  have hwhole : decodeWindow ((encode i).take n ++ (encode i).drop n) = .instr i [] := by
    rw [List.take_append_drop, ← decodeWindow_encode [] hop, List.append_nil]
  have htr : decodeWindow ((encode i).take n) = .truncated := by
    rcases decodeWindow_append ((encode i).take n) ((encode i).drop n) with ht | hs
    · exact ht
    · rw [hwhole] at hs
      cases hd : decodeWindow ((encode i).take n) with
      | instr j rest =>
        rw [hd] at hs
        injection hs with _ hnil
        have hdrop : (encode i).drop n = [] := (List.append_eq_nil_iff.1 hnil.symm).2
        rw [List.drop_eq_nil_iff, length_encode] at hdrop
        omega
      | truncated => rfl
      | _ =>
        rw [hd] at hs
        cases hs
  rw [decode, List.take_of_length_le hlt.le, htr]
  exact if_neg (by omega)

end Sys2Proof

namespace Sys2Proof.Machine

/-! ## The bytes that the fetch reads (R67) -/

theorem fetchAddress_of_long64 {s : State} (h : in64BitMode s = true) (j : Nat) :
    fetchAddress s j = s.rip + BitVec.ofNat 64 j := by
  rw [fetchAddress, if_pos ((modeOf_eq_long64 s).2 h)]

theorem fetchable_iff (s : State) (a : Word) :
    fetchable s a = true ↔ canonical s.cpu.linearWidth a = true ∧ executable s a = true := by
  simp [fetchable]

/-- The addresses of the fetch, those of the first `n` bytes apart. -/
theorem fetchAddresses_eq_append (s : State) {n : Nat} (hn : n ≤ maxInstrLength) :
    fetchAddresses s = (List.range n).map (fetchAddress s) ++
      (List.range (maxInstrLength - n)).map fun j => fetchAddress s (n + j) := by
  conv_lhs => rw [fetchAddresses, ← Nat.add_sub_cancel' hn, List.range_add, List.map_append, List.map_map]
  rfl

/-- The first `n` bytes at RIP can be fetched and are the first `n` bytes of `bs`. -/
def FetchesPrefix (s : State) (bs : List Byte) (n : Nat) : Prop :=
  ∀ j, j < n → fetchable s (fetchAddress s j) = true ∧ some (readByte s (fetchAddress s j)) = bs[j]?

theorem fetchesPrefix_iff {s : State} {bs : List Byte} {n : Nat} (h : in64BitMode s = true) :
    FetchesPrefix s bs n ↔ ∀ j, j < n →
      canonical s.cpu.linearWidth (s.rip + BitVec.ofNat 64 j) = true ∧
      executable s (s.rip + BitVec.ofNat 64 j) = true ∧
      some (readByte s (s.rip + BitVec.ofNat 64 j)) = bs[j]? := by
  simp only [FetchesPrefix, fetchAddress_of_long64 h, fetchable_iff, and_assoc]

/-- The window begins with the bytes that can be fetched. -/
theorem fetchWindow_eq_append {s : State} {bs : List Byte} {n : Nat} (h : FetchesPrefix s bs n)
    (hn : n ≤ maxInstrLength) :
    fetchWindow s = bs.take n ++
      (((List.range (maxInstrLength - n)).map fun j => fetchAddress s (n + j)).takeWhile (fetchable s)).map
        (readByte s) := by
  have hall : ∀ a ∈ (List.range n).map (fetchAddress s), fetchable s a = true := by
    intro a ha
    obtain ⟨j, hj, rfl⟩ := List.mem_map.1 ha
    exact (h j (List.mem_range.1 hj)).1
  have hbytes : ((List.range n).map (fetchAddress s)).map (readByte s) = bs.take n := by
    refine List.ext_getElem? fun j => ?_
    by_cases hj : j < n
    · simp [hj, (h j hj).2]
    · simp [hj]
  rw [fetchWindow, fetchAddresses_eq_append s hn, List.takeWhile_append_of_pos hall, List.map_append, hbytes]

/-- The window ends before the first byte that cannot be fetched. -/
theorem fetchWindow_eq_take {s : State} {bs : List Byte} {n : Nat} (h : FetchesPrefix s bs n)
    (hn : n < maxInstrLength) (hstop : fetchable s (fetchAddress s n) = false) : fetchWindow s = bs.take n := by
  obtain ⟨k, hk⟩ : ∃ k, maxInstrLength - n = k + 1 := ⟨maxInstrLength - n - 1, by omega⟩
  rw [fetchWindow_eq_append h hn.le, hk, List.range_succ_eq_map]
  simp [hstop]

theorem ne_otherProtected {s : State} (h : in64BitMode s = true) : modeOf s ≠ .otherProtected := by
  simp [(modeOf_eq_long64 s).2 h]

theorem decodeIn_of_long64 {s : State} (h : in64BitMode s = true) (bs : List Byte) : decodeIn s bs = decode bs :=
  if_neg fun hc => hc.1 ((modeOf_eq_long64 s).2 h)

/-- A window that decodes to an instruction runs it. -/
theorem step_of_decode_instr {s : State} {i : Instr} {rest : List Byte} (h : in64BitMode s = true)
    (hd : decode (fetchWindow s) = .instr i rest) : step s = exec i s := by
  rw [step, fetch, if_neg (ne_otherProtected h), decodeIn_of_long64 h, hd]

/-- A window that ends before the instruction does gives the fault of the first byte after it. -/
theorem step_of_decode_truncated {s : State} (h : in64BitMode s = true) (hd : decode (fetchWindow s) = .truncated) :
    step s = fetchFault s (s.rip + BitVec.ofNat 64 (fetchWindow s).length) := by
  rw [step, fetch, if_neg (ne_otherProtected h), decodeIn_of_long64 h, hd, ← fetchAddress_of_long64 h]

/-- Settles O11: the window begins with the encoding, and decoding undoes encoding whatever follows. -/
theorem encodedInstructionRuns : Obligations.EncodedInstructionRuns := by
  intro s i hm hw hbytes
  have hpre : FetchesPrefix s (encode i) i.length := (fetchesPrefix_iff hm).2 hbytes
  have hwin := fetchWindow_eq_append hpre ((instr_wf_iff i).1 hw).2
  rw [List.take_of_length_le (length_encode i).le] at hwin
  exact step_of_decode_instr hm (hwin ▸ decode_encode _ hw)

/-- Settles O12: the window is the fetched first part of the encoding, which decodes as cut short. -/
theorem fetchFaultAtFirstUnreadableByte : Obligations.FetchFaultAtFirstUnreadableByte := by
  intro s i n hm hw hn hbytes
  have hpre : FetchesPrefix s (encode i) n := (fetchesPrefix_iff hm).2 hbytes
  have hfault : fetchable s (s.rip + BitVec.ofNat 64 n) = false →
      step s = fetchFault s (s.rip + BitVec.ofNat 64 n) := by
    intro hstop
    rw [← fetchAddress_of_long64 hm] at hstop
    have hwin : fetchWindow s = (encode i).take n :=
      fetchWindow_eq_take hpre (Nat.lt_of_lt_of_le hn ((instr_wf_iff i).1 hw).2) hstop
    have hlen : (fetchWindow s).length = n := by
      rw [hwin, List.length_take, length_encode]
      omega
    rw [step_of_decode_truncated hm (hwin ▸ decode_take_encode hw hn), hlen]
  refine ⟨fun hc => ?_, fun hc he => ?_⟩
  · rw [hfault (by simp [fetchable, hc]), fetchFault, hc]
    rfl
  · rw [hfault (by simp [fetchable, he]), fetchFault, if_pos hc]

end Sys2Proof.Machine

/-! Proofs about memory operands: their bytes as a number, effective and linear addresses, and the faults of an operand
that is not canonical or not accessible (20_memory.md R51-R64). -/

namespace Sys2Proof.Machine

/-! ## Little-endian values (R51) -/

/-- The value of a concatenation: the low part, and the high part above it. -/
theorem toNat_append_eq_add {m n : Nat} (hi : BitVec m) (lo : BitVec n) :
    (hi ++ lo).toNat = lo.toNat + hi.toNat * 2 ^ n := by
  rw [BitVec.toNat_append, ← Nat.shiftLeft_add_eq_or_of_lt lo.isLt, Nat.shiftLeft_eq, Nat.add_comm]

/-- A word written below a value shifted up by its width. -/
theorem toNat_shiftLeft_or {v w n : Nat} {x : BitVec v} (lo : BitVec w) (hx : x.toNat < 2 ^ n) (hn : n + w ≤ v) :
    (x <<< w ||| lo.setWidth v).toNat = lo.toNat + 2 ^ w * x.toNat := by
  have hlt : x.toNat * 2 ^ w < 2 ^ v :=
    calc x.toNat * 2 ^ w < 2 ^ n * 2 ^ w := Nat.mul_lt_mul_of_pos_right hx (Nat.two_pow_pos w)
      _ = 2 ^ (n + w) := (pow_add 2 n w).symm
      _ ≤ 2 ^ v := Nat.pow_le_pow_right Nat.two_pos hn
  rw [BitVec.toNat_or, BitVec.toNat_shiftLeft, BitVec.toNat_setWidth_of_le (by omega), Nat.shiftLeft_eq,
    Nat.mod_eq_of_lt hlt, ← Nat.shiftLeft_eq, ← Nat.shiftLeft_add_eq_or_of_lt lo.isLt, Nat.shiftLeft_eq, Nat.mul_comm, Nat.add_comm]

/-- The value of the `n` bytes from `a`, the least significant first: what R51 says `MemRead(a, n)` returns. -/
def littleEndian (s : State) (a : Word) (n : Nat) : Nat :=
  ((List.range n).map fun t => (readByte s (a + BitVec.ofNat 64 t)).toNat * 2 ^ (8 * t)).sum

@[simp] theorem littleEndian_zero (s : State) (a : Word) : littleEndian s a 0 = 0 := rfl

theorem littleEndian_succ (s : State) (a : Word) (n : Nat) :
    littleEndian s a (n + 1) = littleEndian s a n + (readByte s (a + BitVec.ofNat 64 n)).toNat * 2 ^ (8 * n) := by
  simp [littleEndian, List.range_succ]

/-- The bytes after the first `m` count `2 ^ (8 * m)` times what they count from their own start. -/
theorem littleEndian_add (s : State) (a : Word) (m n : Nat) :
    littleEndian s a (m + n) = littleEndian s a m + 2 ^ (8 * m) * littleEndian s (a + BitVec.ofNat 64 m) n := by
  induction n with
  | zero => simp
  | succ n ih =>
    rw [← Nat.add_assoc, littleEndian_succ, littleEndian_succ, ih, BitVec.add_assoc, ← BitVec.ofNat_add, Nat.mul_add 8,
      pow_add]
    ring

/-- A word read is the little-endian value of its eight bytes. -/
theorem toNat_readWord (s : State) (a : Word) : (readWord s a).toNat = littleEndian s a 8 := by
  simp only [readWord, toNat_append_eq_add]
  simp only [littleEndian_succ s a 7, littleEndian_succ s a 6, littleEndian_succ s a 5, littleEndian_succ s a 4,
    littleEndian_succ s a 3, littleEndian_succ s a 2, littleEndian_succ s a 1, littleEndian_succ s a 0]
  simp

/-- The vector packed from at most eight lanes is the little-endian value of the lanes. -/
theorem toNat_packLanes {ws : List Word} (h : ws.length ≤ 8) :
    (packLanes ws).toNat = Nat.ofDigits (2 ^ 64) (ws.map BitVec.toNat) := by
  induction ws with
  | nil => rw [packLanes, BitVec.toNat_zero, List.map_nil, Nat.ofDigits_nil]
  | cons w ws ih =>
    rw [List.length_cons] at h
    have hrest := ih (by omega)
    have hdigits := Nat.ofDigits_lt_base_pow_length (b := 2 ^ 64) (l := ws.map BitVec.toNat) (by norm_num)
      (by simp only [List.mem_map]; rintro _ ⟨v, _, rfl⟩; exact v.isLt)
    rw [List.length_map, ← pow_mul, ← hrest] at hdigits
    rw [packLanes, toNat_shiftLeft_or w hdigits (by omega), hrest, List.map_cons, Nat.ofDigits_cons]

/-- The lanes of a full-vector operand together are the little-endian value of all its bytes. -/
theorem toNat_packLanes_vectorElement (s : State) (a : Word) {n : Nat} (h : n ≤ 8) :
    (packLanes ((List.range n).map (vectorElement s a))).toNat = littleEndian s a (8 * n) := by
  rw [toNat_packLanes (by simpa using h)]
  clear h
  induction n with
  | zero => rfl
  | succ n ih =>
    rw [List.range_succ, List.map_append, List.map_append, Nat.ofDigits_append, ih, Nat.mul_succ, littleEndian_add,
      ← toNat_readWord, ← pow_mul]
    simp [vectorElement, ← Nat.mul_assoc]

/-- Settles O18: a lane is the little-endian value of its eight bytes, and the vector that of its lanes. -/
theorem memoryOperandIsLittleEndian : Obligations.MemoryOperandIsLittleEndian := by
  intro s a n hn
  refine ⟨toNat_packLanes_vectorElement s a hn, fun j _ => ?_⟩
  rw [vectorElement, toNat_readWord]
  simp only [littleEndian, BitVec.ofNat_add, BitVec.add_assoc]

/-! ## Segments (R57) -/

/-- Without 64h and 65h nothing overrides the segment. -/
theorem segmentOverride_eq_none {p : List LegacyPrefix} :
    segmentOverride p = none ↔ .fs ∉ p ∧ .gs ∉ p := by
  induction p with
  | nil => simp [segmentOverride]
  | cons q p ih =>
    rw [segmentOverride]
    cases hp : segmentOverride p with
    | some seg =>
      have hmem : ¬(LegacyPrefix.fs ∉ p ∧ LegacyPrefix.gs ∉ p) := fun hn => by simp [ih.2 hn] at hp
      simp only [reduceCtorEq, List.mem_cons, not_or, false_iff]
      exact fun ⟨⟨_, hfs⟩, _, hgs⟩ => hmem ⟨hfs, hgs⟩
    | none =>
      obtain ⟨hfs, hgs⟩ := ih.1 hp
      cases q <;> simp [hfs, hgs]

/-- An override is FS or GS. -/
theorem segmentOverride_eq_some {p : List LegacyPrefix} {seg : Segment} (h : segmentOverride p = some seg) :
    seg = .fs ∨ seg = .gs := by
  induction p with
  | nil => cases h
  | cons q p ih =>
    rw [segmentOverride] at h
    cases hp : segmentOverride p with
    | some seg' =>
      rw [hp] at h
      exact ih (hp.trans h)
    | none =>
      rw [hp] at h
      cases q <;> simp at h
      · exact .inl h.symm
      · exact .inr h.symm

/-- Prefixes before an override change nothing. -/
theorem segmentOverride_append {p q : List LegacyPrefix} {seg : Segment} (h : segmentOverride q = some seg) :
    segmentOverride (p ++ q) = some seg := by
  induction p with
  | nil => exact h
  | cons r p ih => rw [List.cons_append, segmentOverride, ih]

theorem stackBase_iff (m : MemAddr) :
    stackBase m = true ↔ ∃ d i, m = .base 4#4 d ∨ m = .base 5#4 d ∨ m = .sib 4#4 i d ∨ m = .sib 5#4 i d := by
  cases m with
  | base r d => simp [stackBase, exists_or]
  | sib b i d => simp [stackBase, exists_or]
  | sibNoBase i d => simp [stackBase]
  | ripRelative d => simp [stackBase]

/-- The segment is SS exactly for a base RSP or RBP without 64h and 65h. -/
theorem segmentOf_eq_ss (p : List LegacyPrefix) (m : MemAddr) :
    segmentOf p m = .ss ↔ (.fs ∉ p ∧ .gs ∉ p) ∧ stackBase m = true := by
  rw [← segmentOverride_eq_none, segmentOf]
  cases hp : segmentOverride p with
  | some seg => rcases segmentOverride_eq_some hp with rfl | rfl <;> simp
  | none => cases stackBase m <;> simp

theorem segmentOf_of_override {p : List LegacyPrefix} {seg : Segment} (m : MemAddr)
    (h : segmentOverride p = some seg) : segmentOf p m = seg := by
  rw [segmentOf, h]

/-- Without 64h and 65h the base register decides between SS and DS. -/
theorem segmentOf_of_no_override {p : List LegacyPrefix} (m : MemAddr) (h : segmentOverride p = none) :
    segmentOf p m = if stackBase m then .ss else .ds := by
  rw [segmentOf, h]

/-- Settles O19: the last of 64h and 65h decides the segment, and the segment decides the base. -/
theorem segmentOfAccess : Obligations.SegmentOfAccess := by
  intro s m n ilen p q hfs hgs
  have hq : segmentOverride q = none := segmentOverride_eq_none.2 ⟨hfs, hgs⟩
  have hpfs : segmentOf (p ++ .fs :: q) m = .fs :=
    segmentOf_of_override m (segmentOverride_append (by simp [segmentOverride, hq]))
  have hpgs : segmentOf (p ++ .gs :: q) m = .gs :=
    segmentOf_of_override m (segmentOverride_append (by simp [segmentOverride, hq]))
  have hnull := segmentOf_of_no_override m hq
  refine ⟨hpfs, hpgs, ?_, fun hss => ?_, ?_, ?_, ?_⟩
  · rw [segmentOf_eq_ss, ← stackBase_iff]
    exact and_iff_right ⟨hfs, hgs⟩
  · rw [hnull] at hss ⊢
    cases hb : stackBase m <;> simp [hb] at hss ⊢
  · rw [linearAddress, hpfs, segmentBase]
  · rw [linearAddress, hpgs, segmentBase]
  · rw [linearAddress, hnull]
    cases stackBase m <;> exact BitVec.add_zero _

/-! ## Effective addresses (R55-R58) -/

theorem dispValue_eq_ofInt (n : Nat) (d : Disp) : dispValue n d = BitVec.ofInt 64 (dispInt n d) := by
  cases d with
  | none => rfl
  | disp8 d => rw [dispValue, dispInt, BitVec.ofInt_mul, BitVec.ofInt_natCast, BitVec.signExtend]
  | disp32 d => rfl

theorem indexValue_eq_ofInt (s : State) (x : Option Index) : indexValue s x = BitVec.ofInt 64 (indexNat s x) := by
  rw [BitVec.ofInt_natCast]
  cases x with
  | none => rfl
  | some i =>
    apply BitVec.eq_of_toNat_eq
    rw [indexValue, indexNat, BitVec.toNat_shiftLeft, Nat.shiftLeft_eq, BitVec.toNat_ofNat]

theorem ofInt_toNat (x : Word) : BitVec.ofInt 64 x.toNat = x := by
  rw [BitVec.ofInt_natCast, BitVec.ofNat_toNat, BitVec.setWidth_eq]

theorem effectiveAddress_of_not_mem {p : List LegacyPrefix} (s : State) (n ilen : Nat) (m : MemAddr)
    (h : .addressSize ∉ p) : effectiveAddress s p n ilen m = rawAddress s n ilen m := by
  rw [effectiveAddress, if_neg (by simpa using h)]

/-- Settles O20: each term of the sum is an integer, and the word is their sum modulo 2^64. -/
theorem effectiveAddressTerms : Obligations.EffectiveAddressTerms := by
  intro s p n ilen hp
  simp only [effectiveAddress_of_not_mem s n ilen _ hp, rawAddress, dispValue_eq_ofInt, indexValue_eq_ofInt,
    BitVec.ofInt_add, ofInt_toNat]
  exact ⟨fun _ _ => trivial, fun _ _ _ => trivial, fun _ _ => rfl, fun _ => by
    rw [BitVec.ofInt_natCast, BitVec.signExtend]⟩

theorem effectiveAddress_of_mem {p : List LegacyPrefix} (s : State) (n ilen : Nat) (m : MemAddr)
    (h : .addressSize ∈ p) : effectiveAddress s p n ilen m = ((rawAddress s n ilen m).setWidth 32).setWidth 64 := by
  rw [effectiveAddress, if_pos (by simpa using h)]

/-- The low half of a shifted word is the low half shifted. -/
theorem low_shiftLeft (x : Word) (k : Nat) : (x <<< k).setWidth 32 = x.setWidth 32 <<< k := by
  apply BitVec.eq_of_getLsbD_eq
  intro j hj
  simp only [BitVec.getLsbD_setWidth, BitVec.getLsbD_shiftLeft]
  by_cases hk : j < k
  · simp [hk]
  · simp [hk, hj, show j < 64 by omega, show j - k < 32 by omega]

theorem low_signExtend (d : BitVec 32) : (d.signExtend 64).setWidth 32 = d := by
  apply BitVec.eq_of_getLsbD_eq
  intro j hj
  rw [BitVec.getLsbD_setWidth, BitVec.getLsbD_signExtend, if_pos hj]
  simp [hj, show j < 64 by omega]

/-- Settles O21: taking the low 32 bits goes through the sum and the shift to its terms. -/
theorem addressSizeOverride : Obligations.AddressSizeOverride := by
  intro s p n ilen hp
  have low_add : ∀ x y : Word, (x + y).setWidth 32 = x.setWidth 32 + y.setWidth 32 := fun x y =>
    BitVec.setWidth_add x y (by omega)
  simp only [effectiveAddress_of_mem s n ilen _ hp, rawAddress, indexValue, low_add, low_shiftLeft, low_signExtend]
  simp

/-! ## Canonical addresses (R62) -/

/-- The bits of an arithmetic shift by `k` are the bits from `k` up, and copies of bit 63 above them. -/
theorem sshiftRight_bits_iff {k : Nat} (hk : k < 64) (a : Word) (b : Bool) :
    (∀ j, j < 64 → (a.sshiftRight k).getLsbD j = b) ↔ ∀ n, k ≤ n → n < 64 → a.getLsbD n = b := by
  have hbit : ∀ j, j < 64 → (a.sshiftRight k).getLsbD j = if k + j < 64 then a.getLsbD (k + j) else a.getLsbD 63 := by
    intro j hj
    rw [BitVec.getLsbD_sshiftRight, BitVec.msb_eq_getLsbD_last]
    simp [hj]
  constructor
  · intro h n hkn hn
    have := h (n - k) (by omega)
    rwa [hbit _ (by omega), if_pos (by omega), Nat.add_sub_cancel' hkn] at this
  · intro h j hj
    rw [hbit j hj]
    split
    · exact h _ (by omega) (by omega)
    · exact h 63 (by omega) (by omega)

theorem canonical_iff (w : LinearWidth) (a : Word) :
    canonical w a = true ↔ ∀ n, addrBits w - 1 ≤ n → n < 64 → a.getLsbD n = a.getLsbD 63 := by
  have hk : addrBits w - 1 < 64 := by cases w <;> decide
  have hzero : a.sshiftRight (addrBits w - 1) = 0#64 ↔ ∀ n, addrBits w - 1 ≤ n → n < 64 → a.getLsbD n = false := by
    rw [← sshiftRight_bits_iff hk]
    exact ⟨fun h j _ => by rw [h]; simp, fun h => BitVec.eq_of_getLsbD_eq fun j hj => by rw [h j hj]; simp⟩
  have hones : a.sshiftRight (addrBits w - 1) = BitVec.allOnes 64 ↔
      ∀ n, addrBits w - 1 ≤ n → n < 64 → a.getLsbD n = true := by
    rw [← sshiftRight_bits_iff hk]
    have hbit : ∀ j, j < 64 → (BitVec.allOnes 64).getLsbD j = true := fun j hj => by
      rw [BitVec.getLsbD_allOnes, decide_eq_true hj]
    exact ⟨fun h j hj => h ▸ hbit j hj, fun h => BitVec.eq_of_getLsbD_eq fun j hj => (h j hj).trans (hbit j hj).symm⟩
  rw [canonical, Bool.or_eq_true, beq_iff_eq, beq_iff_eq, hzero, hones]
  constructor
  · rintro (h | h) n hn hlt <;> rw [h n hn hlt, h 63 (by omega) (by omega)]
  · intro h
    cases hb : a.getLsbD 63 with
    | false => exact .inl fun n hn hlt => (h n hn hlt).trans hb
    | true => exact .inr fun n hn hlt => (h n hn hlt).trans hb

/-! ## The elements that an instruction accesses (R61, R193) -/

/-- The size in bytes of the memory operand. -/
def operandSize (q : Parts) : Nat :=
  match q.op3 with
  | .reg _ => 0
  | .mem _ => 8 * q.lanes
  | .broadcast _ => 8

/-- The elements that an instruction accesses, by their addresses. -/
def accessedElements (s : State) (i : Instr) (m : MemAddr) : List Word :=
  match (parts i).op3 with
  | .reg _ => []
  | .mem _ => vectorElements (operandAddress s i m) (parts i).lanes (laneActive s (parts i).mask)
  | .broadcast _ => broadcastElements (operandAddress s i m) (parts i).lanes (laneActive s (parts i).mask)

/-- An enabled instruction ends in the fault of the checks on the elements that it accesses (R62-R64, R243). -/
theorem exec_of_memFault {s : State} {i : Instr} {m : MemAddr} {stop : Result} (he : enabled s i = true)
    (hm : memOperand i = some m)
    (h : memFault s (segmentOf (parts i).p m) (operandAddress s i m) (operandSize (parts i)) (accessedElements s i m) =
      some stop) : exec i s = stop := by
  have hg := gateOf_enabled he
  simp only [operandSize, accessedElements, operandAddress, memOperand] at hm h
  rcases instr_shape i with ⟨k, l, p, dst, src2, op3, rfl⟩ | ⟨k, l, p, mask, dst, src2, op3, rfl⟩ |
    ⟨k, p, mask, dst, src2, r, rc, rfl⟩
  · rw [gateOf_vex] at hg
    simp only [parts_vex, length_vex] at hm h
    rw [exec_vex]
    unfold execVex
    rw [hg]
    cases op3 with
    | reg r => cases hm
    | mem m' =>
      cases hm
      dsimp only
      split
      · next hf => exact Option.some.inj (hf.symm.trans h)
      · next hf => cases hf.symm.trans h
  · rw [gateOf_evex] at hg
    simp only [parts_evex, length_evex] at hm h
    rw [exec_evex]
    unfold execEvex
    rw [hg]
    cases op3 with
    | reg r => cases hm
    | mem m' =>
      cases hm
      dsimp only
      split
      · next hf => exact Option.some.inj (hf.symm.trans h)
      · next hf => cases hf.symm.trans h
    | broadcast m' =>
      cases hm
      dsimp only
      split
      · next hf => exact Option.some.inj (hf.symm.trans h)
      · next hf => cases hf.symm.trans h
  · rw [parts_evexRounded] at hm
    cases hm

theorem lanes_le (i : Instr) : (parts i).lanes ≤ 8 := by
  rcases instr_shape i with ⟨k, l, p, dst, src2, op3, rfl⟩ | ⟨k, l, p, mask, dst, src2, op3, rfl⟩ |
    ⟨k, p, mask, dst, src2, r, rc, rfl⟩
  · rw [parts_vex]
    cases l <;> simp [vexParts, vexLanes]
  · rw [parts_evex]
    cases l <;> simp [evexParts, evexLanes]
  · rw [parts_evexRounded]
    simp [evexParts]

theorem not_accesses_of_reg {s : State} {i : Instr} {r : BitVec 5} (h : (parts i).op3 = .reg r) (t : Nat) :
    ¬accesses s i t := by
  rw [accesses, h]
  exact id

theorem accesses_of_mem {s : State} {i : Instr} {m : MemAddr} (h : (parts i).op3 = .mem m) (t : Nat) :
    accesses s i t ↔ t < 8 * (parts i).lanes ∧ activeLane s i (t / 8) = true := by
  rw [accesses, h]

theorem accesses_of_broadcast {s : State} {i : Instr} {m : MemAddr} (h : (parts i).op3 = .broadcast m) (t : Nat) :
    accesses s i t ↔ t < 8 ∧ ∃ j, j < (parts i).lanes ∧ activeLane s i j = true := by
  rw [accesses, h]

theorem accessedElements_of_reg {s : State} {i : Instr} {r : BitVec 5} (h : (parts i).op3 = .reg r) (m : MemAddr) :
    accessedElements s i m = [] := by
  rw [accessedElements, h]

theorem accessedElements_of_mem {s : State} {i : Instr} {m' : MemAddr} (h : (parts i).op3 = .mem m') (m : MemAddr) :
    accessedElements s i m = vectorElements (operandAddress s i m) (parts i).lanes (activeLane s i) := by
  rw [accessedElements, h]
  rfl

theorem accessedElements_of_broadcast {s : State} {i : Instr} {m' : MemAddr} (h : (parts i).op3 = .broadcast m')
    (m : MemAddr) :
    accessedElements s i m = broadcastElements (operandAddress s i m) (parts i).lanes (activeLane s i) := by
  rw [accessedElements, h]
  rfl

/-- Every accessed byte lies in the first 64 bytes of the operand. -/
theorem lt_of_accesses {s : State} {i : Instr} {t : Nat} (h : accesses s i t) : t < 64 := by
  have hl := lanes_le i
  cases hop : (parts i).op3 with
  | reg r => exact absurd h (not_accesses_of_reg hop t)
  | mem m =>
    obtain ⟨ht, _⟩ := (accesses_of_mem hop t).1 h
    omega
  | broadcast m =>
    obtain ⟨ht, _⟩ := (accesses_of_broadcast hop t).1 h
    omega

/-- With a byte of an element, the whole element is accessed. -/
theorem accesses_of_div_eq {s : State} {i : Instr} {t u : Nat} (h : accesses s i t) (hu : u / 8 = t / 8) :
    accesses s i u := by
  cases hop : (parts i).op3 with
  | reg r => exact absurd h (not_accesses_of_reg hop t)
  | mem m =>
    obtain ⟨ht, hact⟩ := (accesses_of_mem hop t).1 h
    exact (accesses_of_mem hop u).2 ⟨by omega, hu ▸ hact⟩
  | broadcast m =>
    obtain ⟨ht, hact⟩ := (accesses_of_broadcast hop t).1 h
    exact (accesses_of_broadcast hop u).2 ⟨by omega, hact⟩

/-- The bytes of the accessed elements are the bytes that `accesses` names. -/
theorem mem_accessedElements_bytes {s : State} {i : Instr} {m : MemAddr} {a : Word} :
    a ∈ elementBytes (accessedElements s i m) ↔
      ∃ t, accesses s i t ∧ a = operandAddress s i m + BitVec.ofNat 64 t := by
  cases hop : (parts i).op3 with
  | reg r => simp [accessedElements_of_reg hop, not_accesses_of_reg hop, elementBytes]
  | mem m' => simp only [accessedElements_of_mem hop, accesses_of_mem hop, mem_vectorElements_bytes, and_assoc]
  | broadcast m' =>
    simp only [accessedElements_of_broadcast hop, accesses_of_broadcast hop, mem_broadcastElements_bytes, and_assoc]

/-- An accessed element begins at the multiple of 8 below any of its bytes. -/
theorem mem_accessedElements {s : State} {i : Instr} {m : MemAddr} {e : Word} :
    e ∈ accessedElements s i m ↔
      ∃ t, accesses s i t ∧ e = operandAddress s i m + BitVec.ofNat 64 (8 * (t / 8)) := by
  cases hop : (parts i).op3 with
  | reg r => simp [accessedElements_of_reg hop, not_accesses_of_reg hop]
  | mem m' =>
    simp only [accessedElements_of_mem hop, accesses_of_mem hop, vectorElements, List.mem_map, List.mem_filter,
      List.mem_range]
    constructor
    · rintro ⟨j, ⟨hj, hact⟩, rfl⟩
      have hdiv : 8 * j / 8 = j := by omega
      exact ⟨8 * j, ⟨by omega, by rwa [hdiv]⟩, by rw [hdiv]⟩
    · rintro ⟨t, ⟨ht, hact⟩, rfl⟩
      exact ⟨t / 8, ⟨by omega, hact⟩, rfl⟩
  | broadcast m' =>
    have hany : (List.range (parts i).lanes).any (activeLane s i) = true ↔
        ∃ j, j < (parts i).lanes ∧ activeLane s i j = true := by simp
    simp only [accessedElements_of_broadcast hop, accesses_of_broadcast hop, broadcastElements, ← hany]
    split
    · next h =>
      rw [List.mem_singleton]
      constructor
      · rintro rfl
        exact ⟨0, ⟨by omega, h⟩, (BitVec.add_zero _).symm⟩
      · rintro ⟨t, ⟨ht, _⟩, rfl⟩
        rw [Nat.div_eq_of_lt ht]
        exact BitVec.add_zero _
    · next h =>
      simp only [List.not_mem_nil, false_iff]
      rintro ⟨t, ⟨_, hact⟩, _⟩
      exact h hact

/-! ## The faults of a memory operand (R62-R64) -/

/-- A non-canonical byte gives #SS(0) or #GP(0), by the segment. -/
theorem memFault_of_not_canonical {s : State} (seg : Segment) (la : Word) (size : Nat) {elements : List Word} {a : Word}
    (ha : a ∈ elementBytes elements) (hc : canonical s.cpu.linearWidth a = false) :
    memFault s seg la size elements = some (if seg = .ss then raiseSS s else raiseGP s) := by
  have hany : (elementBytes elements).any (fun a => !canonical s.cpu.linearWidth a) = true :=
    List.any_eq_true.2 ⟨a, ha, by rw [hc]; rfl⟩
  rw [memFault, if_pos hany]

/-- With every byte canonical, an inaccessible one gives #PF. -/
theorem memFault_of_pageFaultAddress {s : State} (seg : Segment) (la : Word) (size : Nat) {elements : List Word}
    {a : Word} (hc : ∀ b ∈ elementBytes elements, canonical s.cpu.linearWidth b = true)
    (ha : pageFaultAddress s elements = some a) : memFault s seg la size elements = some (raisePF s a) := by
  have hany : ¬(elementBytes elements).any (fun a => !canonical s.cpu.linearWidth a) = true := by
    rw [List.any_eq_true]
    rintro ⟨b, hb, hn⟩
    simp [hc b hb] at hn
  rw [memFault, if_neg hany, ha]

/-- Settles O22: an accessed byte that is not canonical is met first by the memory checks, and its fault depends on
whether the segment is SS. -/
theorem nonCanonicalOperandFaults : Obligations.NonCanonicalOperandFaults := by
  refine ⟨fun a => ⟨canonical_iff .bits48 a, canonical_iff .bits57 a⟩, fun s i m t he hm ht hc => ?_⟩
  have hexec : exec i s = if segmentOf (parts i).p m = .ss then raiseSS s else raiseGP s :=
    exec_of_memFault he hm
      (memFault_of_not_canonical _ _ _ (mem_accessedElements_bytes.2 ⟨t, ht, rfl⟩) hc)
  rw [← stackBase_iff, hexec]
  constructor
  · intro hbase hfs hgs
    rw [if_pos ((segmentOf_eq_ss _ m).2 ⟨⟨hfs, hgs⟩, hbase⟩)]
  · intro hnot
    rw [if_neg]
    rw [segmentOf_eq_ss]
    rintro ⟨⟨hfs, hgs⟩, hbase⟩
    rcases hnot with h | h | h
    · exact h hbase
    · exact hfs h
    · exact hgs h

/-- Two elements of one operand at the same address are the same element. -/
theorem element_eq_of_address_eq {la : Word} {t u : Nat} (ht : t < 64) (hu : u < 64)
    (h : la + BitVec.ofNat 64 (8 * (t / 8)) = la + BitVec.ofNat 64 (8 * (u / 8))) : t / 8 = u / 8 := by
  have hoff := congrArg BitVec.toNat (add_left_cancel h)
  rw [BitVec.toNat_ofNat, BitVec.toNat_ofNat] at hoff
  omega

/-- The byte that a #PF reports is the one that D8 names: an inaccessible accessed byte whose element is at the lowest
address among those with such a byte, and which is the lowest such byte of that element. -/
theorem pageFaultAddress_accessedElements {s : State} {i : Instr} {m : MemAddr} {t : Nat} (ht : accesses s i t)
    (hr : readable s (operandAddress s i m + BitVec.ofNat 64 t) = false)
    (hlow : ∀ u, accesses s i u → readable s (operandAddress s i m + BitVec.ofNat 64 u) = false →
      (operandAddress s i m + BitVec.ofNat 64 (8 * (t / 8))).toNat ≤
        (operandAddress s i m + BitVec.ofNat 64 (8 * (u / 8))).toNat ∧
      (u / 8 = t / 8 →
        (operandAddress s i m + BitVec.ofNat 64 t).toNat ≤ (operandAddress s i m + BitVec.ofNat 64 u).toNat)) :
    pageFaultAddress s (accessedElements s i m) = some (operandAddress s i m + BitVec.ofNat 64 t) := by
  have hbyte : ∀ u, operandAddress s i m + BitVec.ofNat 64 u ∈
      byteAddresses (operandAddress s i m + BitVec.ofNat 64 (8 * (u / 8))) 8 := by
    intro u
    refine List.mem_map.2 ⟨u % 8, List.mem_range.2 (by omega), ?_⟩
    rw [BitVec.add_assoc, ← BitVec.ofNat_add, Nat.div_add_mod]
  cases hp : pageFaultAddress s (accessedElements s i m) with
  | none =>
    have := pageFaultAddress_eq_none.1 hp _ (mem_accessedElements_bytes.2 ⟨t, ht, rfl⟩)
    rw [hr] at this
    cases this
  | some a =>
    obtain ⟨e, he, ha, hra, hmin, hleast⟩ := pageFaultAddress_eq_some hp
    obtain ⟨u, hu, rfl⟩ := mem_accessedElements.1 he
    obtain ⟨v, hv, rfl⟩ := List.mem_map.1 ha
    rw [List.mem_range] at hv
    have hdiv : (8 * (u / 8) + v) / 8 = u / 8 := by omega
    rw [BitVec.add_assoc, ← BitVec.ofNat_add] at hra hmin ⊢
    obtain ⟨helem, hlowest⟩ := hlow _ (accesses_of_div_eq hu hdiv) hra
    have hge := hleast _ (mem_accessedElements.2 ⟨t, ht, rfl⟩) ⟨_, hbyte t, hr⟩
    rw [hdiv] at helem
    have hsame : t / 8 = u / 8 := element_eq_of_address_eq (lt_of_accesses ht) (lt_of_accesses hu)
      (BitVec.eq_of_toNat_eq (Nat.le_antisymm helem hge))
    have hle := hmin _ (hsame ▸ hbyte t) hr
    exact congrArg some (BitVec.eq_of_toNat_eq (Nat.le_antisymm hle (hlowest (hdiv.trans hsame.symm))))

/-- Settles O23: with every accessed byte canonical, the byte that the statement picks is the one that the memory checks
report. -/
theorem inaccessibleOperandPageFaults : Obligations.InaccessibleOperandPageFaults := by
  rintro s i m _ _ t he hm rfl ht hc rfl hr hlow
  have hcan : ∀ b ∈ elementBytes (accessedElements s i m), canonical s.cpu.linearWidth b = true := by
    intro b hb
    obtain ⟨u, hu, rfl⟩ := mem_accessedElements_bytes.1 hb
    exact hc u hu
  have hexec := exec_of_memFault he hm
    (memFault_of_pageFaultAddress _ _ _ hcan (pageFaultAddress_accessedElements ht hr hlow))
  exact ⟨_, _, hexec, rfl, rfl, rfl, rfl, rfl⟩

end Sys2Proof.Machine

/-! Proofs about the encoding: what a decoded instruction has read, excluded prefixes, reserved and neighbouring
encodings, and the instruction that is too long (30_encoding.md R80-R114). -/

namespace Sys2Proof

/-! ## How many bytes the decoder reads (R109) -/

/-- Reading `n` bytes from the front of `bs` leaves `rest`. -/
def Reads (n : Nat) (bs rest : List Byte) : Prop := ∃ front : List Byte, front.length = n ∧ bs = front ++ rest

theorem Reads.zero (bs : List Byte) : Reads 0 bs bs := ⟨[], rfl, rfl⟩

theorem Reads.cons {n : Nat} {bs rest : List Byte} (b : Byte) (h : Reads n bs rest) : Reads (1 + n) (b :: bs) rest := by
  obtain ⟨front, rfl, rfl⟩ := h
  exact ⟨b :: front, by rw [List.length_cons, Nat.add_comm], rfl⟩

theorem Reads.trans {m n : Nat} {bs mid rest : List Byte} (h₁ : Reads m bs mid) (h₂ : Reads n mid rest) :
    Reads (m + n) bs rest := by
  obtain ⟨front, rfl, rfl⟩ := h₁
  obtain ⟨back, rfl, rfl⟩ := h₂
  exact ⟨front ++ back, List.length_append, (List.append_assoc ..).symm⟩

theorem Reads.append {n : Nat} {bs rest : List Byte} (h : Reads n bs rest) (tail : List Byte) :
    Reads n (bs ++ tail) (rest ++ tail) := by
  obtain ⟨front, rfl, rfl⟩ := h
  exact ⟨front, rfl, List.append_assoc ..⟩

theorem Reads.le_length {n : Nat} {bs rest : List Byte} (h : Reads n bs rest) : n ≤ bs.length := by
  obtain ⟨front, rfl, rfl⟩ := h
  simp

theorem Reads.eq_drop {n : Nat} {bs rest : List Byte} (h : Reads n bs rest) : rest = bs.drop n := by
  obtain ⟨front, rfl, rfl⟩ := h
  simp

theorem takeDisp32_reads {bs rest : List Byte} {d : BitVec 32} (h : takeDisp32 bs = some (d, rest)) :
    Reads 4 bs rest := by
  unfold takeDisp32 at h
  split at h
  · next b0 b1 b2 b3 bs =>
    cases h
    exact ⟨[b0, b1, b2, b3], rfl, rfl⟩
  · cases h

/-- A displacement read has the bytes that `mod` announces, none exactly for `mod = 00` (R103). -/
theorem takeDisp_reads {mod : BitVec 2} {bs rest : List Byte} {d : Disp} (h : takeDisp mod bs = some (d, rest)) :
    Reads d.length bs rest ∧ (d = .none ↔ mod = 0#2) := by
  unfold takeDisp at h
  split at h
  · next h0 =>
    cases h
    exact ⟨.zero _, by simp [h0]⟩
  · next h0 =>
    split at h
    · cases bs with
      | nil => cases h
      | cons b bs =>
        cases h
        exact ⟨(Reads.zero _).cons b, by simp [h0]⟩
    · obtain ⟨⟨d', rest'⟩, hd, hr⟩ := Option.map_eq_some_iff.1 h
      cases hr
      exact ⟨takeDisp32_reads hd, by simp [h0]⟩

theorem num4_extract_low (ext : Bool) (low : BitVec 3) : (num4 ext low).extractLsb' 0 3 = low := by
  revert ext low; decide

theorem indexOk_sibIndex (x : Bool) (sib : Byte) : indexOk (sibIndex x sib) = true := by
  unfold sibIndex
  split
  · rfl
  · next h => simpa [indexOk] using h

/-- A memory operand read has an encoding, and its length is what was read after ModRM (R55, R109). -/
theorem takeMem_reads {x b : Bool} {mod : BitVec 2} {rm : BitVec 3} {bs rest : List Byte} {m : MemAddr}
    (h : takeMem x b mod rm bs = some (m, rest)) : m.wf = true ∧ Reads m.length bs rest := by
  unfold takeMem at h
  split at h
  · cases bs with
    | nil => cases h
    | cons sib bs =>
      dsimp only at h
      split at h <;> obtain ⟨⟨d, rest'⟩, hd, hr⟩ := Option.map_eq_some_iff.1 h <;> cases hr
      · exact ⟨indexOk_sibIndex x sib, (takeDisp32_reads hd).cons sib⟩
      · next hbase =>
        obtain ⟨hreads, hnone⟩ := takeDisp_reads hd
        refine ⟨?_, hreads.cons sib⟩
        simpa [MemAddr.wf, sibBaseOk, indexOk_sibIndex, num4_extract_low, hnone, imp_iff_not_or] using hbase
  · next hsib =>
    split at h <;> obtain ⟨⟨d, rest'⟩, hd, hr⟩ := Option.map_eq_some_iff.1 h <;> cases hr
    · exact ⟨rfl, takeDisp32_reads hd⟩
    · next hbase =>
      obtain ⟨hreads, hnone⟩ := takeDisp_reads hd
      refine ⟨?_, hreads⟩
      simpa [MemAddr.wf, baseOk, num4_extract_low, hnone, hsib, imp_iff_not_or] using hbase

/-- Operand 3, as ModRM and what follows it give it, has an encoding (R55). -/
def RawOp3.wf : RawOp3 → Bool
  | .reg _ => true
  | .mem m => m.wf

/-- Bytes that operand 3 adds after ModRM (R109). -/
def RawOp3.length : RawOp3 → Nat
  | .reg _ => 0
  | .mem m => m.length

/-- The VEX operand 3 that the decoder makes of it, with `B` for a register (R81). -/
def RawOp3.toVex (b : Bool) : RawOp3 → VexOp3
  | .reg rm => .reg (num4 b rm)
  | .mem m => .mem m

@[simp] theorem RawOp3.toVex_wf (b : Bool) (raw : RawOp3) : (raw.toVex b).wf = raw.wf := by cases raw <;> rfl
@[simp] theorem RawOp3.toVex_length (b : Bool) (raw : RawOp3) : (raw.toVex b).length = raw.length := by
  cases raw <;> rfl

theorem takeModRM_reads {x b : Bool} {bs rest : List Byte} {reg : BitVec 3} {raw : RawOp3}
    (h : takeModRM x b bs = some (reg, raw, rest)) : raw.wf = true ∧ Reads (1 + raw.length) bs rest := by
  cases bs with
  | nil => cases h
  | cons modrm bs =>
    simp only [takeModRM] at h
    split at h
    · cases h
      exact ⟨rfl, (Reads.zero _).cons modrm⟩
    · obtain ⟨⟨m, rest'⟩, hm, hr⟩ := Option.map_eq_some_iff.1 h
      cases hr
      obtain ⟨hwf, hreads⟩ := takeMem_reads hm
      exact ⟨hwf, hreads.cons modrm⟩

/-! ## The prefixes in front (R109, R111) -/

theorem splitPrefixes_reads (bs : List Byte) : Reads (splitPrefixes bs).1.length bs (splitPrefixes bs).2 := by
  induction bs with
  | nil => exact .zero _
  | cons b bs ih =>
    cases hb : prefixItem b with
    | none => simpa [splitPrefixes, hb] using Reads.zero (b :: bs)
    | some item => simpa [splitPrefixes, hb, Nat.add_comm] using ih.cons b

/-- Prefix bytes of either kind, whatever follows them, come before the prefixes of what follows. -/
theorem splitPrefixes_append_left {pre : List Byte} (bs : List Byte) (hp : ∀ c ∈ pre, (prefixItem c).isSome = true) :
    splitPrefixes (pre ++ bs) = (pre.filterMap prefixItem ++ (splitPrefixes bs).1, (splitPrefixes bs).2) := by
  induction pre with
  | nil => rfl
  | cons c pre ih =>
    obtain ⟨item, hc⟩ := Option.isSome_iff_exists.1 (hp c (by simp))
    simp [splitPrefixes, hc, ih fun d hd => hp d (List.mem_cons_of_mem _ hd)]

theorem length_legacyOf {items : List PrefixItem} (h : .excluded ∉ items) : (legacyOf items).length = items.length := by
  induction items with
  | nil => rfl
  | cons item items ih =>
    obtain ⟨hne, hrest⟩ := List.ne_and_not_mem_of_not_mem_cons h
    cases item with
    | legacy p => simp [legacyOf, ih hrest]
    | excluded => exact absurd rfl hne

theorem checkPrefixes_eq_instr {items : List PrefixItem} {r : DecodeResult} {i : Instr} {rest : List Byte}
    (h : checkPrefixes items r = .instr i rest) : .excluded ∉ items ∧ r = .instr i rest := by
  by_cases hx : .excluded ∈ items
  · rw [checkPrefixes_excluded r hx] at h
    cases h
  · exact ⟨hx, by simpa [checkPrefixes, hx] using h⟩

/-! ## What a decoded instruction has read -/

/-- The bytes `bs` after C4h or 62h are those of an instruction, for a half of R112: `form` is the instruction by its
legacy prefixes, `n` the bytes read. Of the prefixes only the check of R86 and R97 and the legacy ones matter. -/
def BodyDecodes (half : List PrefixItem → List Byte → DecodeResult) (bs rest : List Byte) : Prop :=
  ∃ (n : Nat) (form : List LegacyPrefix → Instr), 4 ≤ n ∧ Reads n bs rest ∧
    (∀ p, (form p).op3Wf = true ∧ (form p).length = p.length + (1 + n)) ∧
    ∀ items, half items bs = checkPrefixes items (.instr (form (legacyOf items)) rest)

theorem op3Wf_evexRounded (k : Kind) (p : List LegacyPrefix) (mask : Masking) (dst src2 r : BitVec 5) (rc : Rounding) :
    (Instr.evexRounded k p mask dst src2 r rc).op3Wf = true := by
  cases k <;> rfl

theorem bodyDecodes_of_decodeVex {items : List PrefixItem} {bs rest : List Byte} {i : Instr}
    (h : decodeVex items bs = .instr i rest) : BodyDecodes decodeVex bs rest := by
  match bs, h with
  | b1 :: b2 :: op :: bs, h =>
    simp only [decodeVex] at h
    split at h
    · cases h
    next hmap =>
    split at h
    · cases h
    next k hk =>
    split at h
    · cases h
    next hw =>
    split at h
    · cases h
    next hpp =>
    split at h
    · cases h
    next reg raw rest' hm =>
    obtain ⟨-, hr⟩ := checkPrefixes_eq_instr h
    cases hr
    obtain ⟨hwf, hreads⟩ := takeModRM_reads hm
    refine ⟨_, fun p => Instr.vex k (if b2.getLsbD 2 then .l256 else .l128) p (num4 (!b1.getLsbD 7) reg)
      (~~~(b2.extractLsb' 3 4)) (raw.toVex (!b1.getLsbD 5)), by omega, ((hreads.cons op).cons b2).cons b1,
      fun p => ⟨?_, ?_⟩, fun items' => ?_⟩
    · rw [op3Wf_vex, RawOp3.toVex_wf, hwf]
    · rw [Machine.length_vex, vexLength, RawOp3.toVex_length]
      omega
    · simp only [decodeVex, hk, hm]
      rw [if_neg hmap, if_neg hw, if_neg hpp]
      cases raw <;> rfl

/-- What the EVEX half makes of operand 3, when it makes an instruction, is the same whatever the prefixes (R93, R94). -/
theorem evexInstr_eq_instr {items : List PrefixItem} {k : Kind} {mask : Masking} {dst src2 : BitVec 5} {x b bc : Bool}
    {ll : BitVec 2} {raw : RawOp3} {rest rest' : List Byte} {i : Instr} (hwf : raw.wf = true)
    (h : evexInstr items k mask dst src2 x b bc ll raw rest = .instr i rest') :
    rest' = rest ∧ ∃ form : List LegacyPrefix → Instr,
      (∀ p, (form p).op3Wf = true ∧ (form p).length = p.length + (6 + raw.length)) ∧
      ∀ items', evexInstr items' k mask dst src2 x b bc ll raw rest = .instr (form (legacyOf items')) rest := by
  cases raw with
  | reg rm =>
    cases bc with
    | true =>
      cases h
      refine ⟨rfl, fun p => Instr.evexRounded k p mask dst src2 (num5 x b rm) (.ofBits ll), fun p => ⟨?_, ?_⟩,
        fun _ => rfl⟩
      · exact op3Wf_evexRounded ..
      · rw [Machine.length_evexRounded]
        rfl
    | false =>
      simp only [evexInstr] at h ⊢
      split at h
      · cases h
      next l hl =>
      cases h
      refine ⟨rfl, fun p => Instr.evex k l p mask dst src2 (.reg (num5 x b rm)), fun p => ⟨?_, ?_⟩, fun _ => rfl⟩
      · exact op3Wf_evex ..
      · rw [Machine.length_evex]
        rfl
  | mem m =>
    simp only [evexInstr] at h ⊢
    split at h
    · cases h
    next l hl =>
    cases h
    refine ⟨rfl, fun p => Instr.evex k l p mask dst src2 (if bc then .broadcast m else .mem m), fun p => ⟨?_, ?_⟩,
      fun _ => rfl⟩
    · rw [op3Wf_evex]
      cases bc <;> exact hwf
    · rw [Machine.length_evex]
      cases bc <;> exact Nat.add_assoc ..

/-- The fixed fields of an EVEX encoding are those of a row, of kind `k` (R90, R91, R114). -/
structure EvexRow (p0 p1 op : Byte) (k : Kind) : Prop where
  fixed : ¬(p0.extractLsb' 2 2 ≠ 0#2 ∨ p1.getLsbD 2 = false)
  map : ¬p0.extractLsb' 0 2 ≠ 2#2
  opcode : kindOfOpcode op = some k
  w : ¬p1.getLsbD 7 = false
  pp : ¬p1.extractLsb' 0 2 ≠ 1#2

/-- With the fixed fields right and ModRM complete, z = 1 without a mask is illegal (R96, R112). -/
theorem decodeEvex_of_zeroing {items : List PrefixItem} {p0 p1 p2 op : Byte} {k : Kind} {tail : List Byte}
    {m : BitVec 3 × RawOp3 × List Byte} (hrow : EvexRow p0 p1 op k)
    (hm : takeModRM (!p0.getLsbD 6) (!p0.getLsbD 5) tail = some m)
    (hmask : Masking.ofBits (p2.getLsbD 7) (p2.extractLsb' 0 3) = none) :
    decodeEvex items (p0 :: p1 :: p2 :: op :: tail) = checkPrefixes items (.illegal .zeroingWithoutMask) := by
  simp only [decodeEvex, hrow.opcode, hm, hmask]
  rw [if_neg hrow.fixed, if_neg hrow.map, if_neg hrow.w, if_neg hrow.pp]

/-- With the fixed fields right, ModRM complete and a mask, what is left of the EVEX half is operand 3 (R112). -/
theorem decodeEvex_of_masking {items : List PrefixItem} {p0 p1 p2 op : Byte} {k : Kind} {mask : Masking}
    {tail rest : List Byte} {reg : BitVec 3} {raw : RawOp3} (hrow : EvexRow p0 p1 op k)
    (hm : takeModRM (!p0.getLsbD 6) (!p0.getLsbD 5) tail = some (reg, raw, rest))
    (hmask : Masking.ofBits (p2.getLsbD 7) (p2.extractLsb' 0 3) = some mask) :
    decodeEvex items (p0 :: p1 :: p2 :: op :: tail) = checkPrefixes items
      (evexInstr items k mask (num5 (!p0.getLsbD 4) (!p0.getLsbD 7) reg)
        (BitVec.ofBool (!p2.getLsbD 3) ++ ~~~(p1.extractLsb' 3 4)) (!p0.getLsbD 6) (!p0.getLsbD 5) (p2.getLsbD 4)
        (p2.extractLsb' 5 2) raw rest) := by
  simp only [decodeEvex, hrow.opcode, hm, hmask]
  rw [if_neg hrow.fixed, if_neg hrow.map, if_neg hrow.w, if_neg hrow.pp]

theorem bodyDecodes_of_decodeEvex {items : List PrefixItem} {bs rest : List Byte} {i : Instr}
    (h : decodeEvex items bs = .instr i rest) : BodyDecodes decodeEvex bs rest := by
  match bs, h with
  | p0 :: p1 :: p2 :: op :: bs, h =>
    simp only [decodeEvex] at h
    split at h
    · split at h <;> cases h
    next hfixed =>
    split at h
    · cases h
    next hmap =>
    split at h
    · cases h
    next k hk =>
    split at h
    · cases h
    next hw =>
    split at h
    · cases h
    next hpp =>
    split at h
    · cases h
    next reg raw rest' hm =>
    obtain ⟨-, hr⟩ := checkPrefixes_eq_instr h
    split at hr
    · cases hr
    next mask hmask =>
    obtain ⟨hwf, hreads⟩ := takeModRM_reads hm
    obtain ⟨rfl, form, hform, hevex⟩ := evexInstr_eq_instr hwf hr
    refine ⟨_, form, ?_, (((hreads.cons op).cons p2).cons p1).cons p0, fun p => ⟨(hform p).1, ?_⟩, fun items' => ?_⟩
    · omega
    · rw [(hform p).2]
      omega
    · rw [decodeEvex_of_masking ⟨hfixed, hmap, hk, hw, hpp⟩ hm hmask, hevex]

/-- A window that decodes to an instruction goes through one of the two halves of R112, and so does every window that
differs in the prefixes only. -/
theorem decodeWindow_eq_instr {bs rest : List Byte} {i : Instr} (h : decodeWindow bs = .instr i rest) :
    ∃ half b body, (splitPrefixes bs).2 = b :: body ∧ BodyDecodes half body rest ∧
      ∀ bs', (splitPrefixes bs').2 = b :: body → decodeWindow bs' = half (splitPrefixes bs').1 body := by
  unfold decodeWindow at h
  split at h
  · cases h
  next b body hs =>
  split at h
  · next hb =>
    exact ⟨decodeVex, b, body, hs, bodyDecodes_of_decodeVex h, fun bs' hs' => by rw [decodeWindow, hs']; simp [hb]⟩
  split at h
  · next hb =>
    exact ⟨decodeEvex, b, body, hs, bodyDecodes_of_decodeEvex h, fun bs' hs' => by rw [decodeWindow, hs']; simp [hb]⟩
  cases h

/-- An instruction decoded from a window has an encoding, at least five bytes, and is what was read (R109). -/
theorem decodeWindow_reads {bs rest : List Byte} {i : Instr} (h : decodeWindow bs = .instr i rest) :
    i.op3Wf = true ∧ 5 ≤ i.length ∧ Reads i.length bs rest := by
  obtain ⟨half, b, body, hs, ⟨n, form, hn, hreads, hform, hhalf⟩, hdecode⟩ := decodeWindow_eq_instr h
  rw [hdecode bs hs, hhalf] at h
  obtain ⟨hx, hi⟩ := checkPrefixes_eq_instr h
  cases hi
  obtain ⟨hwf, hlen⟩ := hform (legacyOf (splitPrefixes bs).1)
  refine ⟨hwf, by omega, ?_⟩
  rw [hlen, length_legacyOf hx]
  exact (splitPrefixes_reads bs).trans (hs ▸ hreads.cons b)

/-- Prefix bytes with an excluded one among them, before bytes that decode to an instruction, make it illegal (R86, R97,
R111, R114). -/
theorem decodeWindow_excluded {pre bs rest : List Byte} {i : Instr} (hp : ∀ c ∈ pre, (prefixItem c).isSome = true)
    (hx : .excluded ∈ pre.filterMap prefixItem) (h : decodeWindow bs = .instr i rest) :
    decodeWindow (pre ++ bs) = .illegal .excludedPrefix := by
  obtain ⟨half, b, body, hs, ⟨n, form, -, -, -, hhalf⟩, hdecode⟩ := decodeWindow_eq_instr h
  have hsplit := splitPrefixes_append_left bs hp
  rw [hdecode _ (by rw [hsplit, hs]), hhalf, hsplit]
  exact checkPrefixes_excluded _ (List.mem_append_left _ hx)

/-! ## The whole of `decode` (R110, R112) -/

/-- On at most 15 bytes that are not cut short, decoding is R112's procedure alone. -/
theorem decode_eq_decodeWindow {bs : List Byte} (hlen : bs.length ≤ maxInstrLength) (h : decodeWindow bs ≠ .truncated) :
    decode bs = decodeWindow bs := by
  rw [decode, List.take_of_length_le hlen]
  cases hd : decodeWindow bs with
  | instr i rest => simp [List.drop_of_length_le hlen]
  | truncated => exact absurd hd h
  | illegal why => rfl
  | other why => rfl
  | tooLong => rfl

theorem decode_eq_instr {bs rest : List Byte} {i : Instr} (h : decode bs = .instr i rest) :
    ∃ rest', decodeWindow (bs.take maxInstrLength) = .instr i rest' ∧ rest = rest' ++ bs.drop maxInstrLength := by
  unfold decode at h
  split at h
  · next j rest' hd =>
    cases h
    exact ⟨rest', hd, rfl⟩
  · cases h
  · cases h
  · cases h
  · split at h <;> cases h

theorem followedBy_eq_instr {r : DecodeResult} {tail rest : List Byte} {i : Instr}
    (h : r.followedBy tail = .instr i rest) : ∃ rest', r = .instr i rest' ∧ rest = rest' ++ tail := by
  cases r with
  | instr j rest' =>
    cases h
    exact ⟨rest', rfl, rfl⟩
  | illegal why => cases h
  | other why => cases h
  | tooLong => cases h
  | truncated => cases h

/-- The first bytes of an instruction of any length, fewer than its length, run out before the instruction does. -/
theorem decodeWindow_take_encode {i : Instr} {n : Nat} (h : i.op3Wf = true) (hn : n < i.length) :
    decodeWindow ((encode i).take n) = .truncated := by
  rcases decodeWindow_append ((encode i).take n) ((encode i).drop n) with ht | hs
  · exact ht
  · have hwhole : decodeWindow (encode i) = .instr i [] := by simpa using decodeWindow_encode [] h
    rw [List.take_append_drop, hwhole] at hs
    obtain ⟨rest', -, hnil⟩ := followedBy_eq_instr hs.symm
    have hdrop : (encode i).drop n = [] := (List.append_eq_nil_iff.1 hnil.symm).2
    rw [List.drop_eq_nil_iff, length_encode] at hdrop
    omega

/-! ## Lengths (R109) -/

theorem memAddr_length_le (m : MemAddr) : m.length ≤ 5 := by
  have hdisp (d : Disp) : d.length ≤ 4 := by cases d <;> simp [Disp.length]
  cases m with
  | base _ d => exact (hdisp d).trans (by omega)
  | sib _ _ d => exact Nat.add_le_add_left (hdisp d) 1
  | sibNoBase _ _ => exact le_rfl
  | ripRelative _ => exact Nat.le_succ 4

theorem vexOp3_length_le (op3 : VexOp3) : op3.length ≤ 5 := by
  cases op3 with
  | reg _ => exact Nat.zero_le 5
  | mem m => exact memAddr_length_le m

theorem evexOp3_length_le (op3 : EvexOp3) : op3.length ≤ 5 := by
  cases op3 with
  | reg _ => exact Nat.zero_le 5
  | mem m => exact memAddr_length_le m
  | broadcast m => exact memAddr_length_le m

/-- Without its legacy prefixes an instruction has at most 11 bytes. -/
theorem length_le_prefixes (i : Instr) : i.length ≤ (Machine.parts i).p.length + 11 := by
  rcases Machine.instr_shape i with ⟨k, l, p, dst, src2, op3, rfl⟩ | ⟨k, l, p, mask, dst, src2, op3, rfl⟩ |
    ⟨k, p, mask, dst, src2, r, rc, rfl⟩
  · have := vexOp3_length_le op3
    simp only [Machine.length_vex, Machine.parts_vex, Machine.vexParts, vexLength]
    omega
  · have := evexOp3_length_le op3
    simp only [Machine.length_evex, Machine.parts_evex, Machine.evexParts, evexLength, EvexOp3Er.length]
    omega
  · simp only [Machine.length_evexRounded, Machine.parts_evexRounded, Machine.evexParts, evexLength, EvexOp3Er.length]
    omega

/-! ## Fields by mask and by place -/

theorem evexP0_reserved_iff (p0 : Byte) : p0.extractLsb' 2 2 ≠ 0#2 ↔ p0 &&& 0x0C#8 ≠ 0#8 := by revert p0; decide
theorem evexP1_fixed_iff (p1 : Byte) : p1.getLsbD 2 = false ↔ p1 &&& 0x04#8 = 0#8 := by revert p1; decide
theorem evexP0_map_iff (p0 : Byte) : p0.extractLsb' 0 2 ≠ 2#2 ↔ p0 &&& 0x03#8 ≠ 0x02#8 := by revert p0; decide
theorem vexByte1_map_iff (b1 : Byte) : b1.extractLsb' 0 5 ≠ 2#5 ↔ b1 &&& 0x1F#8 ≠ 0x02#8 := by revert b1; decide
theorem wBit_iff (b : Byte) : b.getLsbD 7 = false ↔ b &&& 0x80#8 = 0#8 := by revert b; decide
theorem pp_iff (b : Byte) : b.extractLsb' 0 2 ≠ 1#2 ↔ b &&& 0x03#8 ≠ 0x01#8 := by revert b; decide
theorem kindOfOpcode_eq_none_iff (op : Byte) :
    kindOfOpcode op = none ↔ ¬(op = 0x9C#8 ∨ op = 0xAC#8 ∨ op = 0xBC#8) := by revert op; decide

/-- The fixed fields of P0, P1 and the opcode by mask (R90, R91, R114). -/
theorem evexRow_of_masks {p0 p1 op : Byte} (h0 : p0 &&& 0x0F#8 = 0x02#8) (h1 : p1 &&& 0x87#8 = 0x85#8)
    (hop : op = 0x9C#8 ∨ op = 0xAC#8 ∨ op = 0xBC#8) : ∃ k, EvexRow p0 p1 op k := by
  have hp0 : ∀ p0 : Byte, p0 &&& 0x0F#8 = 0x02#8 → p0.extractLsb' 2 2 = 0#2 ∧ p0.extractLsb' 0 2 = 2#2 := by decide
  have hp1 : ∀ p1 : Byte, p1 &&& 0x87#8 = 0x85#8 →
      p1.getLsbD 2 = true ∧ p1.getLsbD 7 = true ∧ p1.extractLsb' 0 2 = 1#2 := by decide
  obtain ⟨hreserved, hmap⟩ := hp0 p0 h0
  obtain ⟨hfixed, hw, hpp⟩ := hp1 p1 h1
  obtain ⟨k, hk⟩ := Option.ne_none_iff_exists'.1 fun hn => (kindOfOpcode_eq_none_iff op).1 hn hop
  exact ⟨k, by simp [hreserved, hfixed], not_not.2 hmap, hk, by simp [hw], not_not.2 hpp⟩

theorem masking_none_of_mask {p2 : Byte} :
    p2 &&& 0x87#8 = 0x80#8 → Masking.ofBits (p2.getLsbD 7) (p2.extractLsb' 0 3) = none := by
  revert p2; decide

theorem evexP2_ll_eq_three {p2 : Byte} : p2 &&& 0x60#8 = 0x60#8 → p2.extractLsb' 5 2 = 3#2 := by revert p2; decide
theorem evexP2_b_iff (p2 : Byte) : p2 &&& 0x10#8 = 0x10#8 ↔ p2.getLsbD 4 = true := by revert p2; decide

theorem prefixItem_isSome {c : Byte} :
    c ∈ [0x26#8, 0x2E#8, 0x36#8, 0x3E#8, 0x64#8, 0x65#8, 0x67#8, 0x66#8, 0xF2#8, 0xF3#8, 0xF0#8] ∨
      c &&& 0xF0#8 = 0x40#8 → (prefixItem c).isSome = true := by
  revert c; decide

theorem prefixItem_excluded {b : Byte} :
    b = 0x66#8 ∨ b = 0xF2#8 ∨ b = 0xF3#8 ∨ b = 0xF0#8 ∨ b &&& 0xF0#8 = 0x40#8 → prefixItem b = some .excluded := by
  revert b; decide

/-! ## Illegal and other encodings, half by half (R112, R114) -/

theorem decodeVex_other {items : List PrefixItem} {b1 b2 op : Byte} {tail : List Byte}
    (h : b2.getLsbD 7 = false ∨ b1.extractLsb' 0 5 ≠ 2#5 ∨ kindOfOpcode op = none ∨ b2.extractLsb' 0 2 ≠ 1#2) :
    ∃ why, decodeVex items (b1 :: b2 :: op :: tail) = .other why := by
  simp only [decodeVex]
  split
  · exact ⟨_, rfl⟩
  next hmap =>
  split
  · exact ⟨_, rfl⟩
  next k hk =>
  split
  · exact ⟨_, rfl⟩
  next hw =>
  split
  · exact ⟨_, rfl⟩
  next hpp =>
  rcases h with h | h | h | h
  · exact absurd h hw
  · exact absurd h hmap
  · exact absurd (hk.symm.trans h) (Option.some_ne_none k)
  · exact absurd h hpp

theorem decodeEvex_other {items : List PrefixItem} {p0 p1 p2 op : Byte} {tail : List Byte}
    (hfixed : ¬(p0.extractLsb' 2 2 ≠ 0#2 ∨ p1.getLsbD 2 = false))
    (h : p1.getLsbD 7 = false ∨ p0.extractLsb' 0 2 ≠ 2#2 ∨ kindOfOpcode op = none ∨ p1.extractLsb' 0 2 ≠ 1#2) :
    ∃ why, decodeEvex items (p0 :: p1 :: p2 :: op :: tail) = .other why := by
  simp only [decodeEvex]
  rw [if_neg hfixed]
  split
  · exact ⟨_, rfl⟩
  next hmap =>
  split
  · exact ⟨_, rfl⟩
  next k hk =>
  split
  · exact ⟨_, rfl⟩
  next hw =>
  split
  · exact ⟨_, rfl⟩
  next hpp =>
  rcases h with h | h | h | h
  · exact absurd h hw
  · exact absurd h hmap
  · exact absurd (hk.symm.trans h) (Option.some_ne_none k)
  · exact absurd h hpp

theorem decodeEvex_reserved {items : List PrefixItem} {p0 p1 p2 op : Byte} {tail : List Byte}
    {m : BitVec 3 × RawOp3 × List Byte} (hm : takeModRM (!p0.getLsbD 6) (!p0.getLsbD 5) tail = some m)
    (h : p0.extractLsb' 2 2 ≠ 0#2 ∨ p1.getLsbD 2 = false) :
    decodeEvex items (p0 :: p1 :: p2 :: op :: tail) = .illegal .reservedEvexField := by
  simp only [decodeEvex, hm]
  rw [if_pos h]

/-- L'L = 11 is no vector length: only embedded rounding uses it otherwise (R93, R94). -/
theorem evexInstr_reservedLength {items : List PrefixItem} {k : Kind} {mask : Masking} {dst src2 : BitVec 5}
    {x b bc : Bool} {raw : RawOp3} {rest : List Byte} (h : ¬(bc = true ∧ ∃ rm, raw = .reg rm)) :
    evexInstr items k mask dst src2 x b bc 3#2 raw rest = .illegal .reservedLength := by
  cases raw with
  | reg rm =>
    cases bc with
    | true => exact absurd ⟨rfl, rm, rfl⟩ h
    | false => rfl
  | mem m => rfl

end Sys2Proof

namespace Sys2Proof.Machine

/-! ## The step by what the window decodes to (R112, R256) -/

theorem length_fetchWindow_le (s : State) : (fetchWindow s).length ≤ maxInstrLength := by
  have h := (List.takeWhile_sublist (p := fetchable s) (l := fetchAddresses s)).length_le
  simpa [fetchWindow, fetchAddresses] using h

theorem step_of_decodeWindow_illegal {s : State} {why : IllegalReason} (h : in64BitMode s = true)
    (hd : decodeWindow (fetchWindow s) = .illegal why) : step s = raiseUD s := by
  have hdecode := decode_eq_decodeWindow (length_fetchWindow_le s) (by simp [hd])
  rw [step, fetch, if_neg (ne_otherProtected h), decodeIn_of_long64 h, hdecode, hd]

theorem step_of_decodeWindow_other {s : State} {why : OtherReason} (h : in64BitMode s = true)
    (hd : decodeWindow (fetchWindow s) = .other why) : step s = .refused (.notOfThisSpec s.rip) := by
  have hdecode := decode_eq_decodeWindow (length_fetchWindow_le s) (by simp [hd])
  rw [step, fetch, if_neg (ne_otherProtected h), decodeIn_of_long64 h, hdecode, hd]

theorem step_of_decode_tooLong {s : State} (h : in64BitMode s = true) (hd : decode (fetchWindow s) = .tooLong) :
    step s = raiseGP s := by
  rw [step, fetch, if_neg (ne_otherProtected h), decodeIn_of_long64 h, hd]

/-! ## The statements of 30_encoding.md -/

/-- Settles O1: `decode_encode`, which holds of every row, at a VEX row. -/
theorem decodeEncodeVex : Obligations.DecodeEncodeVex :=
  fun _ _ _ _ _ _ rest h => decode_encode rest h

/-- Settles O2: `decode_encode` at an EVEX row, and at one with embedded rounding. -/
theorem decodeEncodeEvex : Obligations.DecodeEncodeEvex :=
  ⟨fun _ _ _ _ _ _ _ rest h => decode_encode rest h, fun _ _ _ _ _ _ _ rest h => decode_encode rest h⟩

/-- Settles O3: the window of at most 15 bytes is the bytes read and what they leave, and the rest follows it. -/
theorem decodedIsWellFormed : Obligations.DecodedIsWellFormed := by
  intro bs i rest h
  obtain ⟨rest', hd, rfl⟩ := decode_eq_instr h
  obtain ⟨hwf, hmin, hreads⟩ := decodeWindow_reads hd
  have hmax : i.length ≤ maxInstrLength := hreads.le_length.trans (List.length_take_le ..)
  have hall := hreads.append (bs.drop maxInstrLength)
  rw [List.take_append_drop] at hall
  exact ⟨(instr_wf_iff i).2 ⟨hwf, hmax⟩, hmin, hmax, hall.le_length, hall.eq_drop⟩

/-- Settles O5: with ModRM complete, a reserved field stops the EVEX half at once; with the row's fields right, the mask
and the length are all that is left to be illegal. -/
theorem illegalEvexIsUndefinedOpcode : Obligations.IllegalEvexIsUndefinedOpcode := by
  rintro s p p0 p1 p2 op tail ⟨reg, raw, rest⟩ hmode hwin hm
  have hstep (why : IllegalReason)
      (hd : decodeEvex (p.map .legacy) (p0 :: p1 :: p2 :: op :: tail) = .illegal why) : step s = raiseUD s :=
    step_of_decodeWindow_illegal hmode (by rw [hwin, decodeWindow_evexPrefix, hd])
  refine ⟨fun hres => ?_, fun h0 h1 hop => ?_⟩
  · rw [← evexP0_reserved_iff, ← evexP1_fixed_iff] at hres
    exact hstep _ (decodeEvex_reserved hm hres)
  obtain ⟨k, hrow⟩ := evexRow_of_masks h0 h1 hop
  have hzeroing (hmask : Masking.ofBits (p2.getLsbD 7) (p2.extractLsb' 0 3) = none) : step s = raiseUD s :=
    hstep _ ((decodeEvex_of_zeroing hrow hm hmask).trans (checkPrefixes_map ..))
  refine ⟨fun hz => hzeroing (masking_none_of_mask hz), fun hll hreg => ?_⟩
  cases hmask : Masking.ofBits (p2.getLsbD 7) (p2.extractLsb' 0 3) with
  | none => exact hzeroing hmask
  | some mask =>
    rw [evexP2_b_iff] at hreg
    have hd := decodeEvex_of_masking (items := p.map .legacy) hrow hm hmask
    rw [checkPrefixes_map, evexP2_ll_eq_three hll, evexInstr_reservedLength hreg] at hd
    exact hstep _ hd

/-- Settles O6: the encoding alone decodes to an instruction, so with an excluded byte among the prefixes it is illegal. -/
theorem excludedPrefixIsUndefinedOpcode : Obligations.ExcludedPrefixIsUndefinedOpcode := by
  intro s pre b i rest hmode hpre hb hwf hwin
  have hitem := prefixItem_excluded hb
  have hall : ∀ c ∈ pre ++ [b], (prefixItem c).isSome = true := by
    intro c hc
    rcases List.mem_append.1 hc with hc | hc
    · exact prefixItem_isSome (hpre c hc)
    · rw [List.mem_singleton.1 hc, hitem]
      rfl
  have hx : .excluded ∈ (pre ++ [b]).filterMap prefixItem := List.mem_filterMap.2 ⟨b, by simp, hitem⟩
  have hd := decodeWindow_excluded hall hx (decodeWindow_encode rest ((instr_wf_iff i).1 hwf).1)
  rw [List.append_assoc, List.singleton_append, ← hwin] at hd
  exact step_of_decodeWindow_illegal hmode hd

/-- Settles O7: each of the wrong fields makes its half of R112 answer other before it looks at ModRM. -/
theorem neighbouringEncodingsRefused : Obligations.NeighbouringEncodingsRefused := by
  intro s p tail hmode
  refine ⟨fun b1 b2 op hwin h => ?_, fun p0 p1 p2 op hwin hres hfix h => ?_⟩
  · rw [← wBit_iff, ← vexByte1_map_iff, ← kindOfOpcode_eq_none_iff, ← pp_iff] at h
    obtain ⟨why, hd⟩ := decodeVex_other (items := p.map .legacy) (tail := tail) h
    exact step_of_decodeWindow_other hmode (by rw [hwin, decodeWindow_vexPrefix, hd])
  · rw [← wBit_iff, ← evexP0_map_iff, ← kindOfOpcode_eq_none_iff, ← pp_iff] at h
    have hfixed : ¬(p0.extractLsb' 2 2 ≠ 0#2 ∨ p1.getLsbD 2 = false) := by
      rw [evexP0_reserved_iff, evexP1_fixed_iff]
      exact not_or.2 ⟨not_not.2 hres, hfix⟩
    obtain ⟨why, hd⟩ := decodeEvex_other (items := p.map .legacy) (p2 := p2) (tail := tail) hfixed h
    exact step_of_decodeWindow_other hmode (by rw [hwin, decodeWindow_evexPrefix, hd])

/-- Settles O8: the byte after the legacy prefixes alone makes R112 answer other. -/
theorem otherOpcodeRefused : Obligations.OtherOpcodeRefused := by
  intro s p b tail hmode hwin hvex hevex hprefix
  have hd : decodeWindow (fetchWindow s) = .other .otherOpcode := by
    rw [hwin, decodeWindow, splitPrefixes_append p tail hprefix]
    simp [hvex, hevex]
  exact step_of_decodeWindow_other hmode hd

/-- Settles O9: fifteen bytes that are not the whole instruction decode as too long, and only the legacy prefixes can
make it so long. -/
theorem longerThanFifteenBytesIsProtectionFault : Obligations.LongerThanFifteenBytesIsProtectionFault := by
  intro s i hmode hwf hlong hwin
  refine ⟨step_of_decode_tooLong hmode ?_, ?_⟩
  · have hlen : (fetchWindow s).length = maxInstrLength := by
      rw [hwin, List.length_take, length_encode]
      exact Nat.min_eq_left hlong.le
    rw [decode, List.take_of_length_le hlen.le, hlen, hwin, decodeWindow_take_encode hwf hlong]
    rfl
  · have := length_le_prefixes i
    omega

/-- Settles O10: in 64-bit mode the fetch hands the decoded instruction to `exec`. -/
theorem stepRunsDecoded : Obligations.StepRunsDecoded :=
  fun _ _ _ hmode hd => step_of_decode_instr hmode hd

end Sys2Proof.Machine

/-! Proofs about the lane arithmetic (40_lane_arithmetic.md R130-R151). The fields and classes of a binary64 element and
what DAZ does to them; one equation per branch of `fnmaddCore`; exact values as integers; rounding to the format's
grid; when 53-bit rounding reaches a power of two, which decides overflow and tininess. -/

namespace Sys2Proof.Machine

/-! ## The fields of an element (R133) -/

theorem expField_eq (x : Word) : expField x = x.toNat / 2 ^ 52 % 2 ^ 11 := by
  simp [expField, Nat.shiftRight_eq_div_pow]

theorem fracField_eq (x : Word) : fracField x = x.toNat % 2 ^ 52 := by
  simp [fracField]

theorem fracField_lt (x : Word) : fracField x < 2 ^ 52 := by
  rw [fracField_eq]
  exact Nat.mod_lt _ (by norm_num)

/-- The exponent and fraction fields, read back from a magnitude that was put together from them. -/
theorem fields_ofNat {e f : Nat} (he : e < 2 ^ 11) (hf : f < 2 ^ 52) :
    expField (BitVec.ofNat 64 (e * 2 ^ 52 + f)) = e ∧ fracField (BitVec.ofNat 64 (e * 2 ^ 52 + f)) = f := by
  rw [expField_eq, fracField_eq, BitVec.toNat_ofNat]
  omega

@[simp] theorem signBit_withSign (s : Bool) (w : Word) : signBit (withSign s w) = s := by
  cases s <;> simp [withSign, signBit]

@[simp] theorem expField_withSign (s : Bool) (w : Word) : expField (withSign s w) = expField w := by
  have hmask : (0x7FFFFFFFFFFFFFFF#64).extractLsb' 52 11 = BitVec.allOnes 11 := by decide
  have hsign : (0x8000000000000000#64).extractLsb' 52 11 = 0#11 := by decide
  cases s
  · rw [withSign, if_neg (by decide), expField, BitVec.extractLsb'_and, hmask, BitVec.and_allOnes, expField]
  · rw [withSign, if_pos rfl, expField, BitVec.extractLsb'_or, hsign, BitVec.or_zero, expField]

@[simp] theorem fracField_withSign (s : Bool) (w : Word) : fracField (withSign s w) = fracField w := by
  have hmask : (0x7FFFFFFFFFFFFFFF#64).extractLsb' 0 52 = BitVec.allOnes 52 := by decide
  have hsign : (0x8000000000000000#64).extractLsb' 0 52 = 0#52 := by decide
  cases s
  · rw [withSign, if_neg (by decide), fracField, BitVec.extractLsb'_and, hmask, BitVec.and_allOnes, fracField]
  · rw [withSign, if_pos rfl, fracField, BitVec.extractLsb'_or, hsign, BitVec.or_zero, fracField]

@[simp] theorem isNaN_withSign (s : Bool) (w : Word) : isNaN (withSign s w) = isNaN w := by
  rw [isNaN, expField_withSign, fracField_withSign, isNaN]

/-- The lowest bit of an element is that of its significand. -/
theorem getLsbD_zero_eq_false (x : Word) (h : significand x % 2 = 0) : x.getLsbD 0 = false := by
  have hbit : x.getLsbD 0 = x.toNat.testBit 0 := rfl
  rw [hbit, Nat.testBit_zero, decide_eq_false_iff_not]
  rw [significand, fracField_eq] at h
  split at h <;> omega

/-- Clearing all but the sign leaves the zero of that sign. -/
theorem and_signMask (x : Word) : x &&& 0x8000000000000000#64 = withSign (signBit x) 0#64 := by
  apply BitVec.eq_of_getLsbD_eq
  intro i hi
  have hmask : ∀ i : Fin 64, (0x8000000000000000#64).getLsbD i.val = decide (i.val = 63) := by decide
  have hbit : (withSign (signBit x) 0#64).getLsbD i = (signBit x && decide (i = 63)) := by
    cases signBit x
    · simp [withSign]
    · simpa [withSign] using hmask ⟨i, hi⟩
  rw [BitVec.getLsbD_and, hbit, signBit, show (0x8000000000000000#64).getLsbD i = decide (i = 63) from hmask ⟨i, hi⟩]
  by_cases h : i = 63
  · rw [h]
  · rw [decide_eq_false h, Bool.and_false, Bool.and_false]

/-! ## What DAZ leaves of a class (R136) -/

/-- DAZ replaces a denormal by the zero of its sign. -/
theorem dazReplace_eq (daz : Bool) (x : Word) :
    dazReplace daz x = if daz && isDenormal x then withSign (signBit x) 0#64 else x := by
  rw [dazReplace, and_signMask]

@[simp] theorem isDenormal_withSign_zero (s : Bool) : isDenormal (withSign s 0#64) = false := by
  rw [isDenormal, fracField_withSign]
  exact Bool.and_false _

@[simp] theorem isDenormal_dazReplace (daz : Bool) (x : Word) :
    isDenormal (dazReplace daz x) = (!daz && isDenormal x) := by
  rw [dazReplace_eq]
  cases daz <;> cases h : isDenormal x <;> simp [h]

/-- DAZ leaves an element as it is, or replaces one whose exponent field is 0. -/
theorem dazReplace_cases (daz : Bool) (x : Word) :
    dazReplace daz x = x ∨ expField x = 0 ∧ dazReplace daz x = withSign (signBit x) 0#64 := by
  rw [dazReplace_eq]
  split
  · next h => exact .inr ⟨((isDenormal_iff x).1 (Bool.and_eq_true_iff.1 h).2).1, rfl⟩
  · exact .inl rfl

@[simp] theorem expField_dazReplace (daz : Bool) (x : Word) : expField (dazReplace daz x) = expField x := by
  rcases dazReplace_cases daz x with h | ⟨hexp, h⟩
  · rw [h]
  · rw [h, expField_withSign, hexp, expField_eq]
    rfl

theorem dazReplace_of_isNaN {x : Word} (daz : Bool) (h : isNaN x = true) : dazReplace daz x = x :=
  dazReplace_of_exp_max ((isNaN_iff x).1 h).1

theorem dazReplace_of_isInf {x : Word} (daz : Bool) (h : isInf x = true) : dazReplace daz x = x :=
  dazReplace_of_exp_max ((isInf_iff x).1 h).1

@[simp] theorem isNaN_dazReplace (daz : Bool) (x : Word) : isNaN (dazReplace daz x) = isNaN x := by
  rcases dazReplace_cases daz x with h | ⟨hexp, _⟩
  · rw [h]
  · rw [(not_inf_nan_of_exp_zero hexp).2, (not_inf_nan_of_exp_zero (by rwa [expField_dazReplace])).2]

@[simp] theorem isInf_dazReplace (daz : Bool) (x : Word) : isInf (dazReplace daz x) = isInf x := by
  rcases dazReplace_cases daz x with h | ⟨hexp, _⟩
  · rw [h]
  · rw [(not_inf_nan_of_exp_zero hexp).1, (not_inf_nan_of_exp_zero (by rwa [expField_dazReplace])).1]

@[simp] theorem isSNaN_dazReplace (daz : Bool) (x : Word) : isSNaN (dazReplace daz x) = isSNaN x := by
  cases h : isNaN x with
  | true => rw [dazReplace_of_isNaN daz h]
  | false => rw [isSNaN, isSNaN, isNaN_dazReplace, h, Bool.false_and, Bool.false_and]

@[simp] theorem isFinite_dazReplace (daz : Bool) (x : Word) : isFinite (dazReplace daz x) = isFinite x := by
  rw [Bool.eq_iff_iff, isFinite_iff, isFinite_iff, isInf_dazReplace, isNaN_dazReplace]

theorem isNaN_of_isInf {x : Word} (h : isInf x = true) : isNaN x = false := by
  simp [isNaN, ((isInf_iff x).1 h).2]

/-! ## The branches of the lane function (R135) -/

/-- The sign of the negated product (R139). -/
def negProductSign (x y : Word) : Bool := !(signBit x ^^ signBit y)

/-- Some operand is a NaN (R137). -/
def anyNaN (x y z : Word) : Bool := isNaN x || isNaN y || isNaN z

/-- Some operand is a denormal (R147). -/
def anyDenormal (x y z : Word) : Bool := isDenormal x || isDenormal y || isDenormal z

/-- Infinity times zero, or infinities of opposite sign in the sum (R138), NaNs left aside. -/
def invalidOperation (x y z : Word) : Bool :=
  (isInf x && isZero y) || (isZero x && isInf y) ||
    ((isInf x || isInf y) && isInf z && signBit z != negProductSign x y)

theorem anyNaN_iff {x y z : Word} : anyNaN x y z = true ↔ isNaN x = true ∨ isNaN y = true ∨ isNaN z = true := by
  simp [anyNaN, or_assoc]

theorem anyNaN_eq_false_iff {x y z : Word} :
    anyNaN x y z = false ↔ isNaN x = false ∧ isNaN y = false ∧ isNaN z = false := by
  simp [anyNaN, and_assoc]

theorem anyDenormal_iff {x y z : Word} :
    anyDenormal x y z = true ↔ isDenormal x = true ∨ isDenormal y = true ∨ isDenormal z = true := by
  simp [anyDenormal, or_assoc]

theorem invalidOperation_iff {x y z : Word} :
    invalidOperation x y z = true ↔ (isInf x = true ∧ isZero y = true) ∨ (isZero x = true ∧ isInf y = true) ∨
      ((isInf x = true ∨ isInf y = true) ∧ isInf z = true ∧ signBit z ≠ negProductSign x y) := by
  simp [invalidOperation, or_assoc, and_assoc]

@[simp] theorem negProductSign_dazReplace (daz : Bool) (x y : Word) :
    negProductSign (dazReplace daz x) (dazReplace daz y) = negProductSign x y := by
  simp [negProductSign]

@[simp] theorem anyNaN_dazReplace (daz : Bool) (x y z : Word) :
    anyNaN (dazReplace daz x) (dazReplace daz y) (dazReplace daz z) = anyNaN x y z := by
  simp [anyNaN]

@[simp] theorem anyDenormal_dazReplace (daz : Bool) (x y z : Word) :
    anyDenormal (dazReplace daz x) (dazReplace daz y) (dazReplace daz z) = (!daz && anyDenormal x y z) := by
  simp [anyDenormal, Bool.and_or_distrib_left]

/-- DAZ does not change which operand is the first NaN. -/
theorem firstNaN_dazReplace {daz : Bool} {x y z : Word} (h : anyNaN x y z = true) :
    firstNaN (dazReplace daz x) (dazReplace daz y) (dazReplace daz z) = firstNaN x y z := by
  rw [firstNaN, firstNaN, isNaN_dazReplace, isNaN_dazReplace]
  split
  · next hx => exact dazReplace_of_isNaN daz hx
  split
  · next hy => exact dazReplace_of_isNaN daz hy
  next hx hy =>
  exact dazReplace_of_isNaN daz (by simpa [anyNaN, hx, hy] using h)

theorem isNaN_firstNaN {x y z : Word} (h : anyNaN x y z = true) : isNaN (firstNaN x y z) = true := by
  rw [firstNaN]
  split
  · assumption
  split
  · assumption
  next hx hy => simpa [anyNaN, hx, hy] using h

section
variable {x y z : Word} {rc : Rounding} {ftz um om : Bool}

/-- The lane function with its conditions named (R149). -/
theorem fnmaddCore_eq :
    fnmaddCore x y z rc ftz um om =
      if anyNaN x y z then
        { result := some (quiet (firstNaN x y z))
          flags := { FpFlags.none with ie := isSNaN x || isSNaN y || isSNaN z } }
      else if invalidOperation x y z then
        { result := some indefinite, flags := { FpFlags.none with ie := true } }
      else if isInf x || isInf y then
        { result := some (withSign (negProductSign x y) infMagnitude)
          flags := { FpFlags.none with de := anyDenormal x y z } }
      else if isInf z then { result := some z, flags := { FpFlags.none with de := anyDenormal x y z } }
      else
        finiteSum (negProductSign x y) (exactNegProduct x y) (exactAddend z) (signBit z) rc ftz um om
          { FpFlags.none with de := anyDenormal x y z } := by
  rw [invalidOperation]
  cases h : (isInf x && isZero y) || (isZero x && isInf y) <;>
  · simp only [fnmaddCore, h]
    rfl

theorem fnmaddCore_of_anyNaN (h : anyNaN x y z = true) :
    fnmaddCore x y z rc ftz um om =
      { result := some (quiet (firstNaN x y z))
        flags := { FpFlags.none with ie := isSNaN x || isSNaN y || isSNaN z } } := by
  rw [fnmaddCore_eq, if_pos h]

theorem fnmaddCore_of_invalid (hn : anyNaN x y z = false) (hv : invalidOperation x y z = true) :
    fnmaddCore x y z rc ftz um om = { result := some indefinite, flags := { FpFlags.none with ie := true } } := by
  rw [fnmaddCore_eq, if_neg (Bool.eq_false_iff.1 hn), if_pos hv]

/-- An infinite factor makes the result the infinity of the negated product's sign. -/
theorem fnmaddCore_of_infinite_product (hn : anyNaN x y z = false) (hv : invalidOperation x y z = false)
    (h : isInf x = true ∨ isInf y = true) :
    fnmaddCore x y z rc ftz um om =
      { result := some (withSign (negProductSign x y) infMagnitude)
        flags := { FpFlags.none with de := anyDenormal x y z } } := by
  rw [fnmaddCore_eq, if_neg (Bool.eq_false_iff.1 hn), if_neg (Bool.eq_false_iff.1 hv), if_pos (Bool.or_eq_true_iff.2 h)]

/-- With finite factors nothing is invalid. -/
theorem invalidOperation_of_finite_factors (hx : isInf x = false) (hy : isInf y = false) :
    invalidOperation x y z = false := by
  simp [invalidOperation, hx, hy]

/-- With finite factors an infinite addend is the result. -/
theorem fnmaddCore_of_infinite_addend (hn : anyNaN x y z = false) (hx : isInf x = false) (hy : isInf y = false)
    (hz : isInf z = true) :
    fnmaddCore x y z rc ftz um om =
      { result := some z, flags := { FpFlags.none with de := anyDenormal x y z } } := by
  rw [fnmaddCore_eq, if_neg (Bool.eq_false_iff.1 hn),
    if_neg (Bool.eq_false_iff.1 (invalidOperation_of_finite_factors hx hy)), hx, hy, if_neg (by decide), if_pos hz]

end

theorem isFinite_of_not {x : Word} (hi : isInf x = false) (hn : isNaN x = false) : isFinite x = true :=
  (isFinite_iff x).2 ⟨hi, hn⟩

/-! ## Exchanging the factors (R131(f)) -/

theorem negProductSign_comm (x y : Word) : negProductSign x y = negProductSign y x := by
  rw [negProductSign, negProductSign, Bool.xor_comm]

theorem anyNaN_comm (x y z : Word) : anyNaN x y z = anyNaN y x z := by
  simp [anyNaN, Bool.or_comm (isNaN x)]

theorem anyDenormal_comm (x y z : Word) : anyDenormal x y z = anyDenormal y x z := by
  simp [anyDenormal, Bool.or_comm (isDenormal x)]

theorem invalidOperation_comm (x y z : Word) : invalidOperation x y z = invalidOperation y x z := by
  rw [Bool.eq_iff_iff, invalidOperation_iff, invalidOperation_iff, negProductSign_comm y x]
  tauto

theorem exactNegProduct_comm (x y : Word) : exactNegProduct x y = exactNegProduct y x := by
  rw [exactNegProduct, exactNegProduct, Bool.xor_comm, Nat.mul_comm (significand x), Nat.add_comm (scaleExp x)]

theorem firstNaN_comm {x y : Word} (z : Word) (h : ¬(isNaN x = true ∧ isNaN y = true)) :
    firstNaN x y z = firstNaN y x z := by
  rw [firstNaN, firstNaN]
  cases hx : isNaN x
  · rfl
  · rw [Bool.eq_false_iff.2 fun hy => h ⟨hx, hy⟩]
    rfl

/-- The lane function is symmetric in the factors unless both are NaNs. -/
theorem fnmaddCore_comm {x y : Word} (z : Word) (rc : Rounding) (ftz um om : Bool)
    (h : ¬(isNaN x = true ∧ isNaN y = true)) :
    fnmaddCore x y z rc ftz um om = fnmaddCore y x z rc ftz um om := by
  have hnan := anyNaN_comm x y z
  have hinv := invalidOperation_comm x y z
  cases hn : anyNaN x y z with
  | true =>
    rw [fnmaddCore_of_anyNaN hn, fnmaddCore_of_anyNaN (hnan ▸ hn), firstNaN_comm z h, Bool.or_comm (isSNaN x)]
  | false =>
    cases hv : invalidOperation x y z with
    | true => rw [fnmaddCore_of_invalid hn hv, fnmaddCore_of_invalid (hnan ▸ hn) (hinv ▸ hv)]
    | false =>
      by_cases hi : isInf x = true ∨ isInf y = true
      · rw [fnmaddCore_of_infinite_product hn hv hi,
          fnmaddCore_of_infinite_product (hnan ▸ hn) (hinv ▸ hv) hi.symm, negProductSign_comm, anyDenormal_comm]
      · simp only [not_or, Bool.not_eq_true] at hi
        obtain ⟨hx, hy⟩ := hi
        cases hz : isInf z with
        | true =>
          rw [fnmaddCore_of_infinite_addend hn hx hy hz, fnmaddCore_of_infinite_addend (hnan ▸ hn) hy hx hz,
            anyDenormal_comm]
        | false =>
          obtain ⟨hnx, hny, hnz⟩ := anyNaN_eq_false_iff.1 hn
          rw [fnmaddCore_finite (isFinite_of_not hx hnx) (isFinite_of_not hy hny) (isFinite_of_not hz hnz),
            fnmaddCore_finite (isFinite_of_not hy hny) (isFinite_of_not hx hnx) (isFinite_of_not hz hnz),
            exactNegProduct_comm, Bool.xor_comm, Bool.or_comm (isDenormal x)]

/-! ## NaN, invalid and infinite lanes: the statements -/

/-- The replacement that O48 writes out is the model's. -/
theorem dazReplace_true_eq (v : Word) :
    dazReplace true v =
      if expField v = 0 ∧ fracField v ≠ 0 then (if v.getLsbD 63 then 0x8000000000000000#64 else 0#64) else v := by
  rw [dazReplace_eq, Bool.true_and]
  refine if_congr (isDenormal_iff v) ?_ rfl
  rw [← signBit]
  cases signBit v <;> rfl

/-- Settles O49: the NaN branch comes first, and each mnemonic hands its operands over in the order of R134. -/
theorem nanSelection : Obligations.NanSelection := by
  have hnan : ∀ (x y z : Word) (rc : Rounding) (daz ftz um om : Bool),
      isNaN x = true ∨ isNaN y = true ∨ isNaN z = true →
      fnmadd64 x y z rc daz ftz um om =
        { result := some (quiet (firstNaN x y z))
          flags := { FpFlags.none with ie := isSNaN x || isSNaN y || isSNaN z } } := by
    intro x y z rc daz ftz um om h
    rw [fnmadd64, fnmaddCore_of_anyNaN (by rwa [anyNaN_dazReplace, anyNaN_iff]), firstNaN_dazReplace (anyNaN_iff.2 h)]
    simp only [isSNaN_dazReplace]
  refine ⟨hnan, fun m rc sae a b c => ?_⟩
  simp only [laneOf, roles]
  refine ⟨fun ha => ?_, fun ha hc => ?_, fun ha hc hb => ?_, fun hb => ⟨?_, ?_⟩, fun hb ha => ?_, fun hb ha hc => ?_,
    fun hb hc => ?_, fun hb hc ha => ?_⟩ <;>
  · rw [hnan _ _ _ _ _ _ _ _ (by simp [*])]
    simp [firstNaN, quiet, *]

/-- Settles O50: both cases are `invalidOperation` of the operands after DAZ. -/
theorem invalidOperations : Obligations.InvalidOperations := by
  rintro x y z rc daz ftz um om x' y' rfl rfl hx hy hz h
  refine fnmaddCore_of_invalid (by rw [anyNaN_dazReplace]; exact anyNaN_eq_false_iff.2 ⟨hx, hy, hz⟩) ?_
  rw [invalidOperation_iff]
  simp only [isInf_dazReplace, signBit_dazReplace, negProductSign_dazReplace]
  rcases h with h | h | ⟨hinf, hz, hs⟩
  · exact .inl h
  · exact .inr (.inl h)
  · exact .inr (.inr ⟨hinf.imp And.left And.left, hz, hs⟩)

/-- Settles O51: with the invalid cases excluded, the two infinite branches. -/
theorem infiniteResults : Obligations.InfiniteResults := by
  rintro x y z rc daz ftz um om sp rfl hx hy hz hxy hyx
  have hn : anyNaN (dazReplace daz x) (dazReplace daz y) (dazReplace daz z) = false := by
    rw [anyNaN_dazReplace]
    exact anyNaN_eq_false_iff.2 ⟨hx, hy, hz⟩
  constructor
  · intro hinf hsign
    have hv : invalidOperation (dazReplace daz x) (dazReplace daz y) (dazReplace daz z) = false := by
      rw [Bool.eq_false_iff, Ne, invalidOperation_iff]
      simp only [isInf_dazReplace, signBit_dazReplace, negProductSign_dazReplace]
      rintro (⟨hi, h0⟩ | ⟨h0, hi⟩ | ⟨_, hi, hs⟩)
      · exact Bool.false_ne_true ((hxy hi).symm.trans h0)
      · exact Bool.false_ne_true ((hyx hi).symm.trans h0)
      · exact hs (hsign hi)
    rw [fnmadd64, fnmaddCore_of_infinite_product hn hv (by simpa using hinf), anyDenormal_dazReplace,
      negProductSign_dazReplace, negProductSign, signBit, signBit]
    cases x.getLsbD 63 <;> cases y.getLsbD 63 <;> rfl
  · intro hxi hyi hzi
    rw [fnmadd64, fnmaddCore_of_infinite_addend hn (by simpa) (by simpa) (by simpa), anyDenormal_dazReplace,
      dazReplace_of_isInf daz hzi]
    rfl

/-- Settles O60: the kernel evaluates the lane function on the spec's operands. -/
theorem workedLaneValues : Obligations.WorkedLaneValues :=
  ⟨by decide +kernel, by decide +kernel, by decide +kernel, by decide +kernel, by decide +kernel, by decide +kernel⟩

/-! ## Exact values as integers (R133, R140) -/

/-- The unit of the model's integers, 2^-2148. -/
def unit : ℚ := 2 ^ (-2148 : ℤ)

theorem unit_pos : 0 < unit := zpow_pos (by norm_num) _

/-- A power of two counted in units. -/
theorem two_pow_mul_unit (n : ℕ) : ((2 ^ n : ℕ) : ℚ) * unit = 2 ^ ((n : ℤ) - 2148) := by
  rw [unit, Nat.cast_pow, Nat.cast_ofNat, ← zpow_natCast, ← zpow_add₀ (by norm_num), sub_eq_add_neg]

theorem intCast_mul_unit_le {a b : ℤ} : (a : ℚ) * unit ≤ b * unit ↔ a ≤ b := by
  rw [mul_le_mul_iff_left₀ unit_pos, Int.cast_le]

theorem intCast_mul_unit_inj {a b : ℤ} : (a : ℚ) * unit = b * unit ↔ a = b := by
  rw [mul_left_inj' unit_pos.ne', Int.cast_inj]

theorem abs_intCast_mul_unit (a : ℤ) : |(a : ℚ) * unit| = a.natAbs * unit := by
  rw [abs_mul, abs_of_pos unit_pos, Nat.cast_natAbs, Int.cast_abs]

theorem abs_intCast_mul_unit_sub (a b : ℤ) : |(a : ℚ) * unit - b * unit| = (|a - b| : ℤ) * unit := by
  rw [← sub_mul, abs_mul, abs_of_pos unit_pos, Int.cast_abs, Int.cast_sub]

/-- An integer is its magnitude under its sign. -/
theorem signed_natAbs (t : ℤ) : signed (decide (t < 0)) t.natAbs = t := by
  by_cases h : t < 0
  · rw [decide_eq_true h, signed, if_pos rfl]
    omega
  · rw [decide_eq_false h, signed, if_neg (by decide)]
    omega

/-- The magnitude of a finite element in units (R140). -/
def magnitude (x : Word) : Nat := significand x * 2 ^ (scaleExp x + 1074)

theorem exactAddend_eq (x : Word) : exactAddend x = signed (signBit x) (magnitude x) := rfl

/-- The factor that a sign contributes. -/
def signFactor (s : Bool) : ℚ := if s then -1 else 1

theorem intCast_signed (s : Bool) (m : Nat) : ((signed s m : ℤ) : ℚ) = signFactor s * m := by
  cases s <;> simp [signed, signFactor]

theorem signFactor_negProduct (a b : Bool) : signFactor (!(a ^^ b)) = -(signFactor a * signFactor b) := by
  cases a <;> cases b <;> simp [signFactor]

/-- The table of R133 in terms of significand and exponent. -/
theorem value_eq_significand (x : Word) :
    value x = signFactor (signBit x) * (significand x * 2 ^ ((scaleExp x : ℤ) - 1074)) := by
  rw [value, ← signBit, ← expField, ← fracField, signFactor, significand, scaleExp]
  by_cases h : expField x = 0
  · rw [if_pos h, if_pos h, h]
    norm_num
  · rw [if_neg h, if_neg h, Nat.cast_add, Nat.cast_pow, Nat.cast_ofNat, Nat.cast_sub (Nat.one_le_iff_ne_zero.2 h),
      Nat.cast_one, sub_sub]
    norm_num

theorem two_zpow_eq_natCast_mul (n : ℕ) (a b : ℤ) (h : a = n + b) : (2 : ℚ) ^ a = ((2 ^ n : ℕ) : ℚ) * 2 ^ b := by
  rw [h, zpow_add₀ (by norm_num), zpow_natCast, Nat.cast_pow, Nat.cast_ofNat]

theorem value_eq (x : Word) : value x = (exactAddend x : ℚ) * unit := by
  rw [value_eq_significand, exactAddend_eq, intCast_signed, magnitude, Nat.cast_mul, unit,
    two_zpow_eq_natCast_mul (scaleExp x + 1074) (scaleExp x - 1074) (-2148) (by push_cast; ring)]
  ring

theorem neg_value_mul_value (x y : Word) : -(value x * value y) = (exactNegProduct x y : ℚ) * unit := by
  rw [value_eq_significand, value_eq_significand, exactNegProduct, intCast_signed, signFactor_negProduct, Nat.cast_mul,
    Nat.cast_mul, unit]
  have hscale : (2 : ℚ) ^ ((scaleExp x : ℤ) - 1074) * 2 ^ ((scaleExp y : ℤ) - 1074) =
      ((2 ^ (scaleExp x + scaleExp y) : ℕ) : ℚ) * 2 ^ (-2148 : ℤ) := by
    rw [← zpow_add₀ (by norm_num), two_zpow_eq_natCast_mul (scaleExp x + scaleExp y) _ (-2148) (by push_cast; ring)]
  linear_combination
    -(signFactor (signBit x) * signFactor (signBit y) * significand x * significand y) * hscale

/-- The exact value of `-(x*y)+z` in units (R140). -/
def exactSum (x y z : Word) : ℤ := exactNegProduct x y + exactAddend z

theorem exactValue_eq (x y z : Word) : exactValue x y z = (exactSum x y z : ℚ) * unit := by
  rw [exactValue, neg_value_mul_value, value_eq, exactSum, Int.cast_add, add_mul]

theorem exactValue_eq_zero_iff {x y z : Word} : exactValue x y z = 0 ↔ exactSum x y z = 0 := by
  rw [exactValue_eq, mul_eq_zero, or_iff_left unit_pos.ne', Int.cast_eq_zero]

theorem exactValue_neg_iff {x y z : Word} : exactValue x y z < 0 ↔ exactSum x y z < 0 := by
  rw [exactValue_eq, ← Int.cast_lt_zero (R := ℚ), mul_neg_iff]
  simp [unit_pos, unit_pos.not_gt]

theorem value_eq_exactValue_iff {w x y z : Word} : value w = exactValue x y z ↔ exactAddend w = exactSum x y z := by
  rw [value_eq, exactValue_eq, intCast_mul_unit_inj]

theorem value_mul_value_eq_zero_iff {x y : Word} : value x * value y = 0 ↔ exactNegProduct x y = 0 := by
  rw [← neg_eq_zero, neg_value_mul_value, mul_eq_zero, or_iff_left unit_pos.ne', Int.cast_eq_zero]

theorem value_eq_zero_iff {x : Word} : value x = 0 ↔ exactAddend x = 0 := by
  rw [value_eq, mul_eq_zero, or_iff_left unit_pos.ne', Int.cast_eq_zero]

theorem abs_exactValue (x y z : Word) : |exactValue x y z| = (exactSum x y z).natAbs * unit := by
  rw [exactValue_eq, abs_intCast_mul_unit]

section
variable {x y z : Word} {a b : ℤ} {A B : ℕ}

/-- Comparing the exact value with a power of two is comparing integers. -/
theorem two_zpow_le_abs_exactValue (ha : a = A - 2148) :
    (2 : ℚ) ^ a ≤ |exactValue x y z| ↔ 2 ^ A ≤ (exactSum x y z).natAbs := by
  rw [abs_exactValue, ha, ← two_pow_mul_unit, mul_le_mul_iff_left₀ unit_pos, Nat.cast_le]

theorem abs_exactValue_lt_two_zpow (ha : a = A - 2148) :
    |exactValue x y z| < (2 : ℚ) ^ a ↔ (exactSum x y z).natAbs < 2 ^ A := by
  rw [← not_le, two_zpow_le_abs_exactValue ha, not_le]

theorem two_zpow_sub_le_abs_exactValue (ha : a = A - 2148) (hb : b = B - 2148) :
    (2 : ℚ) ^ a - 2 ^ b ≤ |exactValue x y z| ↔ 2 ^ A ≤ (exactSum x y z).natAbs + 2 ^ B := by
  rw [abs_exactValue, ha, hb, ← two_pow_mul_unit, ← two_pow_mul_unit, sub_le_iff_le_add, ← add_mul,
    mul_le_mul_iff_left₀ unit_pos, ← Nat.cast_add, Nat.cast_le]

theorem two_zpow_sub_lt_abs_exactValue (ha : a = A - 2148) (hb : b = B - 2148) :
    (2 : ℚ) ^ a - 2 ^ b < |exactValue x y z| ↔ 2 ^ A < (exactSum x y z).natAbs + 2 ^ B := by
  rw [abs_exactValue, ha, hb, ← two_pow_mul_unit, ← two_pow_mul_unit, sub_lt_iff_lt_add, ← add_mul,
    mul_lt_mul_iff_left₀ unit_pos, ← Nat.cast_add, Nat.cast_lt]

end

/-! ## The finite lane -/

/-- A lane with finite operands: an exact zero (R141), or its exact value delivered. -/
theorem fnmaddCore_of_finite {x y z : Word} (hx : isFinite x = true) (hy : isFinite y = true) (hz : isFinite z = true)
    (rc : Rounding) (ftz um om : Bool) :
    fnmaddCore x y z rc ftz um om =
      if exactSum x y z = 0 then
        { result := some (withSign (if exactNegProduct x y = 0 ∧ exactAddend z = 0 ∧ negProductSign x y = signBit z
            then negProductSign x y else rc == .down) 0#64)
          flags := { FpFlags.none with de := anyDenormal x y z } }
      else
        deliver (decide (exactSum x y z < 0)) (exactSum x y z).natAbs rc ftz um om
          { FpFlags.none with de := anyDenormal x y z } :=
  fnmaddCore_finite hx hy hz rc ftz um om

/-- Settles O52: the zero branch of the finite lane. -/
theorem exactZeroResults : Obligations.ExactZeroResults := by
  rintro x y z rc daz ftz um om x' y' z' sp hx' hy' hz' rfl hx hy hz hzero
  have hsign : negProductSign x' y' = !(x.getLsbD 63 ^^ y.getLsbD 63) := by
    rw [hx', hy', negProductSign_dazReplace]
    rfl
  have hsignz : signBit z' = z.getLsbD 63 := by
    rw [hz', signBit_dazReplace]
    rfl
  rw [fnmadd64, ← hx', ← hy', ← hz',
    fnmaddCore_of_finite (by rwa [hx', isFinite_dazReplace]) (by rwa [hy', isFinite_dazReplace])
      (by rwa [hz', isFinite_dazReplace]), if_pos (exactValue_eq_zero_iff.1 hzero), hsign, hsignz]
  simp only [value_mul_value_eq_zero_iff, value_eq_zero_iff]
  split
  · cases !(x.getLsbD 63 ^^ y.getLsbD 63) <;> rfl
  · cases rc <;> rfl

/-! ## Rounding a magnitude (R142) -/

/-- A directed rounding that goes away from zero. -/
def Outward (rc : Rounding) (s : Bool) : Prop := (rc = .down ∧ s = true) ∨ (rc = .up ∧ s = false)

theorem roundsUp_iff {rc : Rounding} {s : Bool} {n rem q : Nat} :
    roundsUp rc s n rem q = true ↔
      Outward rc s ∨ rc = .nearest ∧ (q < 2 * rem ∨ 2 * rem = q ∧ n % 2 = 1) := by
  cases rc <;> simp [roundsUp, Outward]

/-- The multiple of `2 ^ k` at or below a magnitude. -/
def floorTo (m k : Nat) : Nat := m / 2 ^ k * 2 ^ k

theorem floorTo_add_mod (m k : Nat) : floorTo m k + m % 2 ^ k = m := Nat.div_add_mod' m (2 ^ k)

theorem mod_two_pow_lt (m k : Nat) : m % 2 ^ k < 2 ^ k := Nat.mod_lt _ (Nat.two_pow_pos k)

theorem two_pow_dvd_floorTo (m k : Nat) : 2 ^ k ∣ floorTo m k := Nat.dvd_mul_left _ _

theorem le_floorTo_iff {a m k : Nat} (h : 2 ^ k ∣ a) : a ≤ floorTo m k ↔ a ≤ m := by
  obtain ⟨c, rfl⟩ := h
  rw [floorTo, Nat.mul_comm, Nat.mul_le_mul_right_iff (Nat.two_pow_pos k), Nat.le_div_iff_mul_le (Nat.two_pow_pos k)]

/-- A multiple of `2 ^ k` is not strictly between the two neighbours of a magnitude. -/
theorem le_floorTo_or_of_dvd {a m k : Nat} (h : 2 ^ k ∣ a) : a ≤ floorTo m k ∨ floorTo m k + 2 ^ k ≤ a := by
  obtain ⟨c, rfl⟩ := h
  rw [floorTo, Nat.mul_comm, ← Nat.add_one_mul, Nat.mul_le_mul_right_iff (Nat.two_pow_pos k),
    Nat.mul_le_mul_right_iff (Nat.two_pow_pos k)]
  omega

/-- The three answers of `roundMag`: the magnitude itself, the multiple of `2 ^ k` below it, the one above it. -/
theorem roundMag_cases (m k : Nat) (rc : Rounding) (s : Bool) :
    (m % 2 ^ k = 0 ∧ roundMag m k rc s = (m, false)) ∨
    (m % 2 ^ k ≠ 0 ∧ roundsUp rc s (m / 2 ^ k) (m % 2 ^ k) (2 ^ k) = false ∧
      roundMag m k rc s = (floorTo m k, true)) ∨
    (m % 2 ^ k ≠ 0 ∧ roundsUp rc s (m / 2 ^ k) (m % 2 ^ k) (2 ^ k) = true ∧
      roundMag m k rc s = (floorTo m k + 2 ^ k, true)) := by
  rw [roundMag]
  by_cases h : m % 2 ^ k = 0
  · exact .inl ⟨h, if_pos h⟩
  · rw [if_neg h]
    cases hu : roundsUp rc s (m / 2 ^ k) (m % 2 ^ k) (2 ^ k) with
    | false => exact .inr (.inl ⟨h, rfl, rfl⟩)
    | true => exact .inr (.inr ⟨h, rfl, by rw [if_pos rfl, Nat.add_one_mul, floorTo]⟩)

/-- The rounded magnitude is one of the two neighbours, the upper one only if the magnitude is not a multiple itself. -/
theorem roundMag_fst_cases (m k : Nat) (rc : Rounding) (s : Bool) :
    (roundMag m k rc s).1 = floorTo m k ∨ m % 2 ^ k ≠ 0 ∧ (roundMag m k rc s).1 = floorTo m k + 2 ^ k := by
  rcases roundMag_cases m k rc s with ⟨hm, h⟩ | ⟨_, _, h⟩ | ⟨hm, _, h⟩
  · have := floorTo_add_mod m k
    rw [h]
    exact .inl (by dsimp only; omega)
  · rw [h]
    exact .inl rfl
  · rw [h]
    exact .inr ⟨hm, rfl⟩

/-- Rounding stays at or above every multiple of the quantum that the magnitude reaches. -/
theorem le_roundMag {a m k : Nat} {rc : Rounding} {s : Bool} (hdvd : 2 ^ k ∣ a) (h : a ≤ m) :
    a ≤ (roundMag m k rc s).1 := by
  have hfloor := (le_floorTo_iff hdvd).2 h
  rcases roundMag_fst_cases m k rc s with h | ⟨_, h⟩ <;> omega

/-- Rounding stays at or below every multiple of the quantum that bounds the magnitude. -/
theorem roundMag_le_of_dvd {a m k : Nat} {rc : Rounding} {s : Bool} (hdvd : 2 ^ k ∣ a) (h : m ≤ a) :
    (roundMag m k rc s).1 ≤ a := by
  have hgap := le_floorTo_or_of_dvd (m := m) hdvd
  have hmod := floorTo_add_mod m k
  rcases roundMag_fst_cases m k rc s with h | ⟨hne, h⟩ <;> omega

theorem two_pow_dvd_roundMag (m k : Nat) (rc : Rounding) (s : Bool) : 2 ^ k ∣ (roundMag m k rc s).1 := by
  rcases roundMag_fst_cases m k rc s with h | ⟨_, h⟩
  · rw [h]
    exact two_pow_dvd_floorTo m k
  · rw [h]
    exact Nat.dvd_add (two_pow_dvd_floorTo m k) (dvd_refl _)

/-- Rounding reports inexactness exactly when it moved the magnitude. -/
theorem roundMag_inexact_iff {m k : Nat} {rc : Rounding} {s : Bool} :
    (roundMag m k rc s).2 = true ↔ (roundMag m k rc s).1 ≠ m := by
  have hmod := floorTo_add_mod m k
  have hlt := mod_two_pow_lt m k
  rcases roundMag_cases m k rc s with ⟨_, h⟩ | ⟨hm, _, h⟩ | ⟨hm, _, h⟩
  · simp [h]
  · simp only [h, true_iff]
    omega
  · simp only [h, true_iff]
    omega

/-! ## Rounding and the numbers beside a magnitude -/

/-- Not strictly between the two neighbours of the magnitude `m`. -/
def OffGap (m k : Nat) (a : ℤ) : Prop := a ≤ floorTo m k ∨ ((floorTo m k + 2 ^ k : Nat) : ℤ) ≤ a

section
variable {m k : Nat} {rc : Rounding} {s : Bool} {a : ℤ}

/-- A directed rounding that is not outward answers the greatest such number not above the magnitude. -/
theorem roundMag_of_inward (hrc : rc ≠ .nearest) (hin : ¬Outward rc s) :
    (roundMag m k rc s).1 ≤ m ∧ ∀ a : ℤ, OffGap m k a → a ≤ m → a ≤ (roundMag m k rc s).1 := by
  have hmod := floorTo_add_mod m k
  have hlt := mod_two_pow_lt m k
  rcases roundMag_cases m k rc s with ⟨_, h⟩ | ⟨_, _, h⟩ | ⟨_, hu, _⟩
  · rw [h]
    exact ⟨le_rfl, fun _ _ => id⟩
  · rw [h]
    dsimp only
    refine ⟨by omega, fun a hgap => ?_⟩
    rw [OffGap] at hgap
    omega
  · exact absurd (roundsUp_iff.1 hu) (not_or.2 ⟨hin, fun h => hrc h.1⟩)

/-- Rounding outward answers the least such number not below the magnitude. -/
theorem roundMag_of_outward (hout : Outward rc s) :
    m ≤ (roundMag m k rc s).1 ∧ ∀ a : ℤ, OffGap m k a → m ≤ a → (roundMag m k rc s).1 ≤ a := by
  have hmod := floorTo_add_mod m k
  have hlt := mod_two_pow_lt m k
  rcases roundMag_cases m k rc s with ⟨_, h⟩ | ⟨_, hu, _⟩ | ⟨hm, _, h⟩
  · rw [h]
    exact ⟨le_rfl, fun _ _ => id⟩
  · rw [roundsUp_iff.2 (.inl hout)] at hu
    cases hu
  · rw [h]
    dsimp only
    refine ⟨by omega, fun a hgap => ?_⟩
    rw [OffGap] at hgap
    omega

theorem roundsUp_nearest {n rem q : Nat} :
    roundsUp .nearest s n rem q = true ↔ q < 2 * rem ∨ 2 * rem = q ∧ n % 2 = 1 := by
  simp [roundsUp_iff, Outward]

/-- Rounding to nearest answers a number at the least distance. -/
theorem roundMag_nearest (hgap : OffGap m k a) : |((roundMag m k .nearest s).1 : ℤ) - m| ≤ |a - m| := by
  have hmod := floorTo_add_mod m k
  rw [OffGap] at hgap
  rw [Int.abs_eq_natAbs, Int.abs_eq_natAbs]
  rcases roundMag_cases m k .nearest s with ⟨_, h⟩ | ⟨_, hu, h⟩ | ⟨_, hu, h⟩
  · rw [h]
    dsimp only
    omega
  · rw [Bool.eq_false_iff, Ne, roundsUp_nearest] at hu
    rw [h]
    dsimp only
    omega
  · rw [roundsUp_nearest] at hu
    rw [h]
    dsimp only
    omega

/-- When another number is as near as the one rounded to, that one is an even multiple of the quantum. -/
theorem roundMag_nearest_even (hgap : OffGap m k a) (hne : a ≠ (roundMag m k .nearest s).1)
    (htie : |a - m| = |((roundMag m k .nearest s).1 : ℤ) - m|) :
    (roundMag m k .nearest s).1 / 2 ^ k % 2 = 0 := by
  have hmod := floorTo_add_mod m k
  have hdiv : floorTo m k / 2 ^ k = m / 2 ^ k := Nat.mul_div_cancel _ (Nat.two_pow_pos k)
  rw [OffGap] at hgap
  rw [Int.abs_eq_natAbs, Int.abs_eq_natAbs] at htie
  rcases roundMag_cases m k .nearest s with ⟨_, h⟩ | ⟨_, hu, h⟩ | ⟨_, hu, h⟩
  · rw [h] at hne htie
    dsimp only at hne htie
    omega
  · rw [Bool.eq_false_iff, Ne, roundsUp_nearest] at hu
    rw [h] at hne htie ⊢
    dsimp only at hne htie ⊢
    rw [hdiv]
    omega
  · rw [roundsUp_nearest] at hu
    rw [h] at hne htie ⊢
    dsimp only at hne htie ⊢
    rw [Nat.add_div_right _ (Nat.two_pow_pos k), hdiv]
    omega

end

/-! ## The format's grid (R133, R143(c)) -/

/-- The exponent of the format's spacing at a magnitude: 53 bits, but nothing finer than 2^-1074. -/
def gridExp (m : Nat) : Nat := max (m.log2 - 52) 1074

theorem le_gridExp (m : Nat) : 1074 ≤ gridExp m := le_max_right _ _

theorem minNormal_eq : minNormal = 2 ^ 1126 := rfl

theorem overflowBound_eq : overflowBound = 2 ^ 3172 := rfl

theorem minNormal_pos : 0 < minNormal := by
  rw [minNormal_eq]
  positivity

/-- `Nat.log2_lt` with Mathlib's power, so that no literal exponent is evaluated. -/
theorem log2_lt_iff {m n : Nat} (hm : m ≠ 0) : m.log2 < n ↔ m < 2 ^ n := Nat.log2_lt hm

theorem gridExp_of_lt {m : Nat} (h : m < minNormal) : gridExp m = 1074 := by
  rw [gridExp]
  rcases Nat.eq_zero_or_pos m with rfl | hm
  · rfl
  · rw [minNormal_eq, ← log2_lt_iff hm.ne'] at h
    omega

theorem le_log2_of_minNormal_le {m : Nat} (h : minNormal ≤ m) : 1126 ≤ m.log2 := by
  have hm := (minNormal_pos.trans_le h).ne'
  rw [← Nat.not_lt] at h
  rw [minNormal_eq, ← log2_lt_iff hm] at h
  exact Nat.not_lt.1 h

theorem log2_lt_of_lt_overflowBound {m : Nat} (hm : m ≠ 0) (h : m < overflowBound) : m.log2 < 3172 := by
  rwa [overflowBound_eq, ← log2_lt_iff hm] at h

theorem gridExp_of_le {m : Nat} (h : minNormal ≤ m) : gridExp m = m.log2 - 52 := by
  have := le_log2_of_minNormal_le h
  rw [gridExp]
  omega

theorem le_two_pow_gridExp (m : Nat) : m ≤ 2 ^ (53 + gridExp m) := by
  have hk : m.log2 - 52 ≤ gridExp m := le_max_left _ _
  calc m ≤ 2 ^ (m.log2 + 1) := Nat.lt_log2_self.le
    _ ≤ 2 ^ (53 + gridExp m) := Nat.pow_le_pow_right Nat.two_pos (by omega)

theorem gridExp_mono {a b : Nat} (h : a ≤ b) : gridExp a ≤ gridExp b := by
  have := Nat.log_mono_right (b := 2) h
  rw [← Nat.log2_eq_log_two, ← Nat.log2_eq_log_two] at this
  exact max_le_max (Nat.sub_le_sub_right this _) le_rfl

theorem significand_lt (x : Word) : significand x < 2 ^ 53 := by
  have := fracField_lt x
  rw [significand]
  split <;> omega

/-- No element of the format lies strictly between the two grid points beside a magnitude. -/
theorem magnitude_offGap (m : Nat) (v : Word) : OffGap m (gridExp m) (magnitude v) := by
  have hgap : magnitude v ≤ floorTo m (gridExp m) ∨ floorTo m (gridExp m) + 2 ^ gridExp m ≤ magnitude v := by
    rcases Nat.lt_or_ge (scaleExp v + 1074) (gridExp m) with hfine | hcoarse
    · have hk : m.log2 = 52 + gridExp m := by
        have : gridExp m = max (m.log2 - 52) 1074 := rfl
        omega
      have hm : m ≠ 0 := by
        rintro rfl
        rw [Nat.log2_zero] at hk
        omega
      refine .inl (calc
        magnitude v ≤ 2 ^ 53 * 2 ^ (scaleExp v + 1074) := Nat.mul_le_mul_right _ (significand_lt v).le
        _ = 2 ^ (53 + (scaleExp v + 1074)) := (pow_add ..).symm
        _ ≤ 2 ^ m.log2 := Nat.pow_le_pow_right Nat.two_pos (by omega)
        _ ≤ floorTo m (gridExp m) := ?_)
      exact (le_floorTo_iff (Nat.pow_dvd_pow 2 (by omega))).2 (Nat.log2_self_le hm)
    · exact le_floorTo_or_of_dvd ((Nat.pow_dvd_pow 2 hcoarse).trans (Nat.dvd_mul_left _ _))
  exact hgap.imp Int.ofNat_le.2 Int.ofNat_le.2

/-- An integer as seen along a sign: magnitudes of that sign are positive. -/
def along (s : Bool) (a : ℤ) : ℤ := if s then -a else a

@[simp] theorem along_signed (s : Bool) (m : Nat) : along s (signed s m) = m := by
  cases s <;> simp [along, signed]

/-- Seen along a sign, a signed magnitude is that magnitude or its opposite. -/
theorem along_signed_cases (s b : Bool) (n : Nat) : along s (signed b n) = n ∨ along s (signed b n) = -(n : ℤ) := by
  cases s <;> cases b <;> simp [along, signed]

theorem along_le_along {s : Bool} {a b : ℤ} : along s a ≤ along s b ↔ if s then b ≤ a else a ≤ b := by
  cases s <;> simp [along]

theorem along_inj {s : Bool} {a b : ℤ} : along s a = along s b ↔ a = b := by
  cases s <;> simp [along]

theorem abs_along_sub_along (s : Bool) (a b : ℤ) : |along s a - along s b| = |a - b| := by
  cases s
  · rfl
  · rw [along, along, if_pos rfl, if_pos rfl, neg_sub_neg, abs_sub_comm]

/-- The gap holds no element of either sign. -/
theorem along_offGap (m : Nat) (s : Bool) (v : Word) : OffGap m (gridExp m) (along s (exactAddend v)) := by
  have hgap := magnitude_offGap m v
  rcases along_signed_cases s (signBit v) (magnitude v) with h | h
  · rwa [exactAddend_eq, h]
  · rw [exactAddend_eq, h]
    exact .inl (by omega)

/-! ## Encoding a magnitude of the grid (R149) -/

/-- The magnitude is a number of the format, its range left aside. -/
def OnGrid (r : Nat) : Prop := 2 ^ gridExp r ∣ r

/-- At most 53 bits at 2^-1074 or coarser are on the grid. -/
theorem onGrid_of_dvd {r k : Nat} (hk : 1074 ≤ k) (hdvd : 2 ^ k ∣ r) (hle : r ≤ 2 ^ (53 + k)) : OnGrid r := by
  rcases Nat.lt_or_ge r (2 ^ (53 + k)) with hlt | hge
  · refine (Nat.pow_dvd_pow 2 ?_).trans hdvd
    rw [gridExp]
    rcases Nat.eq_zero_or_pos r with rfl | hr
    · simpa using hk
    · have := (Nat.log2_lt hr.ne').2 hlt
      omega
  · rw [OnGrid, gridExp, hle.antisymm hge, Nat.log2_two_pow]
    exact Nat.pow_dvd_pow 2 (by omega)

@[simp] theorem signBit_enc (s : Bool) (r : Nat) : signBit (enc s r) = s := signBit_withSign ..

/-- A magnitude below 2^-1022 is encoded with exponent field 0. -/
theorem enc_fields_of_lt {s : Bool} {r : Nat} (h : r < minNormal) :
    expField (enc s r) = 0 ∧ fracField (enc s r) = r / 2 ^ 1074 := by
  have hf : r / 2 ^ 1074 < 2 ^ 52 := by
    rwa [Nat.div_lt_iff_lt_mul (by positivity), ← pow_add, Nat.add_comm, ← minNormal_eq]
  have := fields_ofNat (e := 0) (by norm_num) hf
  rw [Nat.zero_mul, Nat.zero_add] at this
  rwa [enc, if_pos h, expField_withSign, fracField_withSign]

/-- The leading 53 bits of a magnitude. -/
theorem leading_bits {r : Nat} (h : 52 ≤ r.log2) :
    2 ^ 52 ≤ r / 2 ^ (r.log2 - 52) ∧ r / 2 ^ (r.log2 - 52) < 2 ^ 53 := by
  have hr : r ≠ 0 := by
    rintro rfl
    rw [Nat.log2_zero] at h
    omega
  rw [Nat.le_div_iff_mul_le (Nat.two_pow_pos _), Nat.div_lt_iff_lt_mul (Nat.two_pow_pos _), ← pow_add, ← pow_add,
    show 52 + (r.log2 - 52) = r.log2 by omega, show 53 + (r.log2 - 52) = r.log2 + 1 by omega]
  exact ⟨Nat.log2_self_le hr, Nat.lt_log2_self⟩

/-- A larger magnitude has the exponent field that R149 names and the leading bits but one as fraction. -/
theorem enc_fields_of_le {s : Bool} {r : Nat} (h : minNormal ≤ r) (hlt : r < overflowBound) :
    expField (enc s r) = r.log2 - 1125 ∧ fracField (enc s r) = r / 2 ^ (r.log2 - 52) - 2 ^ 52 := by
  have hlog := le_log2_of_minNormal_le h
  have hlog' : r.log2 < 3172 := log2_lt_of_lt_overflowBound (minNormal_pos.trans_le h).ne' hlt
  have hbits := leading_bits (r := r) (by omega)
  rw [enc, if_neg h.not_gt, expField_withSign, fracField_withSign]
  exact fields_ofNat (by omega) (by omega)

section
variable {s : Bool} {r : Nat}

theorem isFinite_of_expField_lt {x : Word} (h : expField x < 2047) : isFinite x = true :=
  bne_iff_ne.2 (Nat.ne_of_lt h)

theorem isFinite_enc (h : r < overflowBound) : isFinite (enc s r) = true := by
  refine isFinite_of_expField_lt ?_
  rcases Nat.lt_or_ge r minNormal with hr | hr
  · rw [(enc_fields_of_lt hr).1]
    norm_num
  · rw [(enc_fields_of_le hr h).1]
    have : r.log2 < 3172 := log2_lt_of_lt_overflowBound (minNormal_pos.trans_le hr).ne' h
    omega

theorem significand_enc (h : r < overflowBound) : significand (enc s r) = r / 2 ^ gridExp r := by
  rw [significand]
  rcases Nat.lt_or_ge r minNormal with hr | hr
  · rw [if_pos (enc_fields_of_lt hr).1, (enc_fields_of_lt hr).2, gridExp_of_lt hr]
  · have hlog := le_log2_of_minNormal_le hr
    have hbits := leading_bits (r := r) (by omega)
    rw [(enc_fields_of_le hr h).1, (enc_fields_of_le hr h).2, gridExp_of_le hr, if_neg (by omega)]
    omega

theorem scaleExp_enc (h : r < overflowBound) : scaleExp (enc s r) + 1074 = gridExp r := by
  rw [scaleExp]
  rcases Nat.lt_or_ge r minNormal with hr | hr
  · rw [(enc_fields_of_lt hr).1, gridExp_of_lt hr]
  · have hlog := le_log2_of_minNormal_le hr
    rw [(enc_fields_of_le hr h).1, gridExp_of_le hr]
    omega

/-- Encoding keeps the value of a magnitude on the grid. -/
theorem exactAddend_enc (h : r < overflowBound) (hgrid : OnGrid r) : exactAddend (enc s r) = signed s r := by
  rw [exactAddend_eq, signBit_enc, magnitude, scaleExp_enc h, significand_enc h, Nat.div_mul_cancel hgrid]

end

/-! ## When rounding reaches a bound (R143, R145) -/

/-- Between `B - 2 ^ k` and `B` the magnitude `m` of sign `s` goes up to `B`; to nearest this begins halfway. -/
def RoundsUpTo (rc : Rounding) (s : Bool) (m k B : Nat) : Prop :=
  Outward rc s ∨ rc = .nearest ∧ 2 * B ≤ 2 * m + 2 ^ k

section
variable {m k B : Nat} {rc : Rounding} {s : Bool}

/-- A magnitude less than one quantum below a multiple of the quantum has that multiple as its upper neighbour. -/
theorem floorTo_of_close (hdvd : 2 ^ k ∣ B) (hlt : m < B) (hclose : B < m + 2 ^ k) : floorTo m k + 2 ^ k = B := by
  have hmod := floorTo_add_mod m k
  have hgap := le_floorTo_or_of_dvd (m := m) hdvd
  have hlow := (le_floorTo_iff (m := m) (Nat.dvd_sub hdvd (dvd_refl (2 ^ k)))).2 (by omega)
  omega

/-- Just below an even multiple of the quantum, rounding up is `RoundsUpTo`: a tie goes to the even multiple. -/
theorem roundsUp_of_close (hdvd : 2 ^ (k + 1) ∣ B) (hlt : m < B) (hclose : B < m + 2 ^ k) :
    roundsUp rc s (m / 2 ^ k) (m % 2 ^ k) (2 ^ k) = true ↔ RoundsUpTo rc s m k B := by
  have hmod := floorTo_add_mod m k
  have hB := floorTo_of_close ((Nat.pow_dvd_pow 2 k.le_succ).trans hdvd) hlt hclose
  have hodd : m / 2 ^ k % 2 = 1 := by
    obtain ⟨c, rfl⟩ := hdvd
    have hc : (m / 2 ^ k + 1) * 2 ^ k = 2 * c * 2 ^ k := by
      rw [Nat.add_one_mul, ← floorTo, hB]
      ring
    have := Nat.eq_of_mul_eq_mul_right (Nat.two_pow_pos k) hc
    omega
  rw [roundsUp_iff, RoundsUpTo]
  refine or_congr Iff.rfl (and_congr Iff.rfl ?_)
  omega

theorem roundMag_up_of_close (hdvd : 2 ^ (k + 1) ∣ B) (hlt : m < B) (hclose : B < m + 2 ^ k)
    (hup : RoundsUpTo rc s m k B) : roundMag m k rc s = (B, true) := by
  have hB := floorTo_of_close ((Nat.pow_dvd_pow 2 k.le_succ).trans hdvd) hlt hclose
  have hmod := floorTo_add_mod m k
  rw [← roundsUp_of_close hdvd hlt hclose] at hup
  rcases roundMag_cases m k rc s with ⟨_, _⟩ | ⟨_, h, _⟩ | ⟨_, _, h⟩
  · omega
  · rw [hup] at h
    cases h
  · rw [h, hB]

theorem roundMag_down_of_close (hdvd : 2 ^ (k + 1) ∣ B) (hlt : m < B) (hclose : B < m + 2 ^ k)
    (hup : ¬RoundsUpTo rc s m k B) : roundMag m k rc s = (B - 2 ^ k, true) := by
  have hB := floorTo_of_close ((Nat.pow_dvd_pow 2 k.le_succ).trans hdvd) hlt hclose
  have hmod := floorTo_add_mod m k
  rw [← roundsUp_of_close hdvd hlt hclose] at hup
  rcases roundMag_cases m k rc s with ⟨_, _⟩ | ⟨_, _, h⟩ | ⟨_, h, _⟩
  · omega
  · rw [h, ← hB, Nat.add_sub_cancel]
  · exact absurd h hup

/-- The same on the next coarser grid, if the bound is on it: what is nearer than half a quantum there goes up too. -/
theorem roundMag_succ_up_of_close (hdvd : 2 ^ (k + 2) ∣ B) (hlt : m < B) (hclose : B < m + 2 ^ k)
    (hup : RoundsUpTo rc s m k B) : roundMag m (k + 1) rc s = (B, true) := by
  have hq : 2 ^ (k + 1) = 2 ^ k * 2 := pow_succ ..
  refine roundMag_up_of_close hdvd hlt (by omega) (hup.imp_right fun ⟨hrc, h⟩ => ⟨hrc, ?_⟩)
  omega

/-- The quantum of 53 bits for a magnitude between two powers of two. -/
theorem log2_sub_of_between (hle : 2 ^ (k + 52) ≤ m) (hlt : m < 2 ^ (k + 53)) : m.log2 - 52 = k := by
  have hm : m ≠ 0 := ((Nat.two_pow_pos _).trans_le hle).ne'
  have := (log2_lt_iff hm).2 hlt
  have := mt (log2_lt_iff hm).1 hle.not_gt
  omega

/-- The quantum of 53 bits less than one quantum below a power of two. -/
theorem log2_sub_of_close (hB : B = 2 ^ (k + 53)) (hlt : m < B) (hclose : B < m + 2 ^ k) : m.log2 - 52 = k := by
  have h52 : 2 ^ (k + 52) = 2 ^ 52 * 2 ^ k := by rw [Nat.add_comm, pow_add]
  have h53 : 2 ^ (k + 53) = 2 ^ 53 * 2 ^ k := by rw [Nat.add_comm, pow_add]
  exact log2_sub_of_between (by omega) (hB ▸ hlt)

/-- At 53 bits the next power of two is not reached from a quantum or more below it. -/
theorem roundMag_lt_of_not_close (hfar : m + 2 ^ k ≤ 2 ^ (k + 53)) :
    (roundMag m (m.log2 - 52) rc s).1 < 2 ^ (k + 53) := by
  have hq := Nat.two_pow_pos k
  have hlog : m.log2 < k + 53 := by
    by_cases hm : m = 0
    · rw [hm, Nat.log2_zero]
      omega
    · rw [log2_lt_iff hm]
      omega
  have hle : m ≤ 2 ^ (k + 53) - 2 ^ k := by omega
  have hdvd : 2 ^ (m.log2 - 52) ∣ 2 ^ (k + 53) - 2 ^ k :=
    Nat.dvd_sub (Nat.pow_dvd_pow 2 (by omega)) (Nat.pow_dvd_pow 2 (by omega))
  have := roundMag_le_of_dvd (rc := rc) (s := s) hdvd hle
  omega

/-- At 53 bits a magnitude reaches the power of two `B` if it is as large, or is rounded up to it from less than one
quantum below. -/
theorem le_roundMag_iff (hB : B = 2 ^ (k + 53)) :
    B ≤ (roundMag m (m.log2 - 52) rc s).1 ↔ B ≤ m ∨ B < m + 2 ^ k ∧ RoundsUpTo rc s m k B := by
  have hq := Nat.two_pow_pos k
  have hdvd : 2 ^ (k + 1) ∣ B := by
    rw [hB]
    exact Nat.pow_dvd_pow 2 (by omega)
  rcases Nat.lt_or_ge m B with hlt | hge
  · by_cases hclose : B < m + 2 ^ k
    · rw [log2_sub_of_close hB hlt hclose]
      by_cases hup : RoundsUpTo rc s m k B
      · rw [roundMag_up_of_close hdvd hlt hclose hup]
        exact iff_of_true le_rfl (.inr ⟨hclose, hup⟩)
      · rw [roundMag_down_of_close hdvd hlt hclose hup]
        exact iff_of_false (by dsimp only; omega) (not_or.2 ⟨hlt.not_ge, fun h => hup h.2⟩)
    · rw [not_lt, hB] at hclose
      have hfar := roundMag_lt_of_not_close (rc := rc) (s := s) hclose
      rw [← hB] at hclose hfar
      exact iff_of_false hfar.not_ge (not_or.2 ⟨hlt.not_ge, fun h => hclose.not_gt h.1⟩)
  · refine iff_of_true ?_ (.inl hge)
    rw [hB] at hge ⊢
    have hm : m ≠ 0 := ((Nat.two_pow_pos _).trans_le hge).ne'
    have hlog : k + 53 ≤ m.log2 := by rwa [← not_lt, log2_lt_iff hm, not_lt]
    calc 2 ^ (k + 53) ≤ 2 ^ m.log2 := Nat.pow_le_pow_right Nat.two_pos hlog
      _ ≤ (roundMag m (m.log2 - 52) rc s).1 :=
        le_roundMag (Nat.pow_dvd_pow 2 (Nat.sub_le _ _)) (Nat.log2_self_le hm)

end

/-! ## Tininess and overflow (R143, R145) -/

/-- Tiny: below 2^-1022 after rounding to 53 bits with unbounded exponent (R143). -/
def Tiny (rc : Rounding) (s : Bool) (m : Nat) : Prop := (roundMag m (m.log2 - 52) rc s).1 < minNormal

/-- Overflow: 2^1024 or more after that rounding (R145). -/
def Overflows (rc : Rounding) (s : Bool) (m : Nat) : Prop := overflowBound ≤ (roundMag m (m.log2 - 52) rc s).1

section
variable {m : Nat} {rc : Rounding} {s : Bool}

/-- Just below 2^-1022 the quantum of 53 bits is 2^-1075. -/
theorem minNormal_eq_quantum : minNormal = 2 ^ (1073 + 53) :=
  minNormal_eq.trans (congrArg (2 ^ ·) (by norm_num))

/-- Just below 2^1024 the quantum of 53 bits is 2^971. -/
theorem overflowBound_eq_quantum : overflowBound = 2 ^ (3119 + 53) :=
  overflowBound_eq.trans (congrArg (2 ^ ·) (by norm_num))

theorem two_pow_dvd_minNormal {n : Nat} (h : n ≤ 1126) : 2 ^ n ∣ minNormal := by
  rw [minNormal_eq]
  exact pow_dvd_pow 2 h

theorem not_tiny_iff :
    ¬Tiny rc s m ↔ minNormal ≤ m ∨ minNormal < m + 2 ^ 1073 ∧ RoundsUpTo rc s m 1073 minNormal := by
  rw [Tiny, not_lt]
  exact le_roundMag_iff minNormal_eq_quantum

theorem overflows_iff :
    Overflows rc s m ↔
      overflowBound ≤ m ∨ overflowBound < m + 2 ^ 3119 ∧ RoundsUpTo rc s m 3119 overflowBound :=
  le_roundMag_iff overflowBound_eq_quantum

theorem lt_minNormal_of_tiny (h : Tiny rc s m) : m < minNormal :=
  not_le.1 fun hm => not_tiny_iff.2 (.inl hm) h

theorem minNormal_lt_overflowBound : minNormal < overflowBound := by
  rw [minNormal_eq, overflowBound_eq]
  exact pow_lt_pow_right₀ (by norm_num) (by norm_num)

/-- The magnitude rounded once to the format's own grid, denormals included (R142, R143(c)). -/
def rounded (m : Nat) (rc : Rounding) (s : Bool) : Nat × Bool := roundMag m (gridExp m) rc s

theorem rounded_of_lt (h : m < minNormal) : rounded m rc s = roundMag m 1074 rc s := by
  rw [rounded, gridExp_of_lt h]

/-- A magnitude below 2^-1022 that is not tiny is rounded up to 2^-1022, on the format's grid too. -/
theorem rounded_of_lt_of_not_tiny (h : m < minNormal) (ht : ¬Tiny rc s m) : rounded m rc s = (minNormal, true) := by
  obtain ⟨hclose, hup⟩ := (not_tiny_iff.1 ht).resolve_left h.not_ge
  rw [rounded_of_lt h]
  exact roundMag_succ_up_of_close (two_pow_dvd_minNormal (by norm_num)) h hclose hup

/-- Unless the result is tiny, the rounding to 53 bits is the rounding to the format's grid. -/
theorem roundMag_eq_rounded (ht : ¬Tiny rc s m) : roundMag m (m.log2 - 52) rc s = rounded m rc s := by
  rcases Nat.lt_or_ge m minNormal with hm | hm
  · obtain ⟨hclose, hup⟩ := (not_tiny_iff.1 ht).resolve_left hm.not_ge
    rw [rounded_of_lt_of_not_tiny hm ht, log2_sub_of_close minNormal_eq_quantum hm hclose]
    exact roundMag_up_of_close (two_pow_dvd_minNormal (by norm_num)) hm hclose hup
  · rw [rounded, gridExp_of_le hm]

theorem overflows_iff_rounded (ht : ¬Tiny rc s m) : Overflows rc s m ↔ overflowBound ≤ (rounded m rc s).1 := by
  rw [Overflows, roundMag_eq_rounded ht]

theorem rounded_le_of_tiny (h : Tiny rc s m) : (rounded m rc s).1 ≤ minNormal := by
  rw [rounded_of_lt (lt_minNormal_of_tiny h)]
  exact roundMag_le_of_dvd (two_pow_dvd_minNormal (by norm_num)) (lt_minNormal_of_tiny h).le

theorem rounded_inexact_iff : (rounded m rc s).2 = true ↔ (rounded m rc s).1 ≠ m := roundMag_inexact_iff

theorem rounded_le_two_pow : (rounded m rc s).1 ≤ 2 ^ (53 + gridExp m) :=
  roundMag_le_of_dvd (Nat.pow_dvd_pow 2 (by omega)) (le_two_pow_gridExp m)

/-- What the rounding answers is a number of the format. -/
theorem onGrid_rounded : OnGrid (rounded m rc s).1 :=
  onGrid_of_dvd (le_gridExp m) (two_pow_dvd_roundMag ..) rounded_le_two_pow

end

/-! ## The answers of `deliver` (R142-R146) -/

section
variable {s : Bool} {m : Nat} {rc : Rounding} {ftz um om : Bool} {pre : FpFlags}

theorem deliver_of_tiny_unmasked (h : Tiny rc s m) :
    deliver s m rc ftz false om pre = { result := none, flags := { pre with ue := true } } := by
  rw [Tiny] at h
  rw [deliver, if_pos h, if_pos rfl]

theorem deliver_of_flush (h : Tiny rc s m) :
    deliver s m rc true true om pre =
      { result := some (withSign s 0#64), flags := { pre with ue := true, pe := true } } := by
  rw [Tiny] at h
  rw [deliver, if_pos h, if_neg (by decide), if_pos rfl]

theorem deliver_of_tiny (h : Tiny rc s m) :
    deliver s m rc false true om pre =
      { result := some (enc s (rounded m rc s).1)
        flags := if (rounded m rc s).2 then { pre with ue := true, pe := true } else pre } := by
  have hgrid := rounded_of_lt (rc := rc) (s := s) (lt_minNormal_of_tiny h)
  rw [Tiny] at h
  rw [deliver, if_pos h, if_neg (by decide), if_neg (by decide), hgrid]

theorem not_tiny_of_overflows (h : Overflows rc s m) : ¬Tiny rc s m :=
  (minNormal_lt_overflowBound.le.trans h).not_gt

theorem deliver_of_overflow_unmasked (h : Overflows rc s m) :
    deliver s m rc ftz um false pre = { result := none, flags := { pre with oe := true } } := by
  have ht := not_tiny_of_overflows h
  rw [Tiny] at ht
  rw [Overflows] at h
  rw [deliver, if_neg ht, if_pos h, if_pos rfl]

theorem deliver_of_overflow (h : Overflows rc s m) :
    deliver s m rc ftz um true pre =
      { result := some (withSign s (if overflowsToInf rc s then infMagnitude else maxMagnitude))
        flags := { pre with oe := true, pe := true } } := by
  have ht := not_tiny_of_overflows h
  rw [Tiny] at ht
  rw [Overflows] at h
  rw [deliver, if_neg ht, if_pos h, if_neg (by decide)]

theorem deliver_of_normal (ht : ¬Tiny rc s m) (ho : ¬Overflows rc s m) :
    deliver s m rc ftz um om pre =
      { result := some (enc s (rounded m rc s).1)
        flags := if (rounded m rc s).2 then { pre with pe := true } else pre } := by
  have hgrid := roundMag_eq_rounded ht
  rw [Tiny] at ht
  rw [Overflows] at ho
  rw [deliver, if_neg ht, if_neg ho, hgrid]

/-- All that `deliver` can answer: nothing on an unmasked underflow or overflow, the zero of a flush, the masked
response to overflow, or the magnitude rounded to the format's grid. -/
theorem deliver_inversion :
    (Tiny rc s m ∧ deliver s m rc ftz um om pre = { result := none, flags := { pre with ue := true } }) ∨
    (Tiny rc s m ∧ ftz = true ∧ deliver s m rc ftz um om pre =
      { result := some (withSign s 0#64), flags := { pre with ue := true, pe := true } }) ∨
    (Overflows rc s m ∧ deliver s m rc ftz um om pre = { result := none, flags := { pre with oe := true } }) ∨
    (Overflows rc s m ∧ deliver s m rc ftz um om pre =
      { result := some (withSign s (if overflowsToInf rc s then infMagnitude else maxMagnitude))
        flags := { pre with oe := true, pe := true } }) ∨
    ((rounded m rc s).1 < overflowBound ∧ ∃ u, (Tiny rc s m ∨ u = pre.ue) ∧ deliver s m rc ftz um om pre =
      { result := some (enc s (rounded m rc s).1)
        flags := if (rounded m rc s).2 then { pre with ue := u, pe := true } else pre }) := by
  by_cases ht : Tiny rc s m
  · cases um with
    | false => exact .inl ⟨ht, deliver_of_tiny_unmasked ht⟩
    | true =>
      cases ftz with
      | true => exact .inr (.inl ⟨ht, rfl, deliver_of_flush ht⟩)
      | false =>
        exact .inr (.inr (.inr (.inr ⟨(rounded_le_of_tiny ht).trans_lt minNormal_lt_overflowBound, true, .inl ht,
          deliver_of_tiny ht⟩)))
  · by_cases ho : Overflows rc s m
    · cases om with
      | false => exact .inr (.inr (.inl ⟨ho, deliver_of_overflow_unmasked ho⟩))
      | true => exact .inr (.inr (.inr (.inl ⟨ho, deliver_of_overflow ho⟩)))
    · exact .inr (.inr (.inr (.inr ⟨not_le.1 (mt (overflows_iff_rounded ht).2 ho), pre.ue, .inr rfl,
        deliver_of_normal ht ho⟩)))

end

/-! ## The lane's exact value and its one rounding (R132, R140, R142) -/

/-- The sign of the exact value. -/
def sumSign (x y z : Word) : Bool := decide (exactSum x y z < 0)

/-- The magnitude of the exact value, in units. -/
def sumMag (x y z : Word) : Nat := (exactSum x y z).natAbs

theorem signed_sum (x y z : Word) : signed (sumSign x y z) (sumMag x y z) = exactSum x y z := signed_natAbs _

theorem sumSign_eq_true_iff {x y z : Word} : sumSign x y z = true ↔ exactValue x y z < 0 := by
  rw [sumSign, decide_eq_true_iff, exactValue_neg_iff]

theorem sumMag_eq_zero_iff {x y z : Word} : sumMag x y z = 0 ↔ exactSum x y z = 0 := Int.natAbs_eq_zero

/-- Away from zero the sign is false exactly for a positive value. -/
theorem sumSign_eq_false_iff {x y z : Word} (h : exactValue x y z ≠ 0) :
    sumSign x y z = false ↔ 0 < exactValue x y z := by
  rw [← Bool.not_eq_true, sumSign_eq_true_iff, not_lt]
  exact h.symm.le_iff_lt

section
variable {x y z w : Word} {rc : Rounding} {ftz um om : Bool}

theorem fnmadd64_without_daz : fnmadd64 x y z rc false ftz um om = fnmaddCore x y z rc ftz um om := by
  rw [fnmadd64, dazReplace_false, dazReplace_false, dazReplace_false]

/-- A finite lane whose exact value is not 0 delivers it (R142-R146). -/
theorem fnmadd64_eq_deliver (hx : isFinite x = true) (hy : isFinite y = true) (hz : isFinite z = true)
    (hne : exactSum x y z ≠ 0) :
    fnmadd64 x y z rc false ftz um om =
      deliver (sumSign x y z) (sumMag x y z) rc ftz um om { FpFlags.none with de := anyDenormal x y z } := by
  rw [fnmadd64_without_daz, fnmaddCore_of_finite hx hy hz, if_neg hne, sumSign, sumMag]

/-- A finite lane whose exact value is 0 delivers a zero and no flag but DE (R141). -/
theorem fnmadd64_eq_zero (hx : isFinite x = true) (hy : isFinite y = true) (hz : isFinite z = true)
    (h0 : exactSum x y z = 0) :
    ∃ s, fnmadd64 x y z rc false ftz um om =
      { result := some (withSign s 0#64), flags := { FpFlags.none with de := anyDenormal x y z } } := by
  rw [fnmadd64_without_daz, fnmaddCore_of_finite hx hy hz, if_pos h0]
  exact ⟨_, rfl⟩

end

section
variable {s : Bool} {m : Nat} {rc : Rounding} {ftz um om : Bool} {pre : FpFlags} {w : Word} {T : ℤ}

/-- What `deliver` answers without overflow and without flush is the magnitude rounded to the format's grid. -/
theorem eq_enc_rounded_of_deliver (h : (deliver s m rc ftz um om pre).result = some w)
    (hoe : (deliver s m rc ftz um om pre).flags.oe = false)
    (hflush : ftz = false ∨ (deliver s m rc ftz um om pre).flags.ue = false) :
    (rounded m rc s).1 < overflowBound ∧ w = enc s (rounded m rc s).1 := by
  rcases deliver_inversion (s := s) (m := m) (rc := rc) (ftz := ftz) (um := um) (om := om) (pre := pre) with
    ⟨_, e⟩ | ⟨_, rfl, e⟩ | ⟨_, e⟩ | ⟨_, e⟩ | ⟨hlt, _, _, e⟩
  · rw [e] at h
    cases h
  · rw [e] at hflush
    rcases hflush with h | h <;> cases h
  · rw [e] at h
    cases h
  · rw [e] at hoe
    cases hoe
  · rw [e] at h
    exact ⟨hlt, (Option.some.inj h).symm⟩

theorem exactAddend_enc_rounded (h : (rounded m rc s).1 < overflowBound) :
    exactAddend (enc s (rounded m rc s).1) = signed s (rounded m rc s).1 :=
  exactAddend_enc h onGrid_rounded

/-- Rounded toward zero: of the numbers of the format on the near side, the farthest out. -/
theorem rounded_inward (hrc : rc ≠ .nearest) (hin : ¬Outward rc s) (hT : T = signed s m)
    (hw : exactAddend w = signed s (rounded m rc s).1) :
    (if s then T ≤ exactAddend w else exactAddend w ≤ T) ∧
    ∀ v, (if s then T ≤ exactAddend v else exactAddend v ≤ T) →
      if s then exactAddend w ≤ exactAddend v else exactAddend v ≤ exactAddend w := by
  simp only [← along_le_along]
  rw [hw, hT, along_signed, along_signed]
  obtain ⟨hle, hgreatest⟩ := roundMag_of_inward (m := m) (k := gridExp m) hrc hin
  exact ⟨Int.ofNat_le.2 hle, fun v => hgreatest _ (along_offGap m s v)⟩

/-- Rounded away from zero: of the numbers of the format on the far side, the nearest. -/
theorem rounded_outward (hout : Outward rc s) (hT : T = signed s m)
    (hw : exactAddend w = signed s (rounded m rc s).1) :
    (if s then exactAddend w ≤ T else T ≤ exactAddend w) ∧
    ∀ v, (if s then exactAddend v ≤ T else T ≤ exactAddend v) →
      if s then exactAddend v ≤ exactAddend w else exactAddend w ≤ exactAddend v := by
  simp only [← along_le_along]
  rw [hw, hT, along_signed, along_signed]
  obtain ⟨hle, hleast⟩ := roundMag_of_outward (m := m) (k := gridExp m) hout
  exact ⟨Int.ofNat_le.2 hle, fun v => hleast _ (along_offGap m s v)⟩

/-- Rounded to nearest: no number of the format is nearer. -/
theorem rounded_nearest (hT : T = signed s m) (hw : exactAddend w = signed s (rounded m .nearest s).1) (v : Word) :
    |exactAddend w - T| ≤ |exactAddend v - T| := by
  rw [← abs_along_sub_along s, ← abs_along_sub_along s (exactAddend v), hw, hT, along_signed, along_signed]
  exact roundMag_nearest (along_offGap m s v)

/-- Rounding does not take a magnitude to a finer part of the grid. -/
theorem gridExp_le_gridExp_rounded : gridExp m ≤ gridExp (rounded m rc s).1 := by
  rcases le_total (m.log2 - 52) 1074 with h | h
  · rw [gridExp, max_eq_right h]
    exact le_gridExp _
  · have hm : m ≠ 0 := by
      rintro rfl
      rw [Nat.log2_zero] at h
      omega
    have hk : gridExp m = gridExp (2 ^ m.log2) := by rw [gridExp, gridExp, Nat.log2_two_pow]
    have hdvd : 2 ^ gridExp m ∣ 2 ^ m.log2 := by
      rw [gridExp, max_eq_left h]
      exact Nat.pow_dvd_pow 2 (Nat.sub_le _ _)
    rw [hk]
    exact gridExp_mono (le_roundMag hdvd (Nat.log2_self_le hm))

/-- An even multiple of the quantum rounded with has an even significand, also when rounding carried it to the next
power of two. -/
theorem even_on_own_grid (h : (rounded m rc s).1 / 2 ^ gridExp m % 2 = 0) :
    (rounded m rc s).1 / 2 ^ gridExp (rounded m rc s).1 % 2 = 0 := by
  have hle := rounded_le_two_pow (m := m) (rc := rc) (s := s)
  have hgrid := gridExp_le_gridExp_rounded (m := m) (rc := rc) (s := s)
  generalize (rounded m rc s).1 = r at h hle hgrid ⊢
  rcases hgrid.eq_or_lt with heq | hlt
  · rwa [← heq]
  · have hlog : 53 + gridExp m ≤ r.log2 := by
      have : gridExp r = max (r.log2 - 52) 1074 := rfl
      have := le_gridExp m
      omega
    have hr : r = 2 ^ (53 + gridExp m) := by
      refine hle.antisymm (le_trans (Nat.pow_le_pow_right Nat.two_pos hlog) (Nat.log2_self_le ?_))
      rintro rfl
      rw [Nat.log2_zero] at hlog
      omega
    have hnext : gridExp r = gridExp m + 1 := by
      rw [hr, gridExp, Nat.log2_two_pow]
      have := le_gridExp m
      omega
    rw [hnext, hr, show 53 + gridExp m = 52 + (gridExp m + 1) by omega, pow_add,
      Nat.mul_div_cancel _ (Nat.two_pow_pos _)]
    norm_num

/-- A tie goes to the number with the even significand. -/
theorem rounded_nearest_even (hT : T = signed s m) (hlt : (rounded m .nearest s).1 < overflowBound) {v : Word}
    (hne : exactAddend v ≠ exactAddend (enc s (rounded m .nearest s).1))
    (htie : |exactAddend v - T| = |exactAddend (enc s (rounded m .nearest s).1) - T|) :
    significand (enc s (rounded m .nearest s).1) % 2 = 0 := by
  rw [← abs_along_sub_along s, ← abs_along_sub_along s (exactAddend (enc _ _)), exactAddend_enc_rounded hlt, hT,
    along_signed, along_signed] at htie
  rw [Ne, ← along_inj (s := s), exactAddend_enc_rounded hlt, along_signed] at hne
  rw [significand_enc hlt]
  exact even_on_own_grid (roundMag_nearest_even (along_offGap m s v) hne htie)

end

/-! ## Rounding is correct: the statements -/

section
variable {x y z w v : Word}

theorem value_le_value_iff : value v ≤ value w ↔ exactAddend v ≤ exactAddend w := by
  rw [value_eq, value_eq, intCast_mul_unit_le]

theorem value_le_exactValue_iff : value v ≤ exactValue x y z ↔ exactAddend v ≤ exactSum x y z := by
  rw [value_eq, exactValue_eq, intCast_mul_unit_le]

theorem exactValue_le_value_iff : exactValue x y z ≤ value v ↔ exactSum x y z ≤ exactAddend v := by
  rw [value_eq, exactValue_eq, intCast_mul_unit_le]

theorem value_inj : value v = value w ↔ exactAddend v = exactAddend w := by
  rw [value_eq, value_eq, intCast_mul_unit_inj]

theorem abs_value_sub_exactValue :
    |value v - exactValue x y z| = (|exactAddend v - exactSum x y z| : ℤ) * unit := by
  rw [value_eq, exactValue_eq, abs_intCast_mul_unit_sub]

end

section
variable {s : Bool} {m : Nat} {rc : Rounding} {w : Word} {T : ℤ}

/-- Rounding down, or toward zero a positive number. -/
theorem rounded_greatest_below (hrc : rc = .down ∨ rc = .toZero ∧ s = false) (hT : T = signed s m)
    (hw : exactAddend w = signed s (rounded m rc s).1) :
    exactAddend w ≤ T ∧ ∀ v, exactAddend v ≤ T → exactAddend v ≤ exactAddend w := by
  have hnear : rc ≠ .nearest := by rcases hrc with rfl | ⟨rfl, _⟩ <;> decide
  cases s with
  | false => exact rounded_inward hnear (by rcases hrc with rfl | ⟨rfl, _⟩ <;> simp [Outward]) hT hw
  | true => exact rounded_outward (by simpa [Outward] using hrc) hT hw

/-- Rounding up, or toward zero a negative number. -/
theorem rounded_least_above (hrc : rc = .up ∨ rc = .toZero ∧ s = true) (hT : T = signed s m)
    (hw : exactAddend w = signed s (rounded m rc s).1) :
    T ≤ exactAddend w ∧ ∀ v, T ≤ exactAddend v → exactAddend w ≤ exactAddend v := by
  have hnear : rc ≠ .nearest := by rcases hrc with rfl | ⟨rfl, _⟩ <;> decide
  cases s with
  | false => exact rounded_outward (by simpa [Outward] using hrc) hT hw
  | true => exact rounded_inward hnear (by rcases hrc with rfl | ⟨rfl, _⟩ <;> simp [Outward]) hT hw

end

/-- Settles O53: the delivered number is the exact magnitude rounded once to the format's grid, inward or outward by the
direction and the sign. -/
theorem directedRoundingIsCorrect : Obligations.DirectedRoundingIsCorrect := by
  intro x y z w rc ftz um om hx hy hz hne hres hoe hflush
  rw [fnmadd64_eq_deliver hx hy hz (mt exactValue_eq_zero_iff.2 hne)] at hres hoe hflush
  obtain ⟨hlt, hw⟩ := eq_enc_rounded_of_deliver hres hoe hflush
  have hval := exactAddend_enc_rounded hlt
  rw [← hw] at hval
  simp only [value_le_exactValue_iff, exactValue_le_value_iff, value_le_value_iff]
  refine ⟨hw ▸ isFinite_enc hlt, fun hrc => ?_, fun hrc => ?_⟩
  · rw [← sumSign_eq_false_iff hne] at hrc
    obtain ⟨hle, hgreatest⟩ := rounded_greatest_below hrc (signed_sum x y z).symm hval
    exact ⟨hle, fun v _ => hgreatest v⟩
  · rw [← sumSign_eq_true_iff] at hrc
    obtain ⟨hle, hleast⟩ := rounded_least_above hrc (signed_sum x y z).symm hval
    exact ⟨hle, fun v _ => hleast v⟩

/-- Settles O54: no number of the format is nearer than the neighbour chosen, and a tie chose the even one. -/
theorem nearestRoundingIsCorrect : Obligations.NearestRoundingIsCorrect := by
  intro x y z w ftz um om hx hy hz hne hres hoe hflush
  rw [fnmadd64_eq_deliver hx hy hz (mt exactValue_eq_zero_iff.2 hne)] at hres hoe hflush
  obtain ⟨hlt, rfl⟩ := eq_enc_rounded_of_deliver hres hoe hflush
  have hval := exactAddend_enc_rounded hlt
  have hsum := (signed_sum x y z).symm
  simp only [abs_value_sub_exactValue, intCast_mul_unit_le, intCast_mul_unit_inj, Ne, value_inj]
  exact ⟨isFinite_enc hlt, fun v _ => rounded_nearest hsum hval v,
    fun v _ hdiff htie => getLsbD_zero_eq_false _ (rounded_nearest_even hsum hlt hdiff htie)⟩

/-! ## The precision flag (R142-R146) -/

@[simp] theorem magnitude_withSign (s : Bool) (w : Word) : magnitude (withSign s w) = magnitude w := by
  rw [magnitude, significand, scaleExp, fracField_withSign, expField_withSign, magnitude, significand, scaleExp]

theorem exactAddend_withSign (s : Bool) (w : Word) : exactAddend (withSign s w) = signed s (magnitude w) := by
  rw [exactAddend_eq, signBit_withSign, magnitude_withSign]

theorem magnitude_zero : magnitude 0#64 = 0 := by decide +kernel

theorem magnitude_max : magnitude maxMagnitude + 2 ^ 3119 = overflowBound := by decide +kernel

@[simp] theorem isFinite_withSign_inf (s : Bool) : isFinite (withSign s infMagnitude) = false := by
  cases s <;> decide

theorem signed_inj {s : Bool} {a b : Nat} : signed s a = signed s b ↔ a = b := by
  rw [← along_inj (s := s), along_signed, along_signed, Nat.cast_inj]

/-- What overflows is larger than the largest finite number. -/
theorem magnitude_max_lt_of_overflows {m : Nat} {rc : Rounding} {s : Bool} (h : Overflows rc s m) :
    magnitude maxMagnitude < m := by
  have hmax := magnitude_max
  have hq : 0 < 2 ^ 3119 := by positivity
  rcases overflows_iff.1 h with h | ⟨h, _⟩
  · omega
  · omega

section
variable {s : Bool} {m : Nat} {rc : Rounding} {ftz um om : Bool} {pre : FpFlags} {w : Word}

theorem signed_rounded_ne_iff (h : (rounded m rc s).1 < overflowBound) :
    (rounded m rc s).2 = true ↔ exactAddend (enc s (rounded m rc s).1) ≠ signed s m := by
  rw [exactAddend_enc_rounded h, Ne, signed_inj, rounded_inexact_iff]

/-- A finite delivered number raises PE exactly when it is not the exact value, flush and overflow included. -/
theorem deliver_pe_iff (hm : m ≠ 0) (hpre : pre.pe = false)
    (h : (deliver s m rc ftz um om pre).result = some w) (hw : isFinite w = true) :
    (deliver s m rc ftz um om pre).flags.pe = true ↔ exactAddend w ≠ signed s m := by
  rcases deliver_inversion (s := s) (m := m) (rc := rc) (ftz := ftz) (um := um) (om := om) (pre := pre) with
    ⟨_, e⟩ | ⟨_, _, e⟩ | ⟨_, e⟩ | ⟨ho, e⟩ | ⟨hlt, _, _, e⟩ <;> rw [e] at h ⊢
  · cases h
  · obtain rfl := Option.some.inj h
    rw [exactAddend_withSign, magnitude_zero, Ne, signed_inj]
    exact iff_of_true rfl hm.symm
  · cases h
  · obtain rfl := Option.some.inj h
    cases hinf : overflowsToInf rc s with
    | true => simp [hinf] at hw
    | false =>
      rw [if_neg (by decide), exactAddend_withSign, Ne, signed_inj]
      exact iff_of_true rfl (magnitude_max_lt_of_overflows ho).ne
  · obtain rfl := Option.some.inj h
    rw [← signed_rounded_ne_iff hlt]
    cases (rounded m rc s).2 <;> simp [hpre]

end

/-- Settles O55: an exact zero is exact, and `deliver` raises PE as the delivered number says. -/
theorem precisionFlagIffInexact : Obligations.PrecisionFlagIffInexact := by
  intro x y z w rc ftz um om hx hy hz hres hw
  rw [Ne, value_eq_exactValue_iff]
  by_cases h0 : exactSum x y z = 0
  · obtain ⟨s, hzero⟩ := fnmadd64_eq_zero (rc := rc) (ftz := ftz) (um := um) (om := om) hx hy hz h0
    rw [hzero] at hres ⊢
    obtain rfl := Option.some.inj hres
    rw [exactAddend_withSign, magnitude_zero, h0]
    exact iff_of_false Bool.false_ne_true (not_not.2 (by cases s <;> rfl))
  · rw [fnmadd64_eq_deliver hx hy hz h0] at hres ⊢
    rw [deliver_pe_iff (mt sumMag_eq_zero_iff.1 h0) rfl hres hw, signed_sum]

/-! ## Overflow and underflow of a lane (R143-R145) -/

section
variable {s : Bool} {m : Nat} {rc : Rounding} {ftz um om : Bool} {pre : FpFlags}

/-- Only an overflow raises OE. -/
theorem deliver_oe_of_not_overflows (hno : ¬Overflows rc s m) :
    (deliver s m rc ftz um om pre).flags.oe = pre.oe := by
  rcases deliver_inversion (s := s) (m := m) (rc := rc) (ftz := ftz) (um := um) (om := om) (pre := pre) with
    ⟨_, e⟩ | ⟨_, _, e⟩ | ⟨ho, _⟩ | ⟨ho, _⟩ | ⟨_, _, _, e⟩
  · rw [e]
  · rw [e]
  · exact absurd ho hno
  · exact absurd ho hno
  · rw [e]
    cases (rounded m rc s).2 <;> rfl

/-- Only a tiny result raises UE. -/
theorem deliver_ue_of_not_tiny (hnt : ¬Tiny rc s m) : (deliver s m rc ftz um om pre).flags.ue = pre.ue := by
  rcases deliver_inversion (s := s) (m := m) (rc := rc) (ftz := ftz) (um := um) (om := om) (pre := pre) with
    ⟨ht, _⟩ | ⟨ht, _⟩ | ⟨_, e⟩ | ⟨_, e⟩ | ⟨_, u, hu, e⟩
  · exact absurd ht hnt
  · exact absurd ht hnt
  · rw [e]
  · rw [e]
  · rw [e, hu.resolve_left hnt]
    cases (rounded m rc s).2 <;> rfl

theorem not_tiny_of_minNormal_le (h : minNormal ≤ m) : ¬Tiny rc s m := not_tiny_iff.2 (.inl h)

end

section
variable {x y z : Word} {rc : Rounding}

theorem outward_sumSign_iff (h : exactValue x y z ≠ 0) :
    Outward rc (sumSign x y z) ↔ (rc = .down ∧ exactValue x y z < 0) ∨ (rc = .up ∧ 0 < exactValue x y z) := by
  rw [Outward, sumSign_eq_true_iff, sumSign_eq_false_iff h]

/-- `RoundsUpTo` for the exact value of a lane, in the words of O56 and O57. -/
theorem roundsUpTo_sum_iff {k A : Nat} {a b : ℤ} (h : exactValue x y z ≠ 0) (ha : a = A - 2148) (hb : b = k - 2148) :
    RoundsUpTo rc (sumSign x y z) (sumMag x y z) (k + 1) (2 ^ A) ↔
      (rc = .nearest ∧ (2 : ℚ) ^ a - 2 ^ b ≤ |exactValue x y z|) ∨ (rc = .down ∧ exactValue x y z < 0) ∨
        (rc = .up ∧ 0 < exactValue x y z) := by
  rw [RoundsUpTo, outward_sumSign_iff h, two_zpow_sub_le_abs_exactValue ha hb, or_comm, sumMag, pow_succ' 2 k,
    ← Nat.mul_add, Nat.mul_le_mul_left_iff Nat.two_pos]

theorem exactValue_ne_zero_of_sumMag_pos (h : 0 < sumMag x y z) : exactValue x y z ≠ 0 :=
  mt exactValue_eq_zero_iff.1 (mt sumMag_eq_zero_iff.2 h.ne')

theorem two_pow_1024_le_iff : 2 ^ 1024 ≤ |exactValue x y z| ↔ overflowBound ≤ sumMag x y z := by
  rw [← zpow_natCast, two_zpow_le_abs_exactValue (A := 3172) (by norm_num), overflowBound_eq, sumMag]

theorem lt_two_pow_1024_iff : |exactValue x y z| < 2 ^ 1024 ↔ sumMag x y z < overflowBound := by
  rw [← not_le, two_pow_1024_le_iff, not_le]

theorem max_lt_iff : 2 ^ 1024 - 2 ^ 971 < |exactValue x y z| ↔ overflowBound < sumMag x y z + 2 ^ 3119 := by
  rw [← zpow_natCast, ← zpow_natCast,
    two_zpow_sub_lt_abs_exactValue (A := 3172) (B := 3119) (by norm_num) (by norm_num), overflowBound_eq, sumMag]

/-- When a lane that is not 0 goes up to 2^1024. -/
theorem roundsUpTo_overflowBound_iff (h : exactValue x y z ≠ 0) :
    RoundsUpTo rc (sumSign x y z) (sumMag x y z) 3119 overflowBound ↔
      (rc = .nearest ∧ 2 ^ 1024 - 2 ^ 970 ≤ |exactValue x y z|) ∨ (rc = .down ∧ exactValue x y z < 0) ∨
        (rc = .up ∧ 0 < exactValue x y z) := by
  rw [overflowBound_eq, roundsUpTo_sum_iff (k := 3118) (a := (1024 : ℕ)) (b := (970 : ℕ)) h (by norm_num) (by norm_num),
    zpow_natCast, zpow_natCast]

theorem le_value_max_iff :
    |exactValue x y z| ≤ value 0x7FEFFFFFFFFFFFFF#64 ↔ sumMag x y z ≤ magnitude maxMagnitude := by
  have hmax : value 0x7FEFFFFFFFFFFFFF#64 = (magnitude maxMagnitude : ℚ) * unit := value_eq maxMagnitude
  rw [hmax, abs_exactValue, mul_le_mul_iff_left₀ unit_pos, Nat.cast_le, sumMag]

theorem lt_two_pow_neg_1022_iff : |exactValue x y z| < (2 : ℚ) ^ (-1022 : ℤ) ↔ sumMag x y z < minNormal := by
  rw [abs_exactValue_lt_two_zpow (A := 1126) (by norm_num), minNormal_eq, sumMag]

theorem two_pow_neg_1022_le_iff : (2 : ℚ) ^ (-1022 : ℤ) ≤ |exactValue x y z| ↔ minNormal ≤ sumMag x y z := by
  rw [← not_lt, lt_two_pow_neg_1022_iff, not_lt]

theorem close_to_minNormal_iff :
    (2 : ℚ) ^ (-1022 : ℤ) - (2 : ℚ) ^ (-1075 : ℤ) < |exactValue x y z| ↔ minNormal < sumMag x y z + 2 ^ 1073 := by
  rw [two_zpow_sub_lt_abs_exactValue (A := 1126) (B := 1073) (by norm_num) (by norm_num), minNormal_eq, sumMag]

/-- When a lane that is not 0 goes up to 2^-1022. -/
theorem roundsUpTo_minNormal_iff (h : exactValue x y z ≠ 0) :
    RoundsUpTo rc (sumSign x y z) (sumMag x y z) 1073 minNormal ↔
      (rc = .nearest ∧ (2 : ℚ) ^ (-1022 : ℤ) - (2 : ℚ) ^ (-1076 : ℤ) ≤ |exactValue x y z|) ∨
        (rc = .down ∧ exactValue x y z < 0) ∨ (rc = .up ∧ 0 < exactValue x y z) := by
  rw [minNormal_eq, roundsUpTo_sum_iff (k := 1072) (a := -1022) (b := -1076) h (by norm_num) (by norm_num)]

end

/-- The masked response to overflow (R145), written out. -/
theorem overflow_result (rc : Rounding) (s : Bool) :
    withSign s (if overflowsToInf rc s then infMagnitude else maxMagnitude) =
      if s = true then (if rc = .nearest ∨ rc = .down then 0xFFF0000000000000#64 else 0xFFEFFFFFFFFFFFFF#64)
      else (if rc = .nearest ∨ rc = .up then 0x7FF0000000000000#64 else 0x7FEFFFFFFFFFFFFF#64) := by
  cases s <;> cases rc <;> rfl

/-- The largest finite number is the last one before 2^1024. -/
theorem enc_max (s : Bool) :
    enc s (overflowBound - 2 ^ 3119) = if s = true then 0xFFEFFFFFFFFFFFFF#64 else 0x7FEFFFFFFFFFFFFF#64 := by
  cases s <;> decide +kernel

theorem enc_minNormal (s : Bool) :
    enc s minNormal = if s = true then 0x8010000000000000#64 else 0x0010000000000000#64 := by
  cases s <;> decide +kernel

theorem minNormal_add_le_overflowBound : minNormal + 2 ^ 3119 ≤ overflowBound := by decide +kernel

/-- Less than one quantum below 2^1024, not rounded up: the largest finite number, inexact. -/
theorem rounded_eq_max {m : Nat} {rc : Rounding} {s : Bool} (hclose : overflowBound < m + 2 ^ 3119)
    (hlt : m < overflowBound) (hup : ¬RoundsUpTo rc s m 3119 overflowBound) :
    rounded m rc s = (overflowBound - 2 ^ 3119, true) := by
  have hm : minNormal ≤ m := by
    have := minNormal_add_le_overflowBound
    omega
  rw [rounded, gridExp_of_le hm, log2_sub_of_close overflowBound_eq_quantum hlt hclose]
  exact roundMag_down_of_close (by rw [overflowBound_eq]; exact pow_dvd_pow 2 (by norm_num)) hlt hclose hup

/-- Settles O56: `overflows_iff` in the terms of the exact value, and the answers of `deliver`. -/
theorem overflowResults : Obligations.OverflowResults := by
  rintro x y z rc ftz um om t up hx hy hz rfl hup
  rw [two_pow_1024_le_iff, max_lt_iff, le_value_max_iff, lt_two_pow_1024_iff]
  have hpos : overflowBound < sumMag x y z + 2 ^ 3119 → 0 < sumMag x y z := fun h => by
    have := minNormal_add_le_overflowBound
    omega
  simp only [← sumSign_eq_true_iff]
  refine ⟨fun h => ?_, fun h => ?_, fun hclose hlt hnup => ?_⟩
  · have hne : exactValue x y z ≠ 0 := exactValue_ne_zero_of_sumMag_pos
      (h.elim (fun hge => (minNormal_pos.trans minNormal_lt_overflowBound).trans_le hge) fun hc => hpos hc.1)
    rw [← roundsUpTo_overflowBound_iff hne] at hup
    rw [hup, ← overflows_iff] at h
    rw [fnmadd64_eq_deliver hx hy hz (mt exactValue_eq_zero_iff.2 hne)]
    cases om with
    | false =>
      rw [deliver_of_overflow_unmasked h]
      exact ⟨rfl, rfl, rfl, rfl⟩
    | true =>
      rw [deliver_of_overflow h, overflow_result]
      exact ⟨rfl, rfl, rfl, rfl⟩
  · by_cases h0 : exactSum x y z = 0
    · obtain ⟨s, hzero⟩ := fnmadd64_eq_zero (rc := rc) (ftz := ftz) (um := um) (om := om) hx hy hz h0
      rw [hzero]
      rfl
    · rw [fnmadd64_eq_deliver hx hy hz h0]
      exact deliver_oe_of_not_overflows fun ho => (magnitude_max_lt_of_overflows ho).not_ge h
  · have hne := exactValue_ne_zero_of_sumMag_pos (hpos hclose)
    rw [← roundsUpTo_overflowBound_iff hne] at hup
    rw [hup] at hnup
    have ht : ¬Tiny rc (sumSign x y z) (sumMag x y z) := not_tiny_of_minNormal_le (by
      have := minNormal_add_le_overflowBound
      omega)
    have ho : ¬Overflows rc (sumSign x y z) (sumMag x y z) := by
      rw [overflows_iff]
      exact not_or.2 ⟨hlt.not_ge, fun h => hnup h.2⟩
    rw [fnmadd64_eq_deliver hx hy hz (mt exactValue_eq_zero_iff.2 hne), deliver_of_normal ht ho,
      rounded_eq_max hclose hlt hnup, enc_max]
    exact ⟨rfl, rfl, rfl, rfl⟩

/-- The zero that a flush delivers, written out. -/
theorem withSign_zero (s : Bool) : withSign s 0#64 = if s = true then 0x8000000000000000#64 else 0#64 := by
  cases s <;> rfl

/-- Settles O57: `not_tiny_iff` in the terms of the exact value, and the answers of `deliver`. -/
theorem underflowResults : Obligations.UnderflowResults := by
  rintro x y z rc ftz um om t up hx hy hz rfl hup
  rw [close_to_minNormal_iff] at hup
  rw [lt_two_pow_neg_1022_iff, two_pow_neg_1022_le_iff]
  simp only [← sumSign_eq_true_iff]
  refine ⟨fun hne hlt hnup => ?_, fun hlt h => ?_, fun hge => ?_⟩
  · rw [← roundsUpTo_minNormal_iff hne] at hup
    have ht : Tiny rc (sumSign x y z) (sumMag x y z) := by
      rw [← not_not (a := Tiny _ _ _), not_tiny_iff, ← hup]
      exact not_or.2 ⟨hlt.not_ge, hnup⟩
    have hbound := (rounded_le_of_tiny ht).trans_lt minNormal_lt_overflowBound
    rw [fnmadd64_eq_deliver hx hy hz (mt exactValue_eq_zero_iff.2 hne)]
    refine ⟨deliver_oe_of_not_overflows fun ho => not_tiny_of_overflows ho ht, ?_, ?_, ?_⟩
    · rintro rfl
      rw [deliver_of_tiny_unmasked ht]
      exact ⟨rfl, rfl, rfl⟩
    · rintro rfl rfl
      rw [deliver_of_flush ht, withSign_zero]
      exact ⟨rfl, rfl, rfl⟩
    · rintro rfl rfl
      rw [deliver_of_tiny ht]
      refine ⟨_, rfl, ?_⟩
      rw [Ne, value_eq_exactValue_iff, ← signed_sum, ← Ne, ← signed_rounded_ne_iff hbound]
      cases (rounded (sumMag x y z) rc (sumSign x y z)).2 <;> simp [FpFlags.none]
  · have hne : exactValue x y z ≠ 0 := exactValue_ne_zero_of_sumMag_pos (by
      have hclose := (hup.1 h).1
      have hq := Nat.le_of_dvd minNormal_pos (two_pow_dvd_minNormal (n := 1073) (by norm_num))
      omega)
    rw [← roundsUpTo_minNormal_iff hne] at hup
    have ht : ¬Tiny rc (sumSign x y z) (sumMag x y z) := not_tiny_iff.2 (.inr (hup.1 h))
    have hr := rounded_of_lt_of_not_tiny hlt ht
    have ho : ¬Overflows rc (sumSign x y z) (sumMag x y z) := by
      rw [overflows_iff_rounded ht, hr]
      exact minNormal_lt_overflowBound.not_ge
    rw [fnmadd64_eq_deliver hx hy hz (mt exactValue_eq_zero_iff.2 hne), deliver_of_normal ht ho, hr, enc_minNormal]
    exact ⟨rfl, rfl, rfl, rfl⟩
  · have hne := exactValue_ne_zero_of_sumMag_pos (minNormal_pos.trans_le hge)
    rw [fnmadd64_eq_deliver hx hy hz (mt exactValue_eq_zero_iff.2 hne)]
    exact deliver_ue_of_not_tiny (not_tiny_of_minNormal_le hge)

/-! ## Lanes that are neither NaN nor invalid (R131(d)-(e), R147) -/

theorem isNaN_of_isFinite {x : Word} (h : isFinite x = true) : isNaN x = false := ((isFinite_iff x).1 h).2

section
variable {s : Bool} {m : Nat} {rc : Rounding} {ftz um om : Bool} {pre : FpFlags} {w : Word}

/-- Rounding and delivering never make a NaN. -/
theorem isNaN_of_deliver (h : (deliver s m rc ftz um om pre).result = some w) : isNaN w = false := by
  rcases deliver_inversion (s := s) (m := m) (rc := rc) (ftz := ftz) (um := um) (om := om) (pre := pre) with
    ⟨_, e⟩ | ⟨_, _, e⟩ | ⟨_, e⟩ | ⟨_, e⟩ | ⟨hlt, _, _, e⟩ <;> rw [e] at h
  · cases h
  · obtain rfl := Option.some.inj h
    rw [isNaN_withSign]
    decide
  · cases h
  · obtain rfl := Option.some.inj h
    rw [isNaN_withSign]
    cases overflowsToInf rc s <;> decide
  · obtain rfl := Option.some.inj h
    exact isNaN_of_isFinite (isFinite_enc hlt)

/-- Delivering keeps the flags that the operands raised. -/
theorem deliver_operand_flags :
    (deliver s m rc ftz um om pre).flags.ie = pre.ie ∧ (deliver s m rc ftz um om pre).flags.de = pre.de := by
  rcases deliver_cases s m rc ftz um om pre with ⟨_, h⟩ | ⟨_, h⟩ | ⟨w, f, h, hie, hde⟩
  · rw [h]
    exact ⟨rfl, rfl⟩
  · rw [h]
    exact ⟨rfl, rfl⟩
  · rw [h]
    exact ⟨hie, hde⟩

end

section
variable {x y z : Word} {rc : Rounding} {ftz um om : Bool}

/-- The flags IE and DE of a lane that is neither NaN nor invalid, and what it delivers is no NaN. -/
theorem fnmaddCore_of_valid (hn : anyNaN x y z = false) (hv : invalidOperation x y z = false) :
    (fnmaddCore x y z rc ftz um om).flags.ie = false ∧
    (fnmaddCore x y z rc ftz um om).flags.de = anyDenormal x y z ∧
    ∀ w, (fnmaddCore x y z rc ftz um om).result = some w → isNaN w = false := by
  by_cases hinf : isInf x = true ∨ isInf y = true
  · rw [fnmaddCore_of_infinite_product hn hv hinf]
    refine ⟨rfl, rfl, ?_⟩
    rintro w ⟨⟩
    rw [isNaN_withSign]
    decide
  · obtain ⟨hx, hy⟩ := not_or.1 hinf
    rw [Bool.not_eq_true] at hx hy
    obtain ⟨hnx, hny, hnz⟩ := anyNaN_eq_false_iff.1 hn
    cases hz : isInf z with
    | true =>
      rw [fnmaddCore_of_infinite_addend hn hx hy hz]
      refine ⟨rfl, rfl, ?_⟩
      rintro w ⟨⟩
      exact hnz
    | false =>
      rw [fnmaddCore_of_finite (isFinite_of_not hx hnx) (isFinite_of_not hy hny) (isFinite_of_not hz hnz)]
      split
      · refine ⟨rfl, rfl, ?_⟩
        rintro w ⟨⟩
        rw [isNaN_withSign]
        decide
      · exact ⟨deliver_operand_flags.1, deliver_operand_flags.2, fun w => isNaN_of_deliver⟩

/-- IE of a lane: a signalling NaN, or an invalid operation without a NaN. -/
theorem fnmaddCore_ie_iff :
    (fnmaddCore x y z rc ftz um om).flags.ie = true ↔
      (isSNaN x = true ∨ isSNaN y = true ∨ isSNaN z = true) ∨ anyNaN x y z = false ∧ invalidOperation x y z = true := by
  cases hn : anyNaN x y z with
  | true => simp [fnmaddCore_of_anyNaN hn, or_assoc]
  | false =>
    obtain ⟨hx, hy, hz⟩ := anyNaN_eq_false_iff.1 hn
    cases hv : invalidOperation x y z with
    | true => simp [fnmaddCore_of_invalid hn hv]
    | false => simp [(fnmaddCore_of_valid hn hv).1, isSNaN, hx, hy, hz]

/-- DE of a lane: a denormal operand, unless the lane is NaN or invalid. -/
theorem fnmaddCore_de_iff :
    (fnmaddCore x y z rc ftz um om).flags.de = true ↔
      anyDenormal x y z = true ∧ ¬anyNaN x y z = true ∧ ¬invalidOperation x y z = true := by
  cases hn : anyNaN x y z with
  | true => simp [fnmaddCore_of_anyNaN hn, FpFlags.none]
  | false =>
    cases hv : invalidOperation x y z with
    | true => simp [fnmaddCore_of_invalid hn hv, FpFlags.none]
    | false => simp [(fnmaddCore_of_valid hn hv).2.1]

theorem isNaN_quiet {x : Word} (h : isNaN x = true) : isNaN (quiet x) = true := by
  have hexp : (0x0008000000000000#64).extractLsb' 52 11 = 0#11 := by decide
  rw [isNaN_iff, expField, fracField, quiet, BitVec.extractLsb'_or, BitVec.extractLsb'_or, hexp, BitVec.or_zero]
  obtain ⟨hmax, hfrac⟩ := (isNaN_iff x).1 h
  refine ⟨hmax, fun h0 => hfrac ?_⟩
  have hzero := (BitVec.or_eq_zero_iff.1 (BitVec.eq_of_toNat_eq h0)).1
  rw [fracField, hzero]
  rfl

/-- A delivered NaN: from a NaN operand or an invalid operation, and from nothing else. -/
theorem fnmaddCore_isNaN_iff {w : Word} (h : (fnmaddCore x y z rc ftz um om).result = some w) :
    isNaN w = true ↔ anyNaN x y z = true ∨ anyNaN x y z = false ∧ invalidOperation x y z = true := by
  cases hn : anyNaN x y z with
  | true =>
    rw [fnmaddCore_of_anyNaN hn] at h
    obtain rfl := Option.some.inj h
    simp [isNaN_quiet (isNaN_firstNaN hn)]
  | false =>
    cases hv : invalidOperation x y z with
    | true =>
      rw [fnmaddCore_of_invalid hn hv] at h
      obtain rfl := Option.some.inj h
      simp [show isNaN indefinite = true by decide]
    | false => simp [(fnmaddCore_of_valid hn hv).2.2 w h]

end

/-- Settles O48: the replacement written out is the model's, after which no operand is a denormal. -/
theorem denormalsAreZeros : Obligations.DenormalsAreZeros := by
  intro x y z rc ftz um om g hg
  obtain rfl : g = dazReplace true := funext fun v => (hg v).trans (dazReplace_true_eq v).symm
  refine ⟨fnmadd64_without_daz.symm, ?_, fun hx hy hz => ?_⟩
  · rw [← Bool.not_eq_true, fnmadd64, fnmaddCore_de_iff, anyDenormal_dazReplace]
    exact fun h => Bool.false_ne_true h.1
  · have hny := (not_inf_nan_of_exp_zero ((isDenormal_iff y).1 hy).1).2
    refine fnmaddCore_of_invalid ?_ (invalidOperation_iff.2 (.inl ⟨?_, isZero_dazReplace_of_denormal hy⟩))
    · rw [anyNaN_dazReplace]
      exact anyNaN_eq_false_iff.2 ⟨isNaN_of_isInf hx, hny, hz⟩
    · rwa [isInf_dazReplace]

/-- Settles O58: `fnmaddCore_de_iff`, DAZ leaving no denormal operand. -/
theorem denormalFlagIff : Obligations.DenormalFlagIff := by
  intro x y z rc daz ftz um om
  rw [fnmadd64, fnmaddCore_de_iff, anyDenormal_dazReplace]
  cases daz with
  | true => simp
  | false =>
    simp only [dazReplace_false, Bool.not_false, Bool.true_and, anyDenormal_iff, anyNaN_iff, invalidOperation_iff,
      true_and]
    rfl

/-- Settles O59: IE and NaN results by the branches of the lane function, its symmetry, and two NaNs that show where it
ends. -/
theorem nanInvalidAndSymmetry : Obligations.NanInvalidAndSymmetry := by
  refine ⟨?_, fun x y z rc daz ftz um om h => ?_, 0x7FF8000000000001#64, 0x7FF8000000000002#64, 0#64, .nearest, false,
    false, true, true, by decide +kernel⟩
  · rintro x y z w rc daz ftz um om x' y' bad rfl rfl hbad
    have hbad' : bad ↔ anyNaN x y z = false ∧
        invalidOperation (dazReplace daz x) (dazReplace daz y) (dazReplace daz z) = true := by
      rw [hbad, ← anyNaN_iff, Bool.not_eq_true, invalidOperation_iff]
      simp only [isInf_dazReplace, signBit_dazReplace, negProductSign_dazReplace]
      rfl
    rw [hbad', ← anyNaN_iff, ← anyNaN_dazReplace daz x y z]
    refine ⟨?_, fnmaddCore_isNaN_iff⟩
    rw [fnmadd64, fnmaddCore_ie_iff]
    simp only [isSNaN_dazReplace]
  · exact fnmaddCore_comm _ _ _ _ _ (by simpa using h)

end Sys2Proof.Machine

/-! Proofs about what a completed instruction delivers (41_vex_forms.md): completion and the bits above the operand
length, said once for every row through `parts`, then for the six VEX rows; and the words that the spec writes out. -/

namespace Sys2Proof.Machine

/-! ## Completion of every row (R170, R245) -/

/-- An enabled instruction whose operand can be read and whose active lanes compute `f` completes with `f`, when no
active lane has an unmasked condition or under embedded rounding. -/
theorem completesWith_of_enabled {s : State} {i : Instr} {f : Nat → LaneResult} (he : enabled s i = true)
    (ho : operandOk s i) (hf : ∀ j, j < (parts i).lanes → activeLane s i j = true → outcome s i j = f j)
    (hm : (parts i).rounding.isSome = true ∨
      ∀ j, j < (parts i).lanes → activeLane s i j = true → unmasked s.mxcsr (f j).flags = false) :
    completesWith i s (parts i).dst (parts i).lanes (activeLane s i) (isZeroing (parts i).mask) f
      (!(parts i).rounding.isSome) i.length := by
  obtain ⟨o, ⟨hdst, hlanes, hactive, hzmask, hsae, hilen, h8, hlane⟩, hexec⟩ := exec_of_enabled he ho
  have hcompletes := completesWith_of_execPacked (f := f) hexec h8
  rw [hdst, hlanes, hactive, hzmask, hsae, hilen] at hcompletes
  exact hcompletes (fun j hj ha => (hlane j).trans (hf j hj ha)) hm

/-! ## Operand 3 by its form (R64, R191-R193) -/

section
variable {s : State} {k : Kind} {p : List LegacyPrefix} {mask : Masking} {m : MemAddr} {j : Nat}

theorem operand3_vex_reg {l : VexLength} {dst src2 r : BitVec 4} :
    operand3 s (Instr.vex k l p dst src2 (.reg r)) j = lane (readVec s (vexReg r)) j := by
  rw [operand3, parts_vex]
  rfl

theorem operand3_vex_mem {l : VexLength} {dst src2 : BitVec 4} :
    operand3 s (Instr.vex k l p dst src2 (.mem m)) j =
      vectorElement s (linearAddress s p 1 (vexLength p (.mem m)) m) j := by
  simp only [operand3, operandAddress, parts_vex, length_vex]
  rfl

theorem operand3_evex_reg {l : EvexLength} {dst src2 r : BitVec 5} :
    operand3 s (Instr.evex k l p mask dst src2 (.reg r)) j = lane (readVec s r) j := by
  rw [operand3, parts_evex]
  rfl

theorem operand3_evex_mem {l : EvexLength} {dst src2 : BitVec 5} :
    operand3 s (Instr.evex k l p mask dst src2 (.mem m)) j =
      vectorElement s (linearAddress s p (8 * evexLanes l) (evexLength p (.plain (.mem m))) m) j := by
  simp only [operand3, operandAddress, parts_evex, length_evex]
  rfl

theorem operand3_evex_broadcast {l : EvexLength} {dst src2 : BitVec 5} :
    operand3 s (Instr.evex k l p mask dst src2 (.broadcast m)) j =
      readWord s (linearAddress s p 8 (evexLength p (.plain (.broadcast m))) m) := by
  simp only [operand3, operandAddress, parts_evex, length_evex]
  rfl

end

/-! ## What a completed instruction has gone through -/

theorem gate_ne_next {s t : State} {e f : Bool} : gate s e f ≠ some (.next t) := by
  intro h
  rcases gate_eq_some h with h | h | h <;> cases h

theorem memFault_ne_next {s t : State} {seg : Segment} {la : Word} {size : Nat} {elements : List Word} :
    memFault s seg la size elements ≠ some (.next t) := by
  intro h
  rcases memFault_eq_some h with h | h | ⟨_, _, h⟩ | ⟨_, h⟩ <;> cases h

/-- An instruction that completes has gone through `ExecPacked` with its own operands, at any alignment. -/
theorem packedAs_of_exec_next {i : Instr} {s t : State} (h : exec i s = .next t) :
    ∃ o, packedAs s i o ∧ execPacked o s = .next t := by
  rcases instr_shape i with ⟨k, l, p, dst, src2, op3, rfl⟩ | ⟨k, l, p, mask, dst, src2, op3, rfl⟩ |
    ⟨k, p, mask, dst, src2, r, rc, rfl⟩
  · rw [exec_vex] at h
    unfold execVex at h
    split at h
    · next hg => exact absurd (h ▸ hg) gate_ne_next
    · cases op3 with
      | reg r => exact ⟨_, packedAs_vex k l p dst src2 (.reg r) s _ fun _ => operand3_vex_reg.symm, h⟩
      | mem m =>
        dsimp only at h
        split at h
        · next hm => exact absurd (h ▸ hm) memFault_ne_next
        · exact ⟨_, packedAs_vex k l p dst src2 (.mem m) s _ fun _ => operand3_vex_mem.symm, h⟩
  · rw [exec_evex] at h
    unfold execEvex at h
    split at h
    · next hg => exact absurd (h ▸ hg) gate_ne_next
    · cases op3 with
      | reg r => exact ⟨_, packedAs_evex k l p mask dst src2 (.reg r) s _ fun _ => operand3_evex_reg.symm, h⟩
      | mem m =>
        dsimp only at h
        split at h
        · next hm => exact absurd (h ▸ hm) memFault_ne_next
        · exact ⟨_, packedAs_evex k l p mask dst src2 (.mem m) s _ fun _ => operand3_evex_mem.symm, h⟩
      | broadcast m =>
        dsimp only at h
        split at h
        · next hm => exact absurd (h ▸ hm) memFault_ne_next
        · exact ⟨_, packedAs_evex k l p mask dst src2 (.broadcast m) s _ fun _ => operand3_evex_broadcast.symm, h⟩
  · rw [exec_evexRounded] at h
    unfold execEvex512 at h
    dsimp only at h
    split at h
    · next hg => exact absurd (h ▸ hg) gate_ne_next
    · exact ⟨_, packedAs_rounded k p mask dst src2 r rc s, h⟩

theorem execPacked_next {o : PackedOp} {s t : State} (h : execPacked o s = .next t) :
    ∃ mxcsr, t = o.complete s mxcsr := by
  rcases execPacked_cases o s with ⟨_, hx⟩ | ⟨_, _, hx⟩ | ⟨_, _, hx⟩
  · exact ⟨_, Host.Outcome.next.inj (h.symm.trans hx)⟩
  · exact ⟨_, Host.Outcome.next.inj (h.symm.trans hx)⟩
  · rw [hx, raiseXM] at h
    split at h <;> cases h

/-! ## The bits above the operand length (R178, R197) -/

/-- A bit of a vector is a bit of one of its eight lanes. -/
theorem getLsbD_eq_lane (v : Vec) (n : Nat) : v.getLsbD n = (lane v (n / 64)).getLsbD (n % 64) := by
  rw [lane_getLsbD _ _ _ (Nat.mod_lt n (by omega)), Nat.div_add_mod]

/-- Whenever an instruction completes, the bits of its destination above its lanes are 0. -/
theorem getLsbD_above_of_exec_next {i : Instr} {s t : State} (h : exec i s = .next t) {n : Nat}
    (hn : 64 * (parts i).lanes ≤ n) : (readVec t (parts i).dst).getLsbD n = false := by
  obtain ⟨o, ⟨hdst, hlanes, _⟩, hx⟩ := packedAs_of_exec_next h
  obtain ⟨mxcsr, rfl⟩ := execPacked_next hx
  by_cases h512 : n < 512
  · rw [getLsbD_eq_lane, ← hdst, lane_complete_above mxcsr (by omega) (by omega), BitVec.getLsbD_zero]
  · exact BitVec.getLsbD_of_ge _ _ (by omega)

/-- Settles O32: `getLsbD_above_of_exec_next` at two and at four lanes. -/
theorem vexZeroesUpperBits : Obligations.VexZeroesUpperBits := by
  intro k p dst src2 op3 s t
  have above (l : VexLength) (h : exec (Instr.vex k l p dst src2 op3) s = .next t) (n : Nat)
      (hn : 64 * vexLanes l ≤ n) : (readVec t (vexReg dst)).getLsbD n = false := by
    have hbit := getLsbD_above_of_exec_next h (n := n)
    rw [parts_vex] at hbit
    exact hbit hn
  exact ⟨above .l128, above .l256⟩

/-! ## Completion of the six VEX rows (R170-R180) -/

section
variable {k : Kind} {l : VexLength} {p : List LegacyPrefix} {dst src2 : BitVec 4} {op3 : VexOp3} {s : State}

/-- A VEX row in the terms of `completesWith_of_enabled`: all of its `vexLanes l` lanes are active, and MXCSR.RC
rounds. -/
theorem vex_completesWith {f : Nat → LaneResult} (he : enabled s (Instr.vex k l p dst src2 op3) = true)
    (ho : operandOk s (Instr.vex k l p dst src2 op3))
    (hf : ∀ j, f j = laneOf k s.mxcsr (mxRC s.mxcsr) false (lane (readVec s (vexReg dst)) j)
      (lane (readVec s (vexReg src2)) j) (operand3 s (Instr.vex k l p dst src2 op3) j))
    (hm : ∀ j, j < vexLanes l → unmasked s.mxcsr (f j).flags = false) :
    completesWith (Instr.vex k l p dst src2 op3) s (vexReg dst) (vexLanes l) (fun _ => true) false f true
      (vexLength p op3) := by
  have hactive : activeLane s (Instr.vex k l p dst src2 op3) = fun _ => true := by
    funext j
    rw [activeLane, parts_vex]
    rfl
  have hcompletes := completesWith_of_enabled (f := f) he ho
  rw [hactive, parts_vex, length_vex] at hcompletes
  refine hcompletes (fun j _ _ => ?_) (.inr fun j hj _ => hm j hj)
  rw [hf, outcome, parts_vex]
  rfl

theorem operandOk_vex_reg (r : BitVec 4) : operandOk s (Instr.vex k l p dst src2 (.reg r)) := by
  intro m hm
  rw [memOperand, parts_vex] at hm
  cases hm

theorem operandOk_vex_mem {m : MemAddr} {la : Word} (hla : la = linearAddress s p 1 (vexLength p (.mem m)) m)
    (hal : alignCheckOn s = false)
    (hb : ∀ t, t < 8 * vexLanes l → canonical s.cpu.linearWidth (la + BitVec.ofNat 64 t) = true ∧
      readable s (la + BitVec.ofNat 64 t) = true) :
    operandOk s (Instr.vex k l p dst src2 (.mem m)) := by
  intro m' hm'
  rw [memOperand, parts_vex] at hm'
  cases hm'
  refine ⟨hal, fun t ht => ?_⟩
  rw [accesses, parts_vex] at ht
  obtain ⟨hlt, _⟩ := ht
  rw [operandAddress, parts_vex, length_vex]
  exact hla ▸ hb t hlt

end

/-- Settles O24: a register operand is always readable. -/
theorem vexRegisterFormsComplete : Obligations.VexRegisterFormsComplete := by
  intro k l p dst src2 r s kl f hkl hf he hm
  obtain rfl : kl = vexLanes l := by cases l <;> exact hkl
  refine vex_completesWith he (operandOk_vex_reg r) (fun j => ?_) hm
  rw [hf, operand3_vex_reg]

/-- Settles O25: the bytes of the premise are all that the six rows access, whatever the alignment. -/
theorem vexMemoryFormsComplete : Obligations.VexMemoryFormsComplete := by
  intro k l p dst src2 m s kl la f hkl hla hf he hal hb hm
  obtain rfl : kl = vexLanes l := by cases l <;> exact hkl
  refine vex_completesWith he (operandOk_vex_mem hla hal hb) (fun j => ?_) hm
  rw [hf, hla, operand3_vex_mem]
  rfl

/-! ## The spec's words (R172, R174, R177, R204, R205, R208) -/

/-- The bytes that the encoder gives for a well-formed instruction decode to it, nothing left over. -/
theorem decode_of_encode_eq {i : Instr} {bs : List Byte} (hi : i.wf = true) (h : encode i = bs) :
    decode bs = .instr i [] := by
  have hdecode := decode_encode [] hi
  rwa [h, List.append_nil] at hdecode

/-- Settles O4: each word is the encoding of the instruction that the spec names. -/
theorem specWordsDecode : Obligations.SpecWordsDecode :=
  ⟨decode_of_encode_eq (by decide) (by decide), decode_of_encode_eq (by decide) (by decide),
    decode_of_encode_eq (by decide) (by decide), decode_of_encode_eq (by decide) (by decide),
    decode_of_encode_eq (by decide) (by decide), decode_of_encode_eq (by decide) (by decide)⟩

end Sys2Proof.Machine

/-! Proofs about the EVEX forms (42_evex_forms.md): `exec` as one expression for every row, from it what write masks do
and do not touch, completion of the nine EVEX rows, and their agreement with the VEX rows. -/

namespace Sys2Proof.Machine

/-! ## `exec` as one expression for every row (R170, R243) -/

/-- What `ExecPacked` is given for an instruction, whatever its row. -/
def packedOf (s : State) (i : Instr) : PackedOp :=
  { kind := (parts i).kind, lanes := (parts i).lanes, dst := (parts i).dst, src2 := (parts i).src2
    op3 := operand3 s i, active := activeLane s i, zmask := isZeroing (parts i).mask
    rc := (parts i).rounding.getD (mxRC s.mxcsr), sae := (parts i).rounding.isSome, ilen := i.length }

/-- The fault of the checks on the memory operand, if it has one and it faults (R62-R64). -/
def operandFault (s : State) (i : Instr) : Option Result :=
  (memOperand i).bind fun m =>
    memFault s (segmentOf (parts i).p m) (operandAddress s i m) (operandSize (parts i)) (accessedElements s i m)

section
variable {s t : State} {i : Instr} {k : Kind} {p : List LegacyPrefix} {mask : Masking}

theorem vexOp_eq_packedOf {l : VexLength} {dst src2 : BitVec 4} {op3 : VexOp3} {c : Nat → Word}
    (hc : ∀ j, operand3 s (Instr.vex k l p dst src2 op3) j = c j) :
    vexOp k l dst src2 c (vexLength p op3) s = packedOf s (Instr.vex k l p dst src2 op3) := by
  obtain rfl := funext hc
  cases l <;> cases k <;> rfl

theorem evexOp_eq_packedOf {l : EvexLength} {dst src2 : BitVec 5} {op3 : EvexOp3} {c : Nat → Word}
    (hc : ∀ j, operand3 s (Instr.evex k l p mask dst src2 op3) j = c j) :
    evexOp k l mask dst src2 c (evexLength p (.plain op3)) s = packedOf s (Instr.evex k l p mask dst src2 op3) := by
  obtain rfl := funext hc
  cases l <;> cases k <;> rfl

theorem roundedOp_eq_packedOf {dst src2 r : BitVec 5} {rc : Rounding} :
    roundedOp k p mask dst src2 r rc s = packedOf s (Instr.evexRounded k p mask dst src2 r rc) := by
  cases k <;> rfl

theorem operandFault_vex_mem {l : VexLength} {dst src2 : BitVec 4} {m : MemAddr} :
    operandFault s (Instr.vex k l p dst src2 (.mem m)) =
      memFault s (segmentOf p m) (linearAddress s p 1 (vexLength p (.mem m)) m) (8 * vexLanes l)
        (vectorElements (linearAddress s p 1 (vexLength p (.mem m)) m) (vexLanes l) fun _ => true) := by
  cases l <;> cases k <;> rfl

theorem operandFault_evex_mem {l : EvexLength} {dst src2 : BitVec 5} {m : MemAddr} :
    operandFault s (Instr.evex k l p mask dst src2 (.mem m)) =
      memFault s (segmentOf p m) (linearAddress s p (8 * evexLanes l) (evexLength p (.plain (.mem m))) m)
        (8 * evexLanes l) (vectorElements (linearAddress s p (8 * evexLanes l) (evexLength p (.plain (.mem m))) m)
          (evexLanes l) (laneActive s mask)) := by
  cases l <;> cases k <;> rfl

theorem operandFault_evex_broadcast {l : EvexLength} {dst src2 : BitVec 5} {m : MemAddr} :
    operandFault s (Instr.evex k l p mask dst src2 (.broadcast m)) =
      memFault s (segmentOf p m) (linearAddress s p 8 (evexLength p (.plain (.broadcast m))) m) 8
        (broadcastElements (linearAddress s p 8 (evexLength p (.plain (.broadcast m))) m) (evexLanes l)
          (laneActive s mask)) := by
  cases l <;> cases k <;> rfl

theorem operandFault_of_reg {r : BitVec 5} (h : (parts i).op3 = .reg r) : operandFault s i = none := by
  rw [operandFault, memOperand, h]
  rfl

theorem match_eq_getD (fault : Option Result) (r : Result) :
    (match fault with
      | some stop => stop
      | none => r) = fault.getD r := by
  cases fault <;> rfl

/-- Past the gate, an instruction is the fault of its operand or `ExecPacked`. -/
theorem exec_of_gateOf_eq_none (hg : gateOf s i = none) :
    exec i s = (operandFault s i).getD (execPacked (packedOf s i) s) := by
  rcases instr_shape i with ⟨k, l, p, dst, src2, op3, rfl⟩ | ⟨k, l, p, mask, dst, src2, op3, rfl⟩ |
    ⟨k, p, mask, dst, src2, r, rc, rfl⟩
  · rw [gateOf_vex] at hg
    rw [exec_vex]
    unfold execVex
    rw [hg]
    cases op3 with
    | reg r =>
      rw [operandFault_of_reg (by rw [parts_vex]; rfl), ← vexOp_eq_packedOf fun _ => operand3_vex_reg]
      rfl
    | mem m =>
      rw [operandFault_vex_mem, ← vexOp_eq_packedOf fun _ => operand3_vex_mem]
      exact match_eq_getD _ _
  · rw [gateOf_evex] at hg
    rw [exec_evex]
    unfold execEvex
    rw [hg]
    cases op3 with
    | reg r =>
      rw [operandFault_of_reg (by rw [parts_evex]; rfl), ← evexOp_eq_packedOf fun _ => operand3_evex_reg]
      rfl
    | mem m =>
      rw [operandFault_evex_mem, ← evexOp_eq_packedOf fun _ => operand3_evex_mem]
      exact match_eq_getD _ _
    | broadcast m =>
      rw [operandFault_evex_broadcast, ← evexOp_eq_packedOf fun _ => operand3_evex_broadcast]
      exact match_eq_getD _ _
  · rw [gateOf_evexRounded] at hg
    rw [exec_evexRounded, ← roundedOp_eq_packedOf, operandFault_of_reg (by rw [parts_evexRounded]; rfl)]
    unfold execEvex512
    dsimp only
    rw [hg]
    rfl

theorem exec_of_no_fault (hg : gateOf s i = none) (hf : operandFault s i = none) :
    exec i s = execPacked (packedOf s i) s := by
  rw [exec_of_gateOf_eq_none hg, hf, Option.getD_none]

theorem operandFault_ne_next : operandFault s i ≠ some (.next t) := by
  intro h
  obtain ⟨m, _, hm⟩ := Option.bind_eq_some_iff.1 h
  exact memFault_ne_next hm

/-- An instruction completes exactly when the gate and the checks on its operand pass and `ExecPacked` completes. -/
theorem exec_eq_next_iff :
    exec i s = .next t ↔
      gateOf s i = none ∧ operandFault s i = none ∧ execPacked (packedOf s i) s = .next t := by
  cases hg : gateOf s i with
  | some stop =>
    have hne : stop ≠ .next t := fun h => gate_ne_next (h ▸ hg)
    simp [exec_of_gateOf_eq_some hg, hne]
  | none =>
    rw [exec_of_gateOf_eq_none hg]
    cases hf : operandFault s i with
    | some stop =>
      have hne : stop ≠ .next t := fun h => operandFault_ne_next (h ▸ hf)
      simp [hne]
    | none => simp

end

/-! ## The checks on an operand read backwards (R62-R64) -/

/-- The checks on an operand pass exactly when every accessed byte is canonical and accessible and alignment checking
does not stop it; the segment matters to the fault alone. -/
theorem memFault_eq_none_iff {s : State} {seg : Segment} {la : Word} {size : Nat} {elements : List Word} :
    memFault s seg la size elements = none ↔
      (∀ a ∈ elementBytes elements, canonical s.cpu.linearWidth a = true) ∧
      (∀ a ∈ elementBytes elements, readable s a = true) ∧
      (alignCheckOn s && !elements.isEmpty && la.toNat % size != 0 &&
        Config.alignmentFault size la (elementBytes elements)) = false := by
  rw [← pageFaultAddress_eq_none]
  unfold memFault
  split
  · next h =>
    obtain ⟨a, ha, hc⟩ := List.any_eq_true.1 h
    simp only [reduceCtorEq, false_iff]
    rintro ⟨hall, _⟩
    simp [hall a ha] at hc
  · next h =>
    simp only [List.any_eq_true, not_exists, not_and, Bool.not_eq_true', Bool.not_eq_false] at h
    cases pageFaultAddress s elements with
    | some a => simp
    | none => simpa using fun _ => h

/-- An instruction that accesses a byte has an active lane (R61). -/
theorem exists_active_of_accesses {s : State} {i : Instr} {t : Nat} (h : accesses s i t) :
    ∃ j, j < (parts i).lanes ∧ activeLane s i j = true := by
  cases hop : (parts i).op3 with
  | reg r => exact absurd h (not_accesses_of_reg hop t)
  | mem m =>
    obtain ⟨ht, ha⟩ := (accesses_of_mem hop t).1 h
    exact ⟨t / 8, by omega, ha⟩
  | broadcast m => exact ((accesses_of_broadcast hop t).1 h).2

/-- With no active lane nothing is accessed, and the checks pass wherever the operand lies (R61, R211). -/
theorem operandFault_of_no_active {s : State} {i : Instr}
    (h : ∀ j, j < (parts i).lanes → activeLane s i j = false) : operandFault s i = none := by
  have hnone : ∀ m, accessedElements s i m = [] := by
    intro m
    refine List.eq_nil_iff_forall_not_mem.2 fun e he => ?_
    obtain ⟨t, ht, _⟩ := mem_accessedElements.1 he
    obtain ⟨j, hj, ha⟩ := exists_active_of_accesses ht
    simp [h j hj] at ha
  rw [operandFault]
  cases memOperand i with
  | none => rfl
  | some m => rw [Option.bind_some, hnone, memFault_nil]

/-! ## Completion of the nine EVEX rows (R190-R208) -/

section
variable {k : Kind} {l : EvexLength} {p : List LegacyPrefix} {mask : Masking} {dst src2 : BitVec 5} {op3 : EvexOp3}
  {s : State}

theorem activeLane_evex : activeLane s (Instr.evex k l p mask dst src2 op3) = laneActive s mask := by
  funext j
  rw [activeLane, parts_evex]
  rfl

/-- An EVEX row without embedded rounding in the terms of `completesWith_of_enabled`: the lanes that the mask names are
active, and MXCSR.RC rounds. -/
theorem evex_completesWith {f : Nat → LaneResult} (he : enabled s (Instr.evex k l p mask dst src2 op3) = true)
    (ho : operandOk s (Instr.evex k l p mask dst src2 op3))
    (hf : ∀ j, f j = laneOf k s.mxcsr (mxRC s.mxcsr) false (lane (readVec s dst) j) (lane (readVec s src2) j)
      (operand3 s (Instr.evex k l p mask dst src2 op3) j))
    (hm : ∀ j, j < evexLanes l → laneActive s mask j = true → unmasked s.mxcsr (f j).flags = false) :
    completesWith (Instr.evex k l p mask dst src2 op3) s dst (evexLanes l) (laneActive s mask) (isZeroing mask) f true
      (evexLength p (.plain op3)) := by
  have hcompletes := completesWith_of_enabled (f := f) he ho
  rw [activeLane_evex, parts_evex, length_evex] at hcompletes
  refine hcompletes (fun j _ _ => ?_) (.inr hm)
  rw [hf, outcome, parts_evex]
  rfl

theorem operandOk_evex_reg (r : BitVec 5) : operandOk s (Instr.evex k l p mask dst src2 (.reg r)) := by
  intro m hm
  rw [memOperand, parts_evex] at hm
  cases hm

theorem operandOk_evex_mem {m : MemAddr} {la : Word}
    (hla : la = linearAddress s p (8 * evexLanes l) (evexLength p (.plain (.mem m))) m) (hal : alignCheckOn s = false)
    (hb : ∀ j t, j < evexLanes l → laneActive s mask j = true → t < 8 →
      canonical s.cpu.linearWidth (la + BitVec.ofNat 64 (8 * j + t)) = true ∧
      readable s (la + BitVec.ofNat 64 (8 * j + t)) = true) :
    operandOk s (Instr.evex k l p mask dst src2 (.mem m)) := by
  intro m' hm'
  rw [memOperand, parts_evex] at hm'
  cases hm'
  refine ⟨hal, fun t ht => ?_⟩
  rw [accesses, activeLane_evex, parts_evex] at ht
  obtain ⟨hlt, ha⟩ := ht
  have hbyte := hb (t / 8) (t % 8) (Nat.div_lt_of_lt_mul hlt) ha (Nat.mod_lt t (by omega))
  rw [Nat.div_add_mod, hla] at hbyte
  rw [operandAddress, parts_evex, length_evex]
  exact hbyte

theorem operandOk_evex_broadcast {m : MemAddr} {la : Word}
    (hla : la = linearAddress s p 8 (evexLength p (.plain (.broadcast m))) m) (hal : alignCheckOn s = false)
    (hb : ∀ j t, j < evexLanes l → laneActive s mask j = true → t < 8 →
      canonical s.cpu.linearWidth (la + BitVec.ofNat 64 t) = true ∧ readable s (la + BitVec.ofNat 64 t) = true) :
    operandOk s (Instr.evex k l p mask dst src2 (.broadcast m)) := by
  intro m' hm'
  rw [memOperand, parts_evex] at hm'
  cases hm'
  refine ⟨hal, fun t ht => ?_⟩
  rw [accesses, activeLane_evex, parts_evex] at ht
  obtain ⟨hlt, j, hj, ha⟩ := ht
  rw [operandAddress, parts_evex, length_evex]
  exact hla ▸ hb j t hj ha hlt

end

/-- Settles O26: a register operand is always readable. -/
theorem evexRegisterFormsComplete : Obligations.EvexRegisterFormsComplete := by
  intro k l p mask dst src2 r s kl active f hkl hactive hf he hm
  obtain rfl : kl = evexLanes l := by cases l <;> exact hkl
  obtain rfl : active = laneActive s mask := funext fun j => (hactive j).trans (by cases mask <;> rfl)
  refine evex_completesWith he (operandOk_evex_reg r) (fun j => ?_) hm
  rw [hf, operand3_evex_reg]

/-- Settles O27: the bytes of the active lanes' elements are all that a full-vector operand accesses. -/
theorem evexMemoryFormsComplete : Obligations.EvexMemoryFormsComplete := by
  intro k l p mask dst src2 m s kl active la f hkl hactive hla hf he hal hb hm
  obtain rfl : kl = evexLanes l := by cases l <;> exact hkl
  obtain rfl : active = laneActive s mask := funext fun j => (hactive j).trans (by cases mask <;> rfl)
  refine evex_completesWith he (operandOk_evex_mem hla hal hb) (fun j => ?_) hm
  rw [hf, hla, operand3_evex_mem]
  rfl

/-- Settles O28: the one element is accessed only if some lane is active. -/
theorem evexBroadcastFormsComplete : Obligations.EvexBroadcastFormsComplete := by
  intro k l p mask dst src2 m s kl active la f hkl hactive hla hf he hal hb hm
  obtain rfl : kl = evexLanes l := by cases l <;> exact hkl
  obtain rfl : active = laneActive s mask := funext fun j => (hactive j).trans (by cases mask <;> rfl)
  refine evex_completesWith he (operandOk_evex_broadcast hla hal hb) (fun j => ?_) hm
  rw [hf, hla, operand3_evex_broadcast]
  rfl

/-- Settles O29: SAE suppresses every condition, so nothing is asked of the lanes. -/
theorem embeddedRoundingFormsComplete : Obligations.EmbeddedRoundingFormsComplete := by
  intro k p mask dst src2 r rc s active f hactive hf he
  obtain rfl : active = laneActive s mask := funext fun j => (hactive j).trans (by cases mask <;> rfl)
  have hexec :
      exec (Instr.evexRounded k p mask dst src2 r rc) s = execPacked (roundedOp k p mask dst src2 r rc s) s := by
    rw [exec_of_no_fault (gateOf_enabled he) (operandFault_of_reg (by rw [parts_evexRounded]; rfl)),
      roundedOp_eq_packedOf]
  exact completesWith_of_execPacked hexec (Nat.le_refl 8) (fun j _ _ => (lane_eq_laneOf ..).trans (hf j).symm)
    (.inl rfl)

/-! ## No active lane (R197, R211) -/

/-- With no active lane no flag is reported (R248). -/
theorem reported_of_no_active {kl : Nat} {active : Nat → Bool} (h : ∀ j, j < kl → active j = false)
    (f : Nat → LaneResult) (n : Nat) : reported kl active f n = false := by
  refine List.any_eq_false.2 fun j hj => ?_
  simp [h j (List.mem_range.1 hj)]

/-- Settles O31: with no active lane nothing is accessed, and completion has no result to deliver and no flag to
report. -/
theorem allZeroMaskReadsNothing : Obligations.AllZeroMaskReadsNothing := by
  intro s i he hinactive
  have hexec := exec_of_no_fault (gateOf_enabled he) (operandFault_of_no_active hinactive)
  have hnot : ∀ j, j < (parts i).lanes → ¬activeLane s i j = true := fun j hj => by simp [hinactive j hj]
  obtain ⟨t, hnext, _, hmasked, habove, hother, hmx, hrip, hsame⟩ :=
    completesWith_of_execPacked (f := outcome s i) hexec (lanes_le i) (fun j hj ha => absurd ha (hnot j hj))
      (.inr fun j hj ha => absurd ha (hnot j hj))
  have hmxcsr : t.mxcsr = s.mxcsr := BitVec.eq_of_getLsbD_eq fun n _ => by
    have hquiet : reported (packedOf s i).lanes (packedOf s i).active (outcome s i) n = false :=
      reported_of_no_active hinactive _ n
    rw [hmx n, hquiet, Bool.and_false, Bool.or_false]
  have hlane : ∀ j, j < 8 → lane (readVec t (parts i).dst) j =
      if j < (parts i).lanes then (if isZeroing (parts i).mask then 0#64 else lane (readVec s (parts i).dst) j)
      else 0#64 := by
    intro j hj
    split
    · next h => exact hmasked j h (hinactive j h)
    · next h => exact habove j (Nat.le_of_not_lt h) hj
  refine ⟨t, hnext, hmxcsr, hrip, hsame, hother, fun hz => vec_ext fun j hj => ?_, fun hz j hj => ?_⟩
  · rw [hlane j hj, hz, lane_zero, if_pos rfl, ite_self]
  · rw [hlane j hj, hz, if_neg Bool.false_ne_true]

/-- Whenever an instruction completes, merging leaves an inactive lane of the destination as it was (R190). -/
theorem lane_merged_of_exec_next {s t : State} {i : Instr} (h : exec i s = .next t)
    (hz : isZeroing (parts i).mask = false) {j : Nat} (hj : j < (parts i).lanes) (ha : activeLane s i j = false) :
    lane (readVec t (parts i).dst) j = lane (readVec s (parts i).dst) j := by
  obtain ⟨_, _, hx⟩ := exec_eq_next_iff.1 h
  obtain ⟨mxcsr, rfl⟩ := execPacked_next hx
  exact (lane_complete_inactive (o := packedOf s i) mxcsr (lanes_le i) hj ha).trans
    (if_neg (Bool.eq_false_iff.1 hz))

/-- Settles O33: the bits above are those of `getLsbD_above_of_exec_next`; with no active lane every lane is merged. -/
theorem evexZeroesUpperBits : Obligations.EvexZeroesUpperBits := by
  refine ⟨fun k l p mask dst src2 op3 s t kl hkl h => ?_, fun k p mask dst src2 r rc s t h hz hinactive => ?_⟩
  · obtain rfl : kl = evexLanes l := by cases l <;> exact hkl
    have habove := fun n => getLsbD_above_of_exec_next h (n := n)
    have hmerged := fun hz j => lane_merged_of_exec_next h hz (j := j)
    rw [parts_evex] at habove hmerged
    rw [activeLane_evex] at hmerged
    exact ⟨habove, fun hz hinactive j hj => hmerged hz j hj (hinactive j hj)⟩
  · have hmerged := fun j => lane_merged_of_exec_next h (j := j)
    simp only [activeLane, parts_evexRounded] at hmerged
    exact vec_ext fun j hj => hmerged j hz hj (hinactive j hj)

/-! ## What `ExecPacked` does not depend on -/

/-- Two `ExecPacked` whose lanes report the same flags to the same MXCSR complete together and leave the same MXCSR. -/
theorem execPacked_next_congr {o o' : PackedOp} {s s' t : State} (h : execPacked o s = .next t)
    (hflags : o'.flags s' = o.flags s) (hsae : o'.sae = o.sae) (hmx : s'.mxcsr = s.mxcsr) :
    ∃ mxcsr, t = o.complete s mxcsr ∧ execPacked o' s' = .next (o'.complete s' mxcsr) := by
  rcases execPacked_cases o s with ⟨hs, hx⟩ | ⟨hs, hm, hx⟩ | ⟨_, _, hx⟩
  · exact ⟨_, Host.Outcome.next.inj (h.symm.trans hx), by rw [execPacked, hsae, hs, hmx]; rfl⟩
  · refine ⟨_, Host.Outcome.next.inj (h.symm.trans hx), ?_⟩
    rw [execPacked_of_masked (hsae.trans hs) (by rwa [hflags, hmx]), hflags, hmx]
  · rw [hx, raiseXM] at h
    split at h <;> cases h

/-! ## EVEX and VEX (R210) -/

/-- `ExecPacked` with another length differs in RIP alone. -/
theorem execPacked_ilen {o : PackedOp} {s t : State} (n : Nat) (h : execPacked o s = .next t) :
    execPacked { o with ilen := n } s = .next { t with rip := s.rip + BitVec.ofNat 64 n } := by
  obtain ⟨mxcsr, rfl, hx⟩ := execPacked_next_congr (o' := { o with ilen := n }) (s' := s) h rfl rfl rfl
  exact hx

/-- An enabled unmasked EVEX row with the lanes, register operands and operand 3 of a VEX row that completes: it
completes with the same state but for RIP, when its own operand passes the checks. -/
theorem exec_evex_of_vex {k : Kind} {l : VexLength} {l' : EvexLength} {p : List LegacyPrefix} {dst src2 : BitVec 4}
    {op3 : VexOp3} {op3' : EvexOp3} {s t : State} (hl : evexLanes l' = vexLanes l)
    (hg : gateOf s (Instr.evex k l' p .unmasked (vexReg dst) (vexReg src2) op3') = none)
    (hf : operandFault s (Instr.evex k l' p .unmasked (vexReg dst) (vexReg src2) op3') = none)
    (hop3 : ∀ j, operand3 s (Instr.evex k l' p .unmasked (vexReg dst) (vexReg src2) op3') j =
      operand3 s (Instr.vex k l p dst src2 op3) j)
    (h : exec (Instr.vex k l p dst src2 op3) s = .next t) :
    exec (Instr.evex k l' p .unmasked (vexReg dst) (vexReg src2) op3') s =
      .next { t with rip := s.rip + BitVec.ofNat 64 (evexLength p (.plain op3')) } := by
  obtain ⟨_, _, hx⟩ := exec_eq_next_iff.1 h
  have hpacked : packedOf s (Instr.evex k l' p .unmasked (vexReg dst) (vexReg src2) op3') =
      { packedOf s (Instr.vex k l p dst src2 op3) with ilen := evexLength p (.plain op3') } := by
    rw [← evexOp_eq_packedOf hop3, ← vexOp_eq_packedOf fun _ => rfl, evexOp, hl]
    rfl
  rw [exec_of_no_fault hg hf, hpacked]
  exact execPacked_ilen _ hx

/-- Settles O34, by `exec_evex_of_vex`: in memory form both operands read the same lanes at the one linear address, and
the checks on them ask the same. -/
theorem evexAgreesWithVex : Obligations.EvexAgreesWithVex := by
  intro k p dst src2 r m m' s t l l' hl he
  have hlanes : evexLanes l' = vexLanes l := by rcases hl with ⟨rfl, rfl⟩ | ⟨rfl, rfl⟩ <;> rfl
  refine ⟨fun h => ?_, fun hla _ h => ?_⟩
  · exact exec_evex_of_vex hlanes (gateOf_enabled he) (operandFault_of_reg (by rw [parts_evex]; rfl))
      (fun _ => operand3_evex_reg.trans operand3_vex_reg.symm) h
  · have hla' : linearAddress s p (8 * evexLanes l') (evexLength p (.plain (.mem m'))) m' =
        linearAddress s p 1 (vexLength p (.mem m)) m := by
      rcases hl with ⟨rfl, rfl⟩ | ⟨rfl, rfl⟩ <;> exact hla.symm
    have hg : gateOf s (Instr.evex k l' p .unmasked (vexReg dst) (vexReg src2) (.mem m')) = none := by
      rw [gateOf_evex, ← gateOf_evex s k l' p .unmasked (vexReg dst) (vexReg src2) (.reg (vexReg r))]
      exact gateOf_enabled he
    have hf : operandFault s (Instr.evex k l' p .unmasked (vexReg dst) (vexReg src2) (.mem m')) = none := by
      obtain ⟨_, hfault, _⟩ := exec_eq_next_iff.1 h
      rw [operandFault_vex_mem, memFault_eq_none_iff] at hfault
      rw [operandFault_evex_mem, hla', hlanes, memFault_eq_none_iff]
      exact hfault
    refine exec_evex_of_vex hlanes hg hf (fun _ => ?_) h
    rw [operand3_evex_mem, operand3_vex_mem, hla']

/-! ## The opmask registers (R24, R198) -/

section
variable {s : State} {ks : Vector Word 8} {i : Instr}

/-- The gate reads no opmask register. -/
theorem gateOf_opmask : gateOf { s with opmask := ks } i = none ↔ gateOf s i = none := by
  rw [gateOf, gateOf, gate_eq_none, gate_eq_none]
  rfl

/-- The opmask registers reach an instruction through its active lanes alone. -/
theorem packedOf_opmask :
    packedOf { s with opmask := ks } i = { packedOf s i with active := activeLane { s with opmask := ks } i } := rfl

variable (h : ∀ j, j < (parts i).lanes → activeLane { s with opmask := ks } i j = activeLane s i j)
include h

theorem filter_activeLane_opmask :
    (List.range (parts i).lanes).filter (activeLane { s with opmask := ks } i) =
      (List.range (parts i).lanes).filter (activeLane s i) :=
  List.filter_congr fun j hj => h j (List.mem_range.1 hj)

theorem any_activeLane_opmask :
    (List.range (parts i).lanes).any (activeLane { s with opmask := ks } i) =
      (List.range (parts i).lanes).any (activeLane s i) := by
  have hfilter := congrArg (fun l => l.any fun _ => true) (filter_activeLane_opmask h)
  simpa only [List.any_filter, Bool.and_true] using hfilter

theorem accessedElements_opmask (m : MemAddr) :
    accessedElements { s with opmask := ks } i m = accessedElements s i m := by
  cases hop : (parts i).op3 with
  | reg r => rw [accessedElements_of_reg hop, accessedElements_of_reg hop]
  | mem m' =>
    rw [accessedElements_of_mem hop, accessedElements_of_mem hop, vectorElements, filter_activeLane_opmask h]
    rfl
  | broadcast m' =>
    rw [accessedElements_of_broadcast hop, accessedElements_of_broadcast hop, broadcastElements,
      any_activeLane_opmask h]
    rfl

theorem operandFault_opmask : operandFault { s with opmask := ks } i = none ↔ operandFault s i = none := by
  rw [operandFault, operandFault]
  cases memOperand i with
  | none => rfl
  | some m =>
    rw [Option.bind_some, Option.bind_some, accessedElements_opmask h, memFault_eq_none_iff, memFault_eq_none_iff]
    rfl

theorem flags_opmask :
    (packedOf { s with opmask := ks } i).flags { s with opmask := ks } = (packedOf s i).flags s := by
  rw [packedOf_opmask, PackedOp.flags, PackedOp.flags]
  exact congrArg _ (filter_activeLane_opmask h)

theorem newVec_opmask :
    (packedOf { s with opmask := ks } i).newVec { s with opmask := ks } = (packedOf s i).newVec s := by
  refine congrArg packLanes (List.map_congr_left fun j hj => ?_)
  simp only [packedOf_opmask, PackedOp.newLane, h j (List.mem_range.1 hj)]
  rfl

theorem complete_packedOf_opmask (mxcsr : BitVec 32) :
    (packedOf { s with opmask := ks } i).complete { s with opmask := ks } mxcsr =
      { (packedOf s i).complete s mxcsr with opmask := ks } := by
  rw [PackedOp.complete, newVec_opmask h]
  rfl

end

/-- Settles O40: with the same lanes active, the checks on the operand, the flags and the destination are the same. -/
theorem otherMaskBitsAreIgnored : Obligations.OtherMaskBitsAreIgnored := by
  intro s t i ks hactive h
  obtain ⟨hg, hf, hx⟩ := exec_eq_next_iff.1 h
  obtain ⟨mxcsr, rfl, hx'⟩ := execPacked_next_congr hx (flags_opmask hactive) rfl rfl
  refine ⟨rfl, exec_eq_next_iff.2 ⟨gateOf_opmask.2 hg, (operandFault_opmask hactive).2 hf, ?_⟩⟩
  rw [hx', complete_packedOf_opmask hactive]

end Sys2Proof.Machine

/-! Proofs about the exceptions (60_exceptions.md): when the gate answers #UD or #NM, what an unmasked condition raises and
what it leaves in MXCSR, what a completion does not depend on, and what every fault of a step reports. -/

namespace Sys2Proof.Machine

/-! ## The gate: #UD before #NM (R234-R237) -/

section
variable {s : State}

/-- In 64-bit mode the gate asks `executable64`, then CR0.TS. -/
theorem gateOf_of_long64 (i : Instr) (h : modeOf s = .long64) :
    gateOf s i = if executable64 s i then (if cr0TS s then some (raiseNM s) else none) else some (raiseUD s) := by
  rw [gateOf, gate_long64 _ _ h, executable64, (modeOf_eq_long64 s).1 h, Bool.true_and]

/-- In every mode that is modelled, a failed #UD condition is #UD, whatever CR0.TS is. -/
theorem exec_of_not_executable64 {i : Instr} (hm : modeOf s ≠ .otherProtected) (h : executable64 s i = false) :
    exec i s = raiseUD s := by
  apply exec_of_gateOf_eq_some
  cases hmode : modeOf s with
  | otherProtected => exact absurd hmode hm
  | realAddress => rw [gateOf, gate, hmode]
  | virtual8086 => rw [gateOf, gate, hmode]
  | long64 => rw [gateOf_of_long64 i hmode, h, if_neg Bool.false_ne_true]

/-- Outside 64-bit mode no instruction is executable. -/
theorem executable64_of_mode (i : Instr) (h : modeOf s ≠ .long64) : executable64 s i = false := by
  rw [ne_eq, modeOf_eq_long64, Bool.not_eq_true] at h
  simp [executable64, h]

/-- With every #UD condition passed, CR0.TS alone decides on #NM, before the memory operand is looked at. -/
theorem exec_of_taskSwitched {i : Instr} (h : executable64 s i = true) (hts : cr0TS s = true) :
    exec i s = raiseNM s := by
  have hmode : modeOf s = .long64 := by
    by_contra hne
    rw [executable64_of_mode i hne] at h
    cases h
  apply exec_of_gateOf_eq_some
  rw [gateOf_of_long64 i hmode, if_pos h, if_pos hts]

theorem gateOf_of_otherProtected (i : Instr) (h : modeOf s = .otherProtected) :
    gateOf s i = some (.refused (.modeNotModelled s.rip)) := by
  rw [gateOf, gate, h]

theorem step_of_otherProtected (h : modeOf s = .otherProtected) : step s = .refused (.modeNotModelled s.rip) := by
  rw [step, fetch, if_pos h]

/-- A row without its feature flags is #UD (R236). -/
theorem exec_of_missing_feature {i : Instr} (hm : modeOf s ≠ .otherProtected) (h : featuresPresent s.cpu i = false) :
    exec i s = raiseUD s :=
  exec_of_not_executable64 hm (by rw [executable64, h, Bool.and_false])

end

/-- Settles O15: each of the conditions makes `executable64` false, and then the gate answers #UD. -/
theorem undefinedOpcodeConditions : Obligations.UndefinedOpcodeConditions := by
  intro s i
  refine ⟨fun h => ?_, fun h => ?_, fun h hbits => ?_⟩
  · exact ⟨exec_of_gateOf_eq_some (gateOf_of_otherProtected i h), step_of_otherProtected h⟩
  · rcases h with h | h <;>
      exact exec_of_not_executable64 (by simp [h]) (executable64_of_mode i (by simp [h]))
  · refine exec_of_not_executable64 (by simp [(modeOf_eq_long64 s).2 h]) ?_
    rcases hbits with hxsave | havx | ⟨hevex, havx512⟩
    · have hx : cr4OSXSAVE s = false := hxsave
      simp [executable64, hx]
    · have ha : xcr0Avx s = false := by rwa [← Bool.and_eq_true, Bool.not_eq_true] at havx
      simp [executable64, ha]
    · have ha : xcr0Avx512 s = false := by
        rwa [← and_assoc, ← Bool.and_eq_true, ← Bool.and_eq_true, Bool.not_eq_true] at havx512
      simp [executable64, hevex, ha]

/-! ## Feature flags (R236) -/

@[simp] theorem featuresPresent_vex (c : Cpu) (k : Kind) (l : VexLength) (p : List LegacyPrefix) (dst src2 : BitVec 4)
    (op3 : VexOp3) : featuresPresent c (Instr.vex k l p dst src2 op3) = c.hasFMA := by
  cases l <;> cases k <;> rfl

@[simp] theorem featuresPresent_evex (s : State) (k : Kind) (l : EvexLength) (p : List LegacyPrefix) (mask : Masking)
    (dst src2 : BitVec 5) (op3 : EvexOp3) :
    featuresPresent s.cpu (Instr.evex k l p mask dst src2 op3) = evexFeature s l := by
  cases l <;> cases k <;> rfl

@[simp] theorem featuresPresent_evexRounded (c : Cpu) (k : Kind) (p : List LegacyPrefix) (mask : Masking)
    (dst src2 r : BitVec 5) (rc : Rounding) :
    featuresPresent c (Instr.evexRounded k p mask dst src2 r rc) = c.hasAVX512F := by
  cases k <;> rfl

/-- Settles O16: the feature flags of each row are one conjunct of `executable64`. -/
theorem missingFeatureIsUndefinedOpcode : Obligations.MissingFeatureIsUndefinedOpcode := by
  intro s hm
  refine ⟨fun k l p dst src2 op3 h => ?_, fun k l p mask dst src2 op3 hl h => ?_, fun k p mask dst src2 op3 h => ?_,
    fun k p mask dst src2 r rc h => ?_⟩ <;> refine exec_of_missing_feature hm ?_
  · rw [featuresPresent_vex, h]
  · rw [← Bool.and_eq_true, Bool.not_eq_true] at h
    rw [featuresPresent_evex]
    rcases hl with rfl | rfl <;> exact h
  · rw [featuresPresent_evex]
    exact h
  · rw [featuresPresent_evexRounded, h]

/-- Settles O17, by `exec_of_taskSwitched`, which asks nothing of the memory operand. -/
theorem taskSwitchedIsDeviceNotAvailable : Obligations.TaskSwitchedIsDeviceNotAvailable :=
  fun _ _ => exec_of_taskSwitched

/-! ## Masked conditions (R245) -/

theorem unmasked_of_allMasked {m : BitVec 32} (h : allMasked m = true) (f : FpFlags) : unmasked m f = false := by
  simp only [allMasked, Bool.and_eq_true] at h
  obtain ⟨⟨⟨⟨hi, hd⟩, ho⟩, hu⟩, hp⟩ := h
  simp [unmasked, hi, hd, ho, hu, hp]

/-- Settles O30: with every condition masked, no lane can have an unmasked one. -/
theorem allMaskedCompletes : Obligations.AllMaskedCompletes := by
  refine ⟨by decide, fun s i he hm ho => ?_⟩
  rw [← Option.not_isSome]
  exact completesWith_of_enabled he ho (fun _ _ _ => rfl) (.inr fun _ _ _ => unmasked_of_allMasked hm _)

/-! ## Unmasked conditions (R242, R244) -/

/-- An unmasked pre-computation condition, by the bits of MXCSR. -/
theorem unmasked_pre_iff (m : BitVec 32) (f : FpFlags) :
    unmasked m f.pre = true ↔ (f.ie = true ∧ m.getLsbD 7 = false) ∨ (f.de = true ∧ m.getLsbD 8 = false) := by
  simp [unmasked, FpFlags.pre, FpFlags.none, mxIM, mxDM]

/-- An unmasked post-computation condition, by the bits of MXCSR. -/
theorem unmasked_post_iff (m : BitVec 32) (f : FpFlags) :
    unmasked m f.post = true ↔ (f.oe = true ∧ m.getLsbD 10 = false) ∨ (f.ue = true ∧ m.getLsbD 11 = false) ∨
      (f.pe = true ∧ m.getLsbD 12 = false) := by
  simp [unmasked, FpFlags.post, FpFlags.none, mxOM, mxUM, mxPM, or_assoc]

/-- The pre-computation part of a union is unmasked when that of a member is. -/
theorem unmasked_pre_unionFlags (m : BitVec 32) (l : List FpFlags) :
    unmasked m (unionFlags l).pre = l.any fun f => unmasked m f.pre := by
  induction l with
  | nil => simp [unmasked, FpFlags.pre, FpFlags.none]
  | cons f l ih =>
    have hpre : (f.union (unionFlags l)).pre = f.pre.union (unionFlags l).pre := rfl
    rw [unionFlags_cons, hpre, unmasked_union, ih, List.any_cons]

/-- The pre-computation flags lie at bits 0 and 1 of MXCSR. -/
theorem flagAt_pre (f : FpFlags) (n : Nat) : flagAt f.pre n = (decide (n ≤ 1) && flagAt f n) := by
  match n with
  | 0 => rfl
  | 1 => rfl
  | 2 => rfl
  | 3 => rfl
  | 4 => rfl
  | 5 => rfl
  | n + 6 => simp [flagAt]

theorem raiseXM_of_support {s : State} (h : cr4OSXMMEXCPT s = true) (mxcsr : BitVec 32) :
    raiseXM s mxcsr = raise .simdFloatingPoint none none { s with mxcsr := mxcsr } := by
  rw [raiseXM, if_pos h]

theorem raiseXM_of_no_support {s : State} (h : cr4OSXMMEXCPT s = false) (mxcsr : BitVec 32) :
    raiseXM s mxcsr = raise .invalidOpcode none none
      { s with mxcsr := s.mxcsr ||| (Config.freeFlags s.freeCount).setWidth 32, freeCount := s.freeCount + 1 } := by
  rw [raiseXM, h, if_neg Bool.false_ne_true, raiseUD]

section
variable {s : State} {i : Instr}

/-- An operand whose accessed bytes can be read passes its checks. -/
theorem operandFault_of_operandOk (h : operandOk s i) : operandFault s i = none := by
  rw [operandFault]
  cases hm : memOperand i with
  | none => rfl
  | some m =>
    obtain ⟨hal, hb⟩ := h m hm
    rw [Option.bind_some]
    apply memFault_of_readable
    simp only [operandReadable, hal, Bool.not_false, Bool.true_and, List.all_eq_true, mem_accessedElements_bytes]
    rintro _ ⟨t, ht, rfl⟩
    exact Bool.and_eq_true_iff.2 (hb t ht)

/-- What `ExecPacked` computes in lane `j` of an instruction is `outcome` (R134, R170). -/
theorem lane_packedOf (s : State) (i : Instr) : (packedOf s i).lane s = outcome s i :=
  funext fun _ => lane_eq_laneOf ..

/-- The flag sets that `SignalFP` is given are those of the active lanes (R244). -/
theorem mem_flags_packedOf {f : FpFlags} :
    f ∈ (packedOf s i).flags s ↔ ∃ j, (j < (parts i).lanes ∧ activeLane s i j = true) ∧ (outcome s i j).flags = f := by
  rw [PackedOp.flags, lane_packedOf]
  simp only [List.mem_map, List.mem_filter, List.mem_range]
  rfl

theorem getLsbD_bits_unionFlags_packedOf (n : Nat) :
    (unionFlags ((packedOf s i).flags s)).bits.getLsbD n =
      reported (parts i).lanes (activeLane s i) (outcome s i) n := by
  rw [unionFlags_getLsbD, lane_packedOf]
  rfl

/-- Outside embedded rounding, an unmasked condition of some active lane is raised with what `SignalFP` leaves. -/
theorem exec_of_unmasked {j : Nat} (he : enabled s i = true) (ho : operandOk s i) (hr : (parts i).rounding = none)
    (hj : j < (parts i).lanes) (ha : activeLane s i j = true) (hu : unmasked s.mxcsr (outcome s i j).flags = true) :
    exec i s = raiseXM s (signalFP s.mxcsr ((packedOf s i).flags s)).1 := by
  have hsae : (packedOf s i).sae = false := congrArg Option.isSome hr
  rw [exec_of_no_fault (gateOf_enabled he) (operandFault_of_operandOk ho)]
  rcases execPacked_cases (packedOf s i) s with ⟨hs, _⟩ | ⟨_, hm, _⟩ | ⟨_, _, hx⟩
  · rw [hsae] at hs
    cases hs
  · rw [hm _ (mem_flags_packedOf.2 ⟨j, ⟨hj, ha⟩, rfl⟩)] at hu
    cases hu
  · exact hx

/-- Some active lane has an unmasked pre-computation condition exactly when the union has. -/
theorem unmasked_pre_packedOf :
    unmasked s.mxcsr (unionFlags ((packedOf s i).flags s)).pre = true ↔
      ∃ j, (j < (parts i).lanes ∧ activeLane s i j = true) ∧ unmasked s.mxcsr (outcome s i j).flags.pre = true := by
  rw [unmasked_pre_unionFlags, List.any_eq_true]
  constructor
  · rintro ⟨f, hf, hu⟩
    obtain ⟨j, hj, rfl⟩ := mem_flags_packedOf.1 hf
    exact ⟨j, hj, hu⟩
  · rintro ⟨j, hj, hu⟩
    exact ⟨_, mem_flags_packedOf.2 ⟨j, hj, rfl⟩, hu⟩

end

/-- Settles O35: with an unmasked pre-computation condition `SignalFP` stops after its first phase. -/
theorem unmaskedPreComputationRaises : Obligations.UnmaskedPreComputationRaises := by
  intro s i j he ho hr hos hj ha hcond
  have hpre := (unmasked_pre_iff _ _).2 hcond
  have hu : unmasked s.mxcsr (outcome s i j).flags = true := by rw [unmasked_eq_pre_or_post, hpre, Bool.true_or]
  refine ⟨_, (exec_of_unmasked he ho hr hj ha hu).trans (raiseXM_of_support hos _), fun n => ?_⟩
  rw [signalFP_of_pre (unmasked_pre_packedOf.2 ⟨j, ⟨hj, ha⟩, hpre⟩), BitVec.getLsbD_or, bits_getLsbD, flagAt_pre,
    ← bits_getLsbD, getLsbD_bits_unionFlags_packedOf]

/-- Settles O36: with no unmasked pre-computation condition `SignalFP` goes on to its second phase. -/
theorem unmaskedPostComputationRaises : Obligations.UnmaskedPostComputationRaises := by
  intro s i j he ho hr hos hnot hj ha hcond
  have hpost := (unmasked_post_iff _ _).2 hcond
  have hu : unmasked s.mxcsr (outcome s i j).flags = true := by rw [unmasked_eq_pre_or_post, hpost, Bool.or_true]
  have hpre : unmasked s.mxcsr (unionFlags ((packedOf s i).flags s)).pre = false := by
    rw [Bool.eq_false_iff, ne_eq, unmasked_pre_packedOf]
    rintro ⟨u, ⟨hlt, hact⟩, hpre⟩
    obtain ⟨hie, hde⟩ := hnot u hlt hact
    exact ((unmasked_pre_iff _ _).1 hpre).elim hie hde
  refine ⟨_, (exec_of_unmasked he ho hr hj ha hu).trans (raiseXM_of_support hos _), fun n => ?_⟩
  rw [signalFP_of_not_pre hpre, BitVec.getLsbD_or, getLsbD_bits_unionFlags_packedOf]

/-- The free flags of log 9 lie in MXCSR[5:0]. -/
theorem getLsbD_freeFlags_of_le (c : Nat) {n : Nat} (hn : 6 ≤ n) :
    ((Config.freeFlags c).setWidth 32).getLsbD n = false := by
  rw [BitVec.getLsbD_setWidth, BitVec.getLsbD_of_ge _ _ hn, Bool.and_false]

/-- Settles O37: the flags that `SignalFP` computes are dropped for free ones. -/
theorem unmaskedWithoutOsSupportIsUndefinedOpcode : Obligations.UnmaskedWithoutOsSupportIsUndefinedOpcode := by
  intro s i j he ho hr hos hj ha hu
  refine ⟨_, (exec_of_unmasked he ho hr hj ha hu).trans (raiseXM_of_no_support hos _),
    fun n => ⟨fun hn => ?_, fun hn => ?_⟩⟩
  · rw [BitVec.getLsbD_or, hn, Bool.true_or]
  · rw [BitVec.getLsbD_or, getLsbD_freeFlags_of_le _ hn, Bool.or_false]

/-! ## Embedded rounding (R196, R247) -/

/-- All that an instruction with embedded rounding can do: stop at the gate, or complete with MXCSR as it was. -/
theorem exec_evexRounded_cases (k : Kind) (p : List LegacyPrefix) (mask : Masking) (dst src2 r : BitVec 5)
    (rc : Rounding) (s : State) :
    (∃ stop, gateOf s (Instr.evexRounded k p mask dst src2 r rc) = some stop ∧
      exec (Instr.evexRounded k p mask dst src2 r rc) s = stop) ∨
    exec (Instr.evexRounded k p mask dst src2 r rc) s =
      .next ((roundedOp k p mask dst src2 r rc s).complete s s.mxcsr) := by
  cases hg : gateOf s (Instr.evexRounded k p mask dst src2 r rc) with
  | some stop => exact .inl ⟨stop, rfl, exec_of_gateOf_eq_some hg⟩
  | none =>
    right
    rw [exec_of_no_fault hg (operandFault_of_reg (by rw [parts_evexRounded]; rfl)), ← roundedOp_eq_packedOf]
    rfl

/-- Settles O38: the faults of the gate leave the state as it is and are #UD and #NM. -/
theorem suppressedExceptionsLeaveMxcsr : Obligations.SuppressedExceptionsLeaveMxcsr := by
  intro k p mask dst src2 r rc s
  rcases exec_evexRounded_cases k p mask dst src2 r rc s with ⟨stop, hg, he⟩ | he
  · rw [he]
    rcases gate_eq_some hg with rfl | rfl | rfl
    · exact ⟨fun t h => (by cases h), fun q left h => (by cases h)⟩
    · exact ⟨fun t h => (by cases h), fun q left h => by cases h; exact ⟨rfl, nofun⟩⟩
    · exact ⟨fun t h => (by cases h), fun q left h => by cases h; exact ⟨rfl, nofun⟩⟩
  · rw [he]
    exact ⟨fun t h => (by cases h; rfl), fun q left h => by cases h⟩

/-! ## What a completion does not depend on (R170, R248, R254) -/

/-- Two `ExecPacked` with the same active lanes, each computing the same, report the same flags (R248). -/
theorem flags_congr {o o' : PackedOp} {s s' : State} (hl : o'.lanes = o.lanes) (ha : o'.active = o.active)
    (h : ∀ j, o.active j = true → o'.lane s' j = o.lane s j) : o'.flags s' = o.flags s := by
  rw [PackedOp.flags, PackedOp.flags, hl, ha]
  refine List.map_congr_left fun j hj => ?_
  rw [h j (List.mem_filter.1 hj).2]

/-- The gate reads no vector register. -/
theorem gateOf_vec {s : State} {i : Instr} {v : Vector Vec 32} :
    gateOf { s with vec := v } i = none ↔ gateOf s i = none := by
  rw [gateOf, gateOf, gate_eq_none, gate_eq_none]
  rfl

/-- A lane of an EVEX register form reads the same lane of the three operands, and nothing else of the vector registers
(R170). -/
theorem lane_packedOf_vec {k : Kind} {l : EvexLength} {p : List LegacyPrefix} {mask : Masking} {dst src2 r : BitVec 5}
    {s : State} {v : Vector Vec 32} {j : Nat}
    (h : ∀ q, q = dst ∨ q = src2 ∨ q = r → lane (readVec { s with vec := v } q) j = lane (readVec s q) j) :
    (packedOf { s with vec := v } (Instr.evex k l p mask dst src2 (.reg r))).lane { s with vec := v } j =
      (packedOf s (Instr.evex k l p mask dst src2 (.reg r))).lane s j := by
  simp only [lane_packedOf, outcome, operand3_evex_reg]
  simp only [parts_evex, evexParts, h dst (.inl rfl), h src2 (.inr (.inl rfl)), h r (.inr (.inr rfl))]

/-- An active lane of the completed destination is the lane's result below `KL` and 0 above, so equal results leave it
equal. -/
theorem lane_complete_congr {o o' : PackedOp} {s s' : State} {d : BitVec 5} (m : BitVec 32) {j : Nat} (hd : o.dst = d)
    (hd' : o'.dst = d) (hl : o'.lanes = o.lanes) (h8 : j < 8) (ha : o.active j = true) (ha' : o'.active j = true)
    (h : o'.lane s' j = o.lane s j) :
    lane (readVec (o'.complete s' m) d) j = lane (readVec (o.complete s m) d) j := by
  have hnew : ∀ (p : PackedOp) (u : State), p.dst = d → p.active j = true →
      lane (readVec (p.complete u m) d) j = if j < p.lanes then (p.lane u j).result.getD 0#64 else 0#64 := by
    rintro p u rfl hp
    rw [readVec_complete_same, lane_newVec _ _ _ h8, PackedOp.newLane, if_pos hp]
  rw [hnew o' s' hd' ha', hnew o s hd ha, hl, h]

/-- Settles O39: the flags and the lanes delivered are those of the active lanes, which read no other lane. -/
theorem inactiveLanesDoNotMatter : Obligations.InactiveLanesDoNotMatter := by
  intro k l p mask dst src2 r s t v hlanes h
  have hdst : (packedOf s (Instr.evex k l p mask dst src2 (.reg r))).dst = dst := by rw [packedOf, parts_evex]; rfl
  have hactive : (packedOf s (Instr.evex k l p mask dst src2 (.reg r))).active = laneActive s mask := activeLane_evex
  have hlane := fun j (ha : laneActive s mask j = true) =>
    lane_packedOf_vec (k := k) (l := l) (p := p) (mask := mask) (hlanes j ha)
  obtain ⟨hg, _, hx⟩ := exec_eq_next_iff.1 h
  obtain ⟨mxcsr, rfl, hx'⟩ := execPacked_next_congr
    (o' := packedOf { s with vec := v } (Instr.evex k l p mask dst src2 (.reg r))) (s' := { s with vec := v })
    hx (flags_congr rfl rfl fun j ha => hlane j (hactive ▸ ha)) rfl rfl
  refine ⟨_, (exec_of_no_fault (gateOf_vec.2 hg) (operandFault_of_reg (by rw [parts_evex]; rfl))).trans hx', rfl, rfl,
    fun j hj ha => ?_⟩
  exact lane_complete_congr mxcsr hdst hdst rfl hj (hactive ▸ ha) (hactive ▸ ha) (hlane j ha)

/-- The gate does not ask for CPL. -/
theorem gateOf_cpl {s : State} {i : Instr} {c : BitVec 2} : gateOf { s with cpl := c } i = none ↔ gateOf s i = none := by
  rw [gateOf, gateOf, gate_eq_none, gate_eq_none]
  rfl

/-- Settles O41: CPL reaches an instruction through the checks on its operand alone. -/
theorem privilegeLevelDoesNotMatter : Obligations.PrivilegeLevelDoesNotMatter := by
  intro s t i c h ho
  obtain ⟨hg, _, hx⟩ := exec_eq_next_iff.1 h
  obtain ⟨mxcsr, rfl, hx'⟩ := execPacked_next_congr (o' := packedOf { s with cpl := c } i) (s' := { s with cpl := c })
    hx rfl rfl rfl
  exact (exec_of_no_fault (gateOf_cpl.2 hg) (operandFault_of_operandOk ho)).trans hx'

/-! ## Precise faults (R230, R240, R249) -/

/-- W/R, bit 1 of a #PF's error code, is 0: the access is a read (R240; log 10). -/
theorem pageFaultCode_getLsbD_one (s : State) (a : Word) : (pageFaultCode s a).getLsbD 1 = false := by
  have hus : (if s.cpl = 3#2 then 4#32 else 0#32).getLsbD 1 = false := by split <;> rfl
  rw [pageFaultCode, BitVec.getLsbD_or, hus, BitVec.getLsbD_and]
  simp

/-- The state that a fault leaves, by the exception that it reports (R240, R242, R249; log 9). -/
theorem Raised.left_cases {s : State} {q : Report} {left : State} (h : Raised s (.fault (.exception q left))) :
    (q.exception ≠ .pageFault ∧ left = s) ∨
    (∃ a, q.exception = .pageFault ∧ q.cr2 = some a ∧ left = { s with cr2 := a, freeCount := s.freeCount + 1 }) ∨
    (∃ f : FpFlags, q.exception = .simdFloatingPoint ∧ left = { s with mxcsr := s.mxcsr ||| f.bits }) ∨
    (∃ m, q.exception = .invalidOpcode ∧ cr4OSXMMEXCPT s = false ∧
      left = { s with mxcsr := m, freeCount := s.freeCount + 1 }) := by
  generalize hr : Host.Outcome.fault (Fault.exception q left) = r at h
  cases h with
  | pageFault a =>
    cases hr
    exact .inr (.inl ⟨a, rfl, rfl, rfl⟩)
  | simdFloatingPoint f =>
    cases hos : cr4OSXMMEXCPT s with
    | true =>
      rw [raiseXM_of_support hos] at hr
      cases hr
      exact .inr (.inr (.inl ⟨f, rfl, rfl⟩))
    | false =>
      rw [raiseXM_of_no_support hos] at hr
      cases hr
      exact .inr (.inr (.inr ⟨_, rfl, rfl, rfl⟩))
  | _ =>
    cases hr
    exact .inl ⟨nofun, rfl⟩

/-- The report of a fault names the first byte of the instruction, which RIP keeps (R249). -/
theorem Raised.report_rip {s : State} {q : Report} {left : State} (h : Raised s (.fault (.exception q left))) :
    q.rip = s.rip := by
  generalize hr : Host.Outcome.fault (Fault.exception q left) = r at h
  cases h with
  | simdFloatingPoint f =>
    rw [raiseXM] at hr
    split at hr <;> cases hr <;> rfl
  | _ =>
    cases hr
    rfl

/-- Only a #PF writes CR2, the address that it reports (R240). -/
theorem Raised.left_cr2 {s : State} {q : Report} {left : State} (h : Raised s (.fault (.exception q left))) :
    (q.exception ≠ .pageFault → left.cr2 = s.cr2) ∧ (q.exception = .pageFault → q.cr2 = some left.cr2) := by
  rcases h.left_cases with ⟨hq, rfl⟩ | ⟨a, hq, hcr2, rfl⟩ | ⟨f, hq, rfl⟩ | ⟨m, hq, _, rfl⟩
  · exact ⟨fun _ => rfl, fun h' => absurd h' hq⟩
  · exact ⟨fun h' => absurd hq h', fun _ => hcr2⟩
  · exact ⟨fun _ => rfl, fun h' => by cases hq.symm.trans h'⟩
  · exact ⟨fun _ => rfl, fun h' => by cases hq.symm.trans h'⟩

/-- A #UD that an #XM did not turn into, and any exception but #XM, leaves MXCSR as it was (R242, R249; log 9). -/
theorem Raised.left_mxcsr {s : State} {q : Report} {left : State} (h : Raised s (.fault (.exception q left)))
    (hxm : q.exception ≠ .simdFloatingPoint) (hud : q.exception = .invalidOpcode → cr4OSXMMEXCPT s = true) :
    left.mxcsr = s.mxcsr := by
  rcases h.left_cases with ⟨_, rfl⟩ | ⟨a, _, _, rfl⟩ | ⟨f, hq, _⟩ | ⟨m, hq, hos, _⟩
  · rfl
  · rfl
  · exact absurd hq hxm
  · cases hos.symm.trans (hud hq)

/-- Only a #PF and a #UD that an #XM turned into use a free value (logs 9 and 10). -/
theorem Raised.left_freeCount {s : State} {q : Report} {left : State} (h : Raised s (.fault (.exception q left)))
    (hpf : q.exception ≠ .pageFault) (hud : q.exception = .invalidOpcode → cr4OSXMMEXCPT s = true) :
    left.freeCount = s.freeCount := by
  rcases h.left_cases with ⟨_, rfl⟩ | ⟨a, hq, _⟩ | ⟨f, _, rfl⟩ | ⟨m, hq, hos, _⟩
  · rfl
  · exact absurd hq hpf
  · rfl
  · cases hos.symm.trans (hud hq)

/-- Settles O43: the frame of `Raised.left_eq`, and which exception moves which of the three fields that it leaves open. -/
theorem faultsArePrecise : Obligations.FaultsArePrecise := by
  intro s q left hstep
  have h := step_fault hstep
  obtain ⟨hcr2, hpf⟩ := h.left_cr2
  have hrip := h.report_rip
  have hmxcsr := h.left_mxcsr
  have hcount := h.left_freeCount
  obtain ⟨b, cr2, n, hb, rfl⟩ := h.left_eq
  refine ⟨hrip, rfl, rfl, rfl, rfl, rfl, fun _ => rfl, rfl, hcr2, hpf, fun k hk => ?_, fun k hk => ?_, hmxcsr, hcount⟩
  · rw [BitVec.getLsbD_or, hk, Bool.true_or]
  · rw [BitVec.getLsbD_or, hb k hk, Bool.or_false]

/-- Settles O44: each constructor of `Raised` is one row of the table, and a #UD that an #XM turned into is the first. -/
theorem reportsFollowExceptionTable : Obligations.ReportsFollowExceptionTable := by
  intro s q left hstep
  have h := step_fault hstep
  generalize hr : Host.Outcome.fault (Fault.exception q left) = r at h
  cases h with
  | invalidOpcode =>
    cases hr
    exact .inl ⟨rfl, rfl, rfl, rfl⟩
  | deviceNotAvailable =>
    cases hr
    exact .inr (.inl ⟨rfl, rfl, rfl, rfl⟩)
  | stackSegment =>
    cases hr
    exact .inr (.inr (.inl ⟨rfl, rfl, rfl, rfl⟩))
  | generalProtection =>
    cases hr
    exact .inr (.inr (.inr (.inl ⟨rfl, rfl, rfl, rfl⟩)))
  | pageFault a =>
    cases hr
    exact .inr (.inr (.inr (.inr (.inl ⟨rfl, rfl, ⟨_, rfl, pageFaultCode_getLsbD_one s a⟩, rfl⟩))))
  | alignmentCheck hal =>
    cases hr
    exact .inr (.inr (.inr (.inr (.inr (.inl ⟨rfl, rfl, rfl, rfl, hal⟩)))))
  | simdFloatingPoint f =>
    cases hos : cr4OSXMMEXCPT s with
    | true =>
      rw [raiseXM_of_support hos] at hr
      cases hr
      exact .inr (.inr (.inr (.inr (.inr (.inr ⟨rfl, rfl, rfl, rfl, hos⟩)))))
    | false =>
      rw [raiseXM_of_no_support hos] at hr
      cases hr
      exact .inl ⟨rfl, rfl, rfl, rfl⟩

/-! ## Completed runs (R28, R68, R256) -/

/-- `sameElsewhere` as one equation: the later state is the earlier one with vector registers, MXCSR and RIP replaced. -/
theorem sameElsewhere_iff {s t : State} :
    sameElsewhere s t ↔ t = { s with vec := t.vec, mxcsr := t.mxcsr, rip := t.rip } := by
  constructor
  · cases s
    cases t
    rintro ⟨rfl, rfl, rfl, rfl, rfl, rfl, rfl, rfl, rfl, rfl, rfl, rfl, rfl, rfl, rfl, rfl, rfl, rfl, _⟩
    rfl
  · intro h
    rw [h]
    simp [sameElsewhere, readByte]

theorem sameElsewhere_refl (s : State) : sameElsewhere s s := sameElsewhere_iff.2 rfl

theorem sameElsewhere_trans {s t u : State} (h : sameElsewhere s t) (h' : sameElsewhere t u) : sameElsewhere s u := by
  rw [sameElsewhere_iff] at h h' ⊢
  rw [h] at h'
  exact h'

/-- What a run keeps from one state to a later one: all but vector registers, MXCSR[5:0] and RIP, and the flags set. -/
def RunKeeps (s t : State) : Prop :=
  sameElsewhere s t ∧ (∀ b, s.mxcsr.getLsbD b = true → t.mxcsr.getLsbD b = true) ∧
    ∀ b, 6 ≤ b → t.mxcsr.getLsbD b = s.mxcsr.getLsbD b

theorem RunKeeps.refl (s : State) : RunKeeps s s := ⟨sameElsewhere_refl s, fun _ => id, fun _ _ => rfl⟩

theorem RunKeeps.trans {s t u : State} (h : RunKeeps s t) (h' : RunKeeps t u) : RunKeeps s u := by
  obtain ⟨hsame, hsticky, hhigh⟩ := h
  obtain ⟨hsame', hsticky', hhigh'⟩ := h'
  exact ⟨sameElsewhere_trans hsame hsame', fun b hb => hsticky' b (hsticky b hb),
    fun b hb => (hhigh' b hb).trans (hhigh b hb)⟩

/-- A step that completes is an instruction's completion, whose frame is known (R22, R28, R68). -/
theorem step_next_keeps {s t : State} (h : step s = .next t) : RunKeeps s t := by
  obtain ⟨i, _, he⟩ := step_next h
  obtain ⟨_, hhigh, hsticky, _, hsame⟩ := completionFrame i s t he
  exact ⟨hsame, hsticky, fun b hb => hhigh b (.inr hb)⟩

/-- A run that completes is at the end address, and keeps what every step keeps. -/
theorem runTo_completed {e : Word} {n : Nat} {s t : State} (h : runTo e n s = .completed t) :
    t.rip = e ∧ RunKeeps s t := by
  induction n generalizing s with
  | zero =>
    rw [runTo] at h
    split at h
    · next he =>
      cases h
      exact ⟨he, RunKeeps.refl _⟩
    · cases h
  | succ n ih =>
    rw [runTo] at h
    split at h
    · next he =>
      cases h
      exact ⟨he, RunKeeps.refl _⟩
    · cases hs : step s with
      | next u =>
        rw [hs] at h
        obtain ⟨hrip, hkeeps⟩ := ih h
        exact ⟨hrip, (step_next_keeps hs).trans hkeeps⟩
      | fault f =>
        rw [hs] at h
        cases h
      | refused r =>
        rw [hs] at h
        cases h

/-- Settles O47, by `runTo_completed`: induction on the steps allowed. -/
theorem completedRunFrame : Obligations.CompletedRunFrame := fun _ _ _ _ => runTo_completed

end Sys2Proof.Machine

/-! Proofs about the launch premise (70_reset_and_hazards.md): what it gives to every instruction, and with it what an
instruction can raise. -/

namespace Sys2Proof.Machine

/-! ## What the launch premise gives (R273) -/

section
variable {s : State}

/-- With all three feature flags set no row lacks one (R236). -/
theorem featuresPresent_of_all {c : Cpu} (i : Instr) (hfma : c.hasFMA = true) (hf : c.hasAVX512F = true)
    (hvl : c.hasAVX512VL = true) : featuresPresent c i = true := by
  cases i <;> simp [featuresPresent, hfma, hf, hvl]

/-- In a launched state no #UD condition holds and CR0.TS is clear, for the rows of every encoding and length. -/
theorem launched_enabled (h : launched s = true) (i : Instr) : enabled s i = true := by
  simp only [launched, Bool.and_eq_true, Bool.not_eq_true', beq_iff_eq] at h
  obtain ⟨⟨⟨⟨⟨⟨⟨⟨⟨⟨⟨hmode, hts⟩, _⟩, hxsave⟩, _⟩, _⟩, havx⟩, havx512⟩, hfma⟩, hf⟩, hvl⟩, _⟩ := h
  simp [enabled, executable64, hmode, hts, hxsave, havx, havx512, featuresPresent_of_all i hfma hf hvl]

/-- CR0.AM is clear in a launched state, so alignment is not checked, whatever CPL and RFLAGS.AC are (R54). -/
theorem launched_alignCheckOn (h : launched s = true) : alignCheckOn s = false := by
  simp only [launched, Bool.and_eq_true, Bool.not_eq_true'] at h
  obtain ⟨⟨⟨⟨⟨⟨⟨⟨⟨⟨_, ham⟩, _⟩, _⟩, _⟩, _⟩, _⟩, _⟩, _⟩, _⟩, _⟩ := h
  simp [alignCheckOn, ham]

theorem launched_cr4OSXMMEXCPT (h : launched s = true) : cr4OSXMMEXCPT s = true := by
  simp only [launched, Bool.and_eq_true] at h
  obtain ⟨⟨⟨⟨⟨⟨⟨⟨_, hxm⟩, _⟩, _⟩, _⟩, _⟩, _⟩, _⟩, _⟩ := h
  exact hxm

/-! ## What an instruction can answer past the gate -/

/-- With CR4.OSXMMEXCPT set, an unmasked condition is #XM and not #UD (R242). -/
theorem raiseXM_of_cr4OSXMMEXCPT (h : cr4OSXMMEXCPT s = true) (mxcsr : BitVec 32) :
    raiseXM s mxcsr = raise .simdFloatingPoint none none { s with mxcsr := mxcsr } :=
  if_pos h

/-- Past the gate an instruction completes, faults on its memory operand, or raises for an unmasked condition. -/
theorem exec_cases_of_gateOf_eq_none {i : Instr} (hg : gateOf s i = none) :
    (∃ t, exec i s = .next t) ∨ exec i s = raiseSS s ∨ exec i s = raiseGP s ∨ (∃ a, exec i s = raisePF s a) ∨
      (alignCheckOn s = true ∧ exec i s = raiseAC s) ∨ ∃ mxcsr, exec i s = raiseXM s mxcsr := by
  rcases exec_cases i s with ⟨stop, hg', _⟩ | ⟨_, _, _, _, _, stop, hm, he⟩ | ⟨_, o, _, _, _, _, he⟩
  · cases hg.symm.trans hg'
  · rw [he]
    rcases memFault_eq_some hm with hss | hgp | ⟨a, _, hpf⟩ | ⟨hal, hac⟩
    · exact .inr (.inl hss)
    · exact .inr (.inr (.inl hgp))
    · exact .inr (.inr (.inr (.inl ⟨a, hpf⟩)))
    · exact .inr (.inr (.inr (.inr (.inl ⟨hal, hac⟩))))
  · rw [he]
    rcases execPacked_cases o s with ⟨_, hx⟩ | ⟨_, _, hx⟩ | ⟨_, _, hx⟩
    · exact .inl ⟨_, hx⟩
    · exact .inl ⟨_, hx⟩
    · exact .inr (.inr (.inr (.inr (.inr ⟨_, hx⟩))))

/-- The outcomes left in a launched state: completion, #SS, #GP, #PF and #XM. -/
theorem exec_of_launched (h : launched s = true) (i : Instr) :
    (∃ t, exec i s = .next t) ∨ exec i s = raiseSS s ∨ exec i s = raiseGP s ∨ (∃ a, exec i s = raisePF s a) ∨
      ∃ mxcsr, exec i s = raise .simdFloatingPoint none none { s with mxcsr := mxcsr } := by
  rcases exec_cases_of_gateOf_eq_none (gateOf_enabled (launched_enabled h i)) with
    hnext | hss | hgp | hpf | ⟨hal, _⟩ | ⟨mxcsr, hxm⟩
  · exact .inl hnext
  · exact .inr (.inl hss)
  · exact .inr (.inr (.inl hgp))
  · exact .inr (.inr (.inr (.inl hpf)))
  · rw [launched_alignCheckOn h] at hal
    cases hal
  · exact .inr (.inr (.inr (.inr ⟨mxcsr, hxm.trans (raiseXM_of_cr4OSXMMEXCPT (launched_cr4OSXMMEXCPT h) mxcsr)⟩)))

/-- A report carries the exception that was raised. -/
theorem exception_of_raise {e : Exception} {code : Option (BitVec 32)} {cr2 : Option Word} {left left' : State}
    {q : Report} (h : raise e code cr2 left = .fault (.exception q left')) : q.exception = e := by
  cases h
  rfl

end

/-- Settles O14: the launch premise passes the gate (`launched_enabled`), and past it only the outcomes of
`exec_of_launched` are left. -/
theorem launchedStateEnablesAll : Obligations.LaunchedStateEnablesAll := by
  intro s i h
  refine ⟨gateOf_enabled (launched_enabled h i), fun r hr => ?_, fun q left hq => ?_⟩
  · rcases exec_of_launched h i with ⟨t, he⟩ | he | he | ⟨a, he⟩ | ⟨mxcsr, he⟩ <;> cases he.symm.trans hr
  · rcases exec_of_launched h i with ⟨t, he⟩ | he | he | ⟨a, he⟩ | ⟨mxcsr, he⟩
    · cases he.symm.trans hq
    · exact .inl (exception_of_raise (he.symm.trans hq))
    · exact .inr (.inl (exception_of_raise (he.symm.trans hq)))
    · exact .inr (.inr (.inl (exception_of_raise (he.symm.trans hq))))
    · exact .inr (.inr (.inr (exception_of_raise (he.symm.trans hq))))

end Sys2Proof.Machine
